-- ==== Sys2Proof/Word.lean ====
section
/-!
DEFINITION. The words, byte strings and numeric carriers of the codec core (spec/00_scope.md R8, R11, R13;
spec/20_memory.md R40, R49). Every integer field of the block is unsigned (R11).
-/

namespace Sys2Proof

/-- One byte of a byte string (R11). -/
abbrev Byte := BitVec 8

/-- An unsigned 8-bit field (R11). -/
abbrev U8 := BitVec 8

/-- An unsigned 16-bit field (R11): `aux_field`, OPWORD, a register index. -/
abbrev U16 := BitVec 16

/-- An unsigned 32-bit field (R11): the identifier word, an id operand, an error code. -/
abbrev U32 := BitVec 32

/-- `NUM`, an IEEE-754 binary64 value as its 64-bit pattern (R13): sign bit 63, exponent 62..52, fraction 51..0. -/
abbrev F64 := BitVec 64

/-- An IEEE-754 binary32 value as its 32-bit pattern (R13): sign bit 31, exponent 30..23, fraction 22..0. -/
abbrev F32 := BitVec 32

/-- A register value field: exactly 4 bytes, offset 0 first (R162). -/
structure Bytes4 where
  b0 : Byte
  b1 : Byte
  b2 : Byte
  b3 : Byte
  deriving DecidableEq, Repr

/-- A payload: exactly 8 bytes, offset 0 first (R31, R65). -/
structure Bytes8 where
  b0 : Byte
  b1 : Byte
  b2 : Byte
  b3 : Byte
  b4 : Byte
  b5 : Byte
  b6 : Byte
  b7 : Byte
  deriving DecidableEq, Repr

end Sys2Proof
end

