-- ==== Sys2Proof/Config.lean ====
section
/-!
DEFINITION. What an implementation fixes before the first step (spec/00_scope.md R9; spec/10_state.md R23 to R28;
spec/70_reset_and_hazards.md R283): the shapes of the ROM tables and of the named parameters, and the values the spec
leaves free, as constants without a body. The contents the spec gives the tables are `Machine.standardRom`
(Machine/Rom.lean).
-/

namespace Sys2Proof

/-- The parameter `QUANT_ARITH` (R9, R108): the arithmetic of the quantizer. -/
inductive QuantArith where
  /-- IEEE-754 binary64, rounded to nearest even at each operation, in the written order (the spec's setting). -/
  | binary64
  /-- exact real arithmetic on the exact values of the binary64 operands. -/
  | exactReal
  deriving DecidableEq, Repr

/-- The parameter `PACK_OVERFLOW` (R9, R121): PACK of a command mode above 31. -/
inductive PackOverflow where
  /-- refuse with FieldRange (the spec's setting). -/
  | fault
  /-- keep the low 32 bits of the identifier word. -/
  | truncate
  deriving DecidableEq, Repr

/-- One entry of the ROM table RANGES (R23): an inclusive pair of NUM values. -/
structure Range where
  lo : F64
  hi : F64
  deriving DecidableEq, Repr

/-- ROM table IDCONST (R24): the marker and the field positions inside the 29-bit identifier. -/
structure IdConst where
  marker : U32
  markerW : Nat
  modePos : Nat
  auxPos : Nat
  nodePos : Nat
  deriving DecidableEq, Repr

/-- ROM table FRAMECONST (R25): header, length byte, terminator and the two lengths. -/
structure FrameConst where
  hdr0 : Byte
  hdr1 : Byte
  lenByte : Byte
  term0 : Byte
  term1 : Byte
  frameLen : Nat
  payloadLen : Nat
  deriving DecidableEq, Repr

/-- The kind of a register (R86, R160): which encode and decode functions it selects. -/
inductive RegKind where
  | u8pad
  | f32le
  | u16pad
  deriving DecidableEq, Repr

/-- One entry of the ROM table REGCAT (R26, R160). -/
structure RegEntry where
  name : String
  index : U16
  kind : RegKind
  deriving DecidableEq, Repr

/-- The parameter `REG_INDEX` (R9, R161): the wire index of each float register whose index DOC does not fix, entries 3
to 13 of the catalogue. The endpoints of the group, iq_ref and vbus, are DOC's and no parameter (D18). -/
structure RegIndex where
  spdRef : U16
  limitTorque : U16
  curKp : U16
  curKi : U16
  curFiltGain : U16
  locRef : U16
  limitSpd : U16
  limitCur : U16
  mechPos : U16
  iqf : U16
  mechVel : U16
  deriving DecidableEq, Repr

/-- The constraint R161 puts on `REG_INDEX`: the indices lie strictly between 0x7006 and 0x701C and rise in the order of
the table, so they are distinct. -/
def RegIndex.lawful (r : RegIndex) : Bool :=
  decide (0x7006 < r.spdRef ∧ r.spdRef < r.limitTorque ∧ r.limitTorque < r.curKp ∧ r.curKp < r.curKi ∧
    r.curKi < r.curFiltGain ∧ r.curFiltGain < r.locRef ∧ r.locRef < r.limitSpd ∧ r.limitSpd < r.limitCur ∧
    r.limitCur < r.mechPos ∧ r.mechPos < r.iqf ∧ r.iqf < r.mechVel ∧ r.mechVel < 0x701C)

/-- The run phases of a mode-2 response (R225). -/
inductive RunPhase where
  | reset
  | calibrating
  | running
  | unknown
  deriving DecidableEq, Repr

/-- The parameter `STATUS_FLAG_MAP` (R226): the aux_field bit of each mode-2 error flag. -/
structure StatusFlagMap where
  undervoltage : Nat
  overcurrent : Nat
  overheat : Nat
  magnetic : Nat
  hall : Nat
  undefined : Nat
  deriving DecidableEq, Repr

/-- The parameter `FAULT_BIT_MAP` (R233): the error_code bit of each single-bit mode-21 flag. -/
structure FaultBitMap where
  phaseAOvercurrent : Nat
  phaseBOvercurrent : Nat
  phaseCOvercurrent : Nat
  encoderUncalibrated : Nat
  overvoltage : Nat
  undervoltage : Nat
  driverChip : Nat
  motorOverheat : Nat
  deriving DecidableEq, Repr

/-- ROM table PARSECONST (R27): the mode-0 sentinel, the run-phase table (entry n for the 2-bit value n) and the two
flag maps. -/
structure ParseConst where
  idSentinel : U8
  runPhase0 : RunPhase
  runPhase1 : RunPhase
  runPhase2 : RunPhase
  runPhase3 : RunPhase
  statusFlagMap : StatusFlagMap
  faultBitMap : FaultBitMap
  deriving DecidableEq, Repr

/-- The immutable tables of the block (R23 to R27) with the parameters of R9 that are no table entry. No operation
writes any of it (R28). -/
structure Rom where
  quantArith : QuantArith
  /-- `QWIDTHS` (R9, R101): the widths in bytes that QENC and QDEC admit. -/
  qwidths : List Nat
  packOverflow : PackOverflow
  /-- `HOST_ID_W` (R9, R190(b)): the width in bits of a host_id or new_target_id operand before masking. -/
  hostIdW : Nat
  pRange : Range
  vRange : Range
  tRange : Range
  kpRange : Range
  kdRange : Range
  /-- kept in ROM and used by no operation (R23). -/
  iRange : Range
  tempDiv : F64
  idConst : IdConst
  frameConst : FrameConst
  /-- `REG_INDEX` (R9, R161), which with DOC's own indices makes the catalogue REGCAT: `Rom.regcat`. -/
  regIndex : RegIndex
  parseConst : ParseConst
  deriving DecidableEq, Repr

/-- The four binary64 operations of the quantizer (R13). -/
inductive FloatOp where
  | add
  | sub
  | mul
  | div
  deriving DecidableEq, Repr

/-- The sign and fraction of a binary64 NaN: the fraction is the number plus one, so never 0, and every NaN has one. -/
abbrev NanBits64 := Bool × Fin 4503599627370495

/-- The sign and fraction of a binary32 NaN, as `NanBits64`. -/
abbrev NanBits32 := Bool × Fin 8388607

/-- FREE VALUE (R171; spec/93_implementation_defined.md U16; log entry 7): the sign and fraction of the NaN that a
binary32 NaN pattern decodes to. A function of the pattern alone, since a response is a function of its request (R50). -/
opaque Config.nanOfPattern : F32 → NanBits64

/-- FREE VALUE (R13; log entry 8): the sign and fraction of the NaN that a binary64 operation without a numeric result
gives. -/
opaque Config.nanOfOp : FloatOp → F64 → F64 → NanBits64

/-- FREE VALUE (R13; log entry 8): the sign and fraction of the NaN that `toF32` gives for a NaN. No operation asks for
it: RENC refuses a NaN first (R167). -/
opaque Config.nanOfNarrow : F64 → NanBits32

/-- FREE VALUE (R102, R104; log entry 9): where QENC's written product is no number, that is where both `hi -64 lo` and
`c -64 lo` overflow binary64 and the value lies below `hi`, the clamped value from which on the code is above `k`, by
width, `lo`, `hi` and `k`. Every code that R104 admits there (in `0..M(w)`, non-decreasing, a function of the clamped
value) is that of some thresholds. -/
opaque Config.codeThreshold : Nat → F64 → F64 → Nat → F64

end Sys2Proof
end

