-- ==== Sys2Proof/Machine/Rom.lean ====
section
/-!
DEFINITION. The contents the spec gives the ROM tables and the parameters of R9 (spec/10_state.md R23 to R27;
spec/43_register.md R161; spec/45_parse.md R226, R233).
-/

namespace Sys2Proof.Machine

/-- `P_RANGE`, [-12.5, 12.5] rad (R23). -/
def pRange : Range := { lo := 0xC029000000000000, hi := 0x4029000000000000 }

/-- `V_RANGE`, [-30, 30] rad/s (R23). -/
def vRange : Range := { lo := 0xC03E000000000000, hi := 0x403E000000000000 }

/-- `T_RANGE`, [-12, 12] N·m (R23). -/
def tRange : Range := { lo := 0xC028000000000000, hi := 0x4028000000000000 }

/-- `KP_RANGE`, [0, 500] (R23). -/
def kpRange : Range := { lo := 0x0000000000000000, hi := 0x407F400000000000 }

/-- `KD_RANGE`, [0, 5] (R23). -/
def kdRange : Range := { lo := 0x0000000000000000, hi := 0x4014000000000000 }

/-- `I_RANGE`, [-23, 23] A, used by no operation (R23). -/
def iRange : Range := { lo := 0xC037000000000000, hi := 0x4037000000000000 }

/-- `TEMP_DIV`, 10.0 (R23). -/
def tempDiv : F64 := 0x4024000000000000

/-- IDCONST (R24). -/
def idConst : IdConst := { marker := 0b100, markerW := 3, modePos := 24, auxPos := 8, nodePos := 0 }

/-- FRAMECONST (R25): "AT", the length byte, CR LF. -/
def frameConst : FrameConst :=
  { hdr0 := 0x41, hdr1 := 0x54, lenByte := 0x08, term0 := 0x0D, term1 := 0x0A, frameLen := 17, payloadLen := 8 }

/-- `REG_INDEX` at the defaults of R161 (PRESUMED by the spec itself, D18; log entry 12). -/
def regIndex : RegIndex :=
  { spdRef := 0x700A, limitTorque := 0x700B, curKp := 0x7010, curKi := 0x7011, curFiltGain := 0x7014,
    locRef := 0x7016, limitSpd := 0x7017, limitCur := 0x7018, mechPos := 0x7019, iqf := 0x701A, mechVel := 0x701B }

/-- REGCAT (R160, R161): the entries in the table's order, with the indices of `REG_INDEX` where DOC fixes none. -/
def catalogueOf (r : RegIndex) : List RegEntry :=
  [ { name := "run_mode", index := 0x7005, kind := .u8pad },
    { name := "iq_ref", index := 0x7006, kind := .f32le },
    { name := "spd_ref", index := r.spdRef, kind := .f32le },
    { name := "limit_torque", index := r.limitTorque, kind := .f32le },
    { name := "cur_kp", index := r.curKp, kind := .f32le },
    { name := "cur_ki", index := r.curKi, kind := .f32le },
    { name := "cur_filt_gain", index := r.curFiltGain, kind := .f32le },
    { name := "loc_ref", index := r.locRef, kind := .f32le },
    { name := "limit_spd", index := r.limitSpd, kind := .f32le },
    { name := "limit_cur", index := r.limitCur, kind := .f32le },
    { name := "mech_pos", index := r.mechPos, kind := .f32le },
    { name := "iqf", index := r.iqf, kind := .f32le },
    { name := "mech_vel", index := r.mechVel, kind := .f32le },
    { name := "vbus", index := 0x701C, kind := .f32le },
    { name := "rotation_count", index := 0x701D, kind := .u16pad } ]

/-- REGCAT of the spec (R161). -/
def regcat : List RegEntry := catalogueOf regIndex

/-- `STATUS_FLAG_MAP` (R226): DOC's listing order on aux_field bits 8..13. -/
def statusFlagMap : StatusFlagMap :=
  { undervoltage := 8, overcurrent := 9, overheat := 10, magnetic := 11, hall := 12, undefined := 13 }

/-- `FAULT_BIT_MAP` (R233). -/
def faultBitMap : FaultBitMap :=
  { motorOverheat := 0, driverChip := 1, undervoltage := 2, overvoltage := 3, encoderUncalibrated := 7,
    phaseCOvercurrent := 14, phaseBOvercurrent := 15, phaseAOvercurrent := 16 }

/-- PARSECONST (R27). -/
def parseConst : ParseConst :=
  { idSentinel := 0xFE, runPhase0 := .reset, runPhase1 := .calibrating, runPhase2 := .running,
    runPhase3 := .unknown, statusFlagMap := statusFlagMap, faultBitMap := faultBitMap }

/-- The ROM of the spec, with every parameter of R9 at the value the spec gives it. -/
def standardRom : Rom :=
  { quantArith := .binary64, qwidths := [1, 2], packOverflow := .fault, hostIdW := 32,
    pRange := pRange, vRange := vRange, tRange := tRange, kpRange := kpRange, kdRange := kdRange, iRange := iRange,
    tempDiv := tempDiv, idConst := idConst, frameConst := frameConst, regIndex := regIndex, parseConst := parseConst }

end Sys2Proof.Machine

namespace Sys2Proof

/-- ROM table REGCAT (R26): the catalogue with the indices of the ROM's `REG_INDEX`. -/
def Rom.regcat (rom : Rom) : List RegEntry := Machine.catalogueOf rom.regIndex

end Sys2Proof
end

