-- ==== Sys2Proof/Syntax.lean ====
section
/-!
DEFINITION. The words of the opcode table and the instructions: every row of spec/opcode_table.json, in the table's order
(spec/30_encoding.md R80 to R89), the operations an OPWORD can name, and the names of the failures
(spec/60_exceptions.md R250).
-/

namespace Sys2Proof

/-- The failure kinds of R250, in the table's order; the name is DOC's or, from `illegalOperation` on, the spec's. -/
inductive Failure where
  | wrongLength
  | badHeader
  | badLength
  | modeMismatch
  | unknownRegister
  | unsupportedMode
  | illegalOperation
  | fieldRange
  | notANumber
  | widthUnsupported
  | unrepresentable
  | badBitRange
  | badPayloadLength
  | badRange
  deriving DecidableEq, Repr

/-- Which way a message with an identifier word travels (the "direction" of a CANID32 row; R66 to R77). -/
inductive Direction where
  | toDevice
  | toHost
  deriving DecidableEq, Repr

/-- A word in one of the three formats of the opcode table's rows (R89). A request carries an OPWORD and nothing else
(R80): `Machine.Request`. -/
inductive TableWord where
  /-- OPWORD16: FUNC in bits 15..8, SEL in bits 7..0. -/
  | opword (w : U16)
  /-- CANID32: an identifier word and the direction its message travels. -/
  | canid (dir : Direction) (w : U32)
  /-- REGIDX16: a register index. -/
  | regidx (w : U16)
  deriving DecidableEq, Repr

/-- The instructions, one constructor per row of spec/opcode_table.json. An OPWORD row has no field: SEL is part of the
row and every operand comes in the request's bundle (R82). A CANID32 row has the identifier's two open fields (R60). -/
inductive Instr where
  -- OPWORD16 rows: the quantizer (R102, R103, R106)
  | qenc1
  | qenc2
  | qdec1
  | qdec2
  | qtemp
  -- the identifier packer (R120, R122, R125)
  | pack
  | unpack
  | xbits
  -- the framer (R140, R141)
  | wrap
  | unwrap
  -- the register transcoder (R163, R164, R165, R169)
  | rlook
  | rlookn
  | renc
  | rdec
  -- the request builders (R191 to R198)
  | build0
  | build1
  | build3
  | build4
  | build6
  | build7
  | build17
  | build18
  -- the response parser (R220)
  | parse
  -- the composites (R200, R235)
  | tx0
  | tx1
  | tx3
  | tx4
  | tx6
  | tx7
  | tx17
  | tx18
  | rx
  -- CANID32 rows: the message kinds (R66 to R77)
  | msgIdQuery (aux : U16) (node : U8)
  | msgControlCommand (aux : U16) (node : U8)
  | msgStatusResponse (aux : U16) (node : U8)
  | msgEnable (aux : U16) (node : U8)
  | msgDisable (aux : U16) (node : U8)
  | msgSetZero (aux : U16) (node : U8)
  | msgSetId (aux : U16) (node : U8)
  | msgReadParam (aux : U16) (node : U8)
  | msgWriteParam (aux : U16) (node : U8)
  | msgIdResponse (aux : U16) (node : U8)
  | msgParamReadResponse (aux : U16) (node : U8)
  | msgFaultResponse (aux : U16) (node : U8)
  -- REGIDX16 rows: the catalogued registers (R161, R165 to R168)
  | regRunMode
  | regIqRef
  | regSpdRef
  | regLimitTorque
  | regCurKp
  | regCurKi
  | regCurFiltGain
  | regLocRef
  | regLimitSpd
  | regLimitCur
  | regMechPos
  | regIqf
  | regMechVel
  | regVbus
  | regRotationCount
  deriving DecidableEq, Repr

/-- What a legal word names (R81, R83): an instruction of the table, or QENC or QDEC of another width that `QWIDTHS`
admits, for which the table, written for the widths 1 and 2, has no row (R89). -/
inductive Operation where
  | row (i : Instr)
  | qencWidth (w : U8)
  | qdecWidth (w : U8)
  deriving DecidableEq, Repr

end Sys2Proof
end

