-- ==== Sys2Proof/Machine/State.lean ====
section
/-!
DEFINITION. The state of the block (spec/10_state.md R20 to R35): the immutable tables, the transactions presented and
not yet answered, and the responses given. The block has no register, program counter, flag or memory (R20, R21, R22,
R40).
-/

namespace Sys2Proof.Machine

/-- The canonical message between the framer and the selector (R31); the payload is always 8 bytes. -/
structure RawMessage where
  commandMode : U8
  auxField : U16
  nodeId : U8
  payload : Bytes8
  deriving DecidableEq, Repr

/-- The operand bundle of a request as one record: a lane for each operand name of each operation, in the width its
rule gives. An operation reads only the lanes its rule names (R14, R82; log entry 5). -/
structure Operands where
  /-- `value: NUM` of QENC, RENC and BUILD.18 (R102, R165, R198). -/
  value : F64
  /-- `lo: NUM` of QENC and QDEC (R102, R103). -/
  lo : F64
  /-- `hi: NUM` of QENC and QDEC (R102, R103). -/
  hi : F64
  /-- `raw: u32` of QDEC (R103). -/
  raw : U32
  /-- `raw: u16` of QTEMP (R106). -/
  rawTemp : U16
  /-- `command_mode: u8` of PACK, WRAP and PARSE (R120, R140, R220). -/
  commandMode : U8
  /-- `aux_field: u16` of PACK, WRAP and PARSE. -/
  auxField : U16
  /-- `node_id: u8` of PACK, WRAP and PARSE. -/
  nodeId : U8
  /-- `identifier: u32` of UNPACK (R122). -/
  identifier : U32
  /-- `value: u32` of XBITS (R125). -/
  bits : U32
  /-- `lo: u8` of XBITS (R125). -/
  bitLo : U8
  /-- `hi: u8` of XBITS (R125). -/
  bitHi : U8
  /-- `payload` of WRAP, a byte string of any length (R140). -/
  wrapPayload : List Byte
  /-- `payload: bytes(8)` of PARSE (R220). -/
  payload : Bytes8
  /-- `data`, the byte string of UNWRAP and RX (R141, R235). -/
  data : List Byte
  /-- `index: u16` of RLOOK, RENC, RDEC, BUILD.17 and BUILD.18 (R163, R165, R169, R197, R198). -/
  index : U16
  /-- `name` of RLOOKN (R164). -/
  name : String
  /-- `field: bytes(4)` of RDEC (R169). -/
  field : Bytes4
  /-- `target_id: u32` of the builders (R190). -/
  targetId : U32
  /-- `host_id` of the builders, an operand of `HOST_ID_W` bits (R190). -/
  hostId : Nat
  /-- `new_target_id` of BUILD.7, an operand of `HOST_ID_W` bits (R196). -/
  newTargetId : Nat
  /-- `fault_clear: 1 bit` of BUILD.4 (R194). -/
  faultClear : Bool
  /-- `torque: NUM` of BUILD.1 (R192). -/
  torque : F64
  /-- `angle: NUM` of BUILD.1 (R192). -/
  angle : F64
  /-- `speed: NUM` of BUILD.1 (R192). -/
  speed : F64
  /-- `kp: NUM` of BUILD.1 (R192). -/
  kp : F64
  /-- `kd: NUM` of BUILD.1 (R192). -/
  kd : F64
  deriving DecidableEq, Repr

/-- A bundle whose every lane is zero or empty; no rule of the spec (log entry 5). -/
def Operands.zero : Operands :=
  { value := 0, lo := 0, hi := 0, raw := 0, rawTemp := 0, commandMode := 0, auxField := 0, nodeId := 0,
    identifier := 0, bits := 0, bitLo := 0, bitHi := 0, wrapPayload := [], payload := ⟨0, 0, 0, 0, 0, 0, 0, 0⟩,
    data := [], index := 0, name := "", field := ⟨0, 0, 0, 0⟩, targetId := 0, hostId := 0, newTargetId := 0,
    faultClear := false, torque := 0, angle := 0, speed := 0, kp := 0, kd := 0 }

/-- A request: the OPWORD and the operand bundle (R30, R80). There is no other form of it and nothing else is presented
to the block (R80, R262). -/
structure Request where
  opword : U16
  operands : Operands
  deriving DecidableEq, Repr

/-- The value QDEC gives: a NUM under `QUANT_ARITH = BINARY64`, a real under `EXACT_REAL`, where it is rational
(R103, R108). -/
inductive Quantity where
  | num (x : F64)
  | exact (q : Rat)
  deriving DecidableEq, Repr

/-- IdResponse (R32, R222). -/
structure IdResponse where
  id : U16
  mcuUid : Bytes8
  deriving DecidableEq, Repr

/-- The mode-2 error flags (R32, R226). -/
structure StatusFlags where
  undervoltage : Bool
  overcurrent : Bool
  overheat : Bool
  magnetic : Bool
  hall : Bool
  undefined : Bool
  deriving DecidableEq, Repr

/-- StatusResponse (R32, R223). -/
structure StatusResponse where
  hostId : U8
  targetId : U8
  runPhase : RunPhase
  errorFlags : StatusFlags
  angle : Quantity
  speed : Quantity
  torque : Quantity
  temperatureC : F64
  deriving DecidableEq, Repr

/-- ParamReadResponse (R32, R229). -/
structure ParamReadResponse where
  hostId : U8
  targetId : U8
  register : RegEntry
  value : F64
  deriving DecidableEq, Repr

/-- The mode-21 fault flags (R32, R233, R234). -/
structure FaultFlags where
  phaseAOvercurrent : Bool
  phaseBOvercurrent : Bool
  phaseCOvercurrent : Bool
  encoderUncalibrated : Bool
  overload : Bool
  overvoltage : Bool
  undervoltage : Bool
  driverChip : Bool
  motorOverheat : Bool
  deriving DecidableEq, Repr

/-- FaultResponse (R32, R230); `faultFlags` is `none` for NONE. -/
structure FaultResponse where
  targetId : U8
  hostId : U8
  hasFault : Bool
  errorCode : U32
  warningCode : U32
  faultFlags : Option FaultFlags
  deriving DecidableEq, Repr

/-- The typed response of PARSE, tagged by its command mode (R32, R220). -/
inductive TypedResponse where
  | id (r : IdResponse)
  | status (r : StatusResponse)
  | paramRead (r : ParamReadResponse)
  | fault (r : FaultResponse)
  deriving DecidableEq, Repr

/-- The result bundle of an operation that succeeds. -/
inductive Result where
  /-- QENC.1: `raw: u8` (R102). -/
  | raw8 (raw : U8)
  /-- QENC.2: `raw: u16` (R102). -/
  | raw16 (raw : U16)
  /-- QENC of another width that `QWIDTHS` admits: `raw`, a code of `width` bytes (R100, R102). -/
  | raw (width : Nat) (code : Nat)
  /-- QDEC: `value` (R103). -/
  | quantity (value : Quantity)
  /-- QTEMP: `temperature_c` (R106). -/
  | temperature (temperatureC : F64)
  /-- PACK: `identifier` (R120). -/
  | identifier (identifier : U32)
  /-- UNPACK: `command_mode`, `aux_field`, `node_id` (R122). -/
  | fields (commandMode : U8) (auxField : U16) (nodeId : U8)
  /-- XBITS: `field` (R125). -/
  | bits (field : U32)
  /-- WRAP and TX: `frame` (R140, R200). -/
  | frame (bytes : List Byte)
  /-- UNWRAP and BUILD: a RawMessage (R141, R190). -/
  | message (m : RawMessage)
  /-- RLOOK and RLOOKN: `entry` (R163, R164). -/
  | entry (e : RegEntry)
  /-- RENC: `field` (R165). -/
  | regField (field : Bytes4)
  /-- RDEC: `value` (R169). -/
  | regValue (value : F64)
  /-- PARSE and RX: a typed response (R220, R235). -/
  | typed (r : TypedResponse)
  deriving DecidableEq, Repr

/-- A response: OK with the whole result bundle, or the status of a failure and no result (R30, R250, R252). -/
inductive Response where
  | ok (r : Result)
  | fail (f : Failure)
  deriving DecidableEq, Repr

/-- No step of the block faults: "every request gets a response" (spec/93_implementation_defined.md), and a failure is
the status of that response (R252, R255). The type has no constructor, so nothing raises one, which is safe. -/
inductive Fault where
  deriving DecidableEq, Repr

/-- Why a step is refused. -/
inductive Refusal where
  /-- Raised by `exec` alone, in the arm of an instruction that has no meaning yet; safe, since nothing is proved of
  such a step. No arm raises it. -/
  | notModelled (mnemonic : String)
  deriving DecidableEq, Repr

/-- The state of the block and of its two channels. -/
structure State where
  /-- the ROM tables and parameters (R23 to R27, R35); no step writes them (R28). -/
  rom : Rom
  /-- the request channel (R30): the head is the transaction in flight, the rest are those the requesters present
  after it (R21, R263). The block itself keeps no queue (R29): it reads the head alone (log entry 2). -/
  requests : List Request
  /-- the response channel's record, oldest first: what R35 calls a list of the responses kept outside the block
  (log entry 2). Nothing the block computes reads it. -/
  responses : List Response
  deriving DecidableEq, Repr

/-- Right after reset: the tables as given and no transaction in flight (R34, R280). -/
def State.reset : State := { rom := standardRom, requests := [], responses := [] }

end Sys2Proof.Machine
end

