-- ==== Sys2Proof/Machine/Operands.lean ====
section
/-!
DEFINITION. Reading and writing byte strings (spec/00_scope.md R11, R12; spec/20_memory.md R42 to R44), bit ranges
(R10, R125), and the operand checks and masks the operations share (spec/44_build.md R190).
-/

namespace Sys2Proof.Machine

/-! ### Byte order -/

/-- `b[i]` of a byte string; 0 past its end, which no operation reads (R48). -/
def byteAt (b : List Byte) (i : Nat) : Byte := b.getD i 0

/-- Two bytes, the least significant first, as a number: `le16` of R12. -/
def le16 (b0 b1 : Byte) : U16 := b1 ++ b0

/-- Four bytes, the least significant first, as a number: `le32` of R12. -/
def le32 (b0 b1 b2 b3 : Byte) : U32 := b3 ++ b2 ++ b1 ++ b0

/-- Four bytes, the most significant first, as a number: `be32` of R12. -/
def be32 (b0 b1 b2 b3 : Byte) : U32 := b0 ++ b1 ++ b2 ++ b3

/-- Byte `i` of a 16-bit number, byte 0 the least significant. -/
def byteOf16 (v : U16) (i : Nat) : Byte := v.extractLsb' (8 * i) 8

/-- Byte `i` of a 32-bit number, byte 0 the least significant. -/
def byteOf32 (v : U32) (i : Nat) : Byte := v.extractLsb' (8 * i) 8

/-- `LE32(v)` (R12). -/
def toLE32 (v : U32) : Bytes4 := ⟨byteOf32 v 0, byteOf32 v 1, byteOf32 v 2, byteOf32 v 3⟩

/-- `BE32(v)` (R12). -/
def toBE32 (v : U32) : List Byte := [byteOf32 v 3, byteOf32 v 2, byteOf32 v 1, byteOf32 v 0]

/-- The eight bytes of a payload as a byte string. -/
def payloadBytes (p : Bytes8) : List Byte := [p.b0, p.b1, p.b2, p.b3, p.b4, p.b5, p.b6, p.b7]

/-- The eight bytes of a byte string from an offset: `data[i:i+8]` (R11). -/
def payloadAt (b : List Byte) (i : Nat) : Bytes8 :=
  ⟨byteAt b i, byteAt b (i + 1), byteAt b (i + 2), byteAt b (i + 3), byteAt b (i + 4), byteAt b (i + 5),
    byteAt b (i + 6), byteAt b (i + 7)⟩

/-- Eight zero bytes (R65). -/
def zeroPayload : Bytes8 := ⟨0, 0, 0, 0, 0, 0, 0, 0⟩

/-! ### Bit ranges -/

/-- `v[hi:lo]`, bits lo..hi inclusive, by DOC's mask and shift (R10, R125). -/
def bitRange (v : U32) (lo hi : Nat) : U32 :=
  (v &&& BitVec.ofNat 32 ((2 ^ (hi - lo + 1) - 1) * 2 ^ lo)) >>> lo

/-- `v[b:b] = 1` (R126). -/
def bitIsSet (v : U32) (b : Nat) : Bool := bitRange v b b == 1

/-- aux_field as a 32-bit value, for `bitRange` (R15, R126). -/
def auxWord (aux : U16) : U32 := aux.setWidth 32

/-! ### Operand checks -/

/-- target_id becomes node_id and must be at most 255 (R190(c)). -/
def checkTarget (targetId : U32) : Except Failure U8 :=
  if 255 < targetId.toNat then .error .fieldRange else .ok (targetId.setWidth 8)

/-- `host_id & 0xFF` in an aux field, of an operand of `HOST_ID_W` bits (R190(b)). -/
def maskHost (rom : Rom) (hostId : Nat) : U16 := BitVec.ofNat 16 (hostId % 2 ^ rom.hostIdW % 256)

end Sys2Proof.Machine
end

