-- ==== Sys2Proof/Machine/Flags.lean ====
section
/-!
DEFINITION. The named flags of the parsed responses (spec/45_parse.md R225, R226, R231, R233, R234) and the numeric
status codes (spec/60_exceptions.md R250, R251). The block has no status flag of its own (R22).
-/

namespace Sys2Proof.Machine

/-- The run phase of `aux_field[15:14]` (R225). -/
def runPhase (rom : Rom) (aux : U16) : RunPhase :=
  let n := bitRange (auxWord aux) 14 15
  if n = 0 then rom.parseConst.runPhase0
  else if n = 1 then rom.parseConst.runPhase1
  else if n = 2 then rom.parseConst.runPhase2
  else rom.parseConst.runPhase3

/-- The six mode-2 error flags, each true exactly when its bit of aux_field is 1 (R226, R236). -/
def statusFlags (rom : Rom) (aux : U16) : StatusFlags :=
  let map := rom.parseConst.statusFlagMap
  let v := auxWord aux
  { undervoltage := bitIsSet v map.undervoltage
    overcurrent := bitIsSet v map.overcurrent
    overheat := bitIsSet v map.overheat
    magnetic := bitIsSet v map.magnetic
    hall := bitIsSet v map.hall
    undefined := bitIsSet v map.undefined }

/-- `overload = (error_code[13:8] != 0)` (R234). -/
def overload (ec : U32) : Bool := bitRange ec 8 13 != 0

/-- The nine mode-21 fault flags of a nonzero error code (R233, R234). -/
def faultFlags (rom : Rom) (ec : U32) : FaultFlags :=
  let map := rom.parseConst.faultBitMap
  { phaseAOvercurrent := bitIsSet ec map.phaseAOvercurrent
    phaseBOvercurrent := bitIsSet ec map.phaseBOvercurrent
    phaseCOvercurrent := bitIsSet ec map.phaseCOvercurrent
    encoderUncalibrated := bitIsSet ec map.encoderUncalibrated
    overload := overload ec
    overvoltage := bitIsSet ec map.overvoltage
    undervoltage := bitIsSet ec map.undervoltage
    driverChip := bitIsSet ec map.driverChip
    motorOverheat := bitIsSet ec map.motorOverheat }

/-- `has_fault = (error_code != 0)` (R231). -/
def hasFault (ec : U32) : Bool := ec != 0

/-- fault_flags are populated only when has_fault; NONE otherwise (R231). -/
def faultFlagsIfAny (rom : Rom) (ec : U32) : Option FaultFlags :=
  if hasFault ec then some (faultFlags rom ec) else none

/-- The status code of a failure (R250). -/
def failureCode : Failure → U8
  | .wrongLength => 0x01
  | .badHeader => 0x02
  | .badLength => 0x03
  | .modeMismatch => 0x04
  | .unknownRegister => 0x05
  | .unsupportedMode => 0x06
  | .illegalOperation => 0x80
  | .fieldRange => 0x81
  | .notANumber => 0x82
  | .widthUnsupported => 0x83
  | .unrepresentable => 0x84
  | .badBitRange => 0x85
  | .badPayloadLength => 0x86
  | .badRange => 0x87

/-- The 8-bit status every response carries (R250): 0x00 is OK. -/
def statusCode : Response → U8
  | .ok _ => 0x00
  | .fail f => failureCode f

/-- The undefined-input class: codes 0x80 and above (R251). -/
def undefinedInput (f : Failure) : Bool := 0x80 ≤ (failureCode f).toNat

end Sys2Proof.Machine
end

