-- ==== Sys2Proof/Machine/Ops.lean ====
section
/-!
DEFINITION. The transaction itself (spec/10_state.md R30, R33, R35): what is in flight leaves the channel and exactly
one response enters the record. A failure's entry is the one shared operation `takeFailure` (spec/60_exceptions.md R252,
R255); there is no return from it, since nothing was entered (R256). The block has no memory and no register to read or
write (R20, R40).
-/

namespace Sys2Proof.Machine

/-- The request in flight, the one the block answers next (R30). -/
def inFlight (s : State) : Option Request := s.requests.head?

/-- The request in flight leaves the channel and its response enters the record; ROM is not written (R28, R30). -/
def answer (s : State) (r : Response) : State :=
  { s with requests := s.requests.tail, responses := s.responses ++ [r] }

/-- A transaction that succeeds: status OK and the whole result bundle (R14, R30). -/
def complete (s : State) (r : Result) : State := answer s (.ok r)

/-- Failure entry (R252, R255): the status and no result bundle; no state saved, no mode changed, no transfer of
control. -/
def takeFailure (s : State) (f : Failure) : State := answer s (.fail f)

/-- The end of a transaction: the outcome of the operation becomes the response (R14). -/
def conclude (s : State) : Except Failure Result → State
  | .ok r => complete s r
  | .error f => takeFailure s f

/-- Perform an operation on the operands of the request in flight; with no request in flight nothing happens (R30;
log entry 2). -/
def transact (s : State) (op : Operands → Except Failure Result) : Host.Outcome State Fault Refusal :=
  match inFlight s with
  | none => .next s
  | some a => .next (conclude s (op a.operands))

/-- The outcome of an operation, its value placed in the result bundle. -/
def placed {α : Type} (place : α → Result) : Except Failure α → Except Failure Result
  | .ok a => .ok (place a)
  | .error f => .error f

/-! ### What the outside does (R30, R282) -/

/-- A requester presents a request, after those already presented (R21, R263). -/
def present (s : State) (r : Request) : State := { s with requests := s.requests ++ [r] }

/-- Reset arrives: every request still pending gets no response (R282); the tables keep their contents (R280). -/
def applyReset (s : State) : State := { s with requests := [] }

end Sys2Proof.Machine
end

