-- ==== Sys2Proof/Machine/Identifier.lean ====
section
/-!
DEFINITION. The identifier packer and bit extraction (spec/41_identifier.md R120 to R126): PACK, UNPACK, XBITS.
-/

namespace Sys2Proof.Machine

/-- The identifier word of R120, its low 32 bits: `(mode << 24 | aux << 8 | node) << 3 | 0b100` with the positions and
the marker of IDCONST (R24). -/
def identifierWord (rom : Rom) (mode : U8) (aux : U16) (node : U8) : U32 :=
  let k := rom.idConst
  ((mode.setWidth 32 <<< k.modePos ||| aux.setWidth 32 <<< k.auxPos ||| node.setWidth 32 <<< k.nodePos) <<< k.markerW)
    ||| k.marker

/-- PACK (R120, R121). -/
def packId (rom : Rom) (mode : U8) (aux : U16) (node : U8) : Except Failure U32 :=
  match rom.packOverflow with
  | .fault => if 31 < mode.toNat then .error .fieldRange else .ok (identifierWord rom mode aux node)
  | .truncate => .ok (identifierWord rom mode aux node)

/-- `can` of R122: the marker bits are discarded and not checked (R123). -/
def canOf (rom : Rom) (identifier : U32) : U32 := identifier >>> rom.idConst.markerW

/-- command_mode of UNPACK (R122). -/
def unpackMode (rom : Rom) (identifier : U32) : U8 := (canOf rom identifier >>> rom.idConst.modePos).setWidth 8

/-- aux_field of UNPACK (R122). -/
def unpackAux (rom : Rom) (identifier : U32) : U16 := (canOf rom identifier >>> rom.idConst.auxPos).setWidth 16

/-- node_id of UNPACK (R122). -/
def unpackNode (rom : Rom) (identifier : U32) : U8 := (canOf rom identifier >>> rom.idConst.nodePos).setWidth 8

/-- XBITS with its check (R125). -/
def extractBits (value : U32) (lo hi : U8) : Except Failure U32 :=
  if lo.toNat ≤ hi.toNat ∧ hi.toNat ≤ 31 then .ok (bitRange value lo.toNat hi.toNat) else .error .badBitRange

/-- PACK (R120). -/
def execPack (s : State) : Host.Outcome State Fault Refusal :=
  transact s fun o => placed .identifier (packId s.rom o.commandMode o.auxField o.nodeId)

/-- UNPACK (R122): every u32 is admitted. -/
def execUnpack (s : State) : Host.Outcome State Fault Refusal :=
  transact s fun o =>
    .ok (.fields (unpackMode s.rom o.identifier) (unpackAux s.rom o.identifier) (unpackNode s.rom o.identifier))

/-- XBITS (R125). -/
def execXbits (s : State) : Host.Outcome State Fault Refusal :=
  transact s fun o => placed .bits (extractBits o.bits o.bitLo o.bitHi)

end Sys2Proof.Machine
end

