-- ==== Sys2Proof/Machine/Framer.lean ====
section
/-!
DEFINITION. The ASCII framer (spec/42_frame.md R140 to R145): WRAP, UNWRAP.
-/

namespace Sys2Proof.Machine

/-- A payload padded with zero bytes at its end to the payload length (R65, R140). -/
def padPayload (rom : Rom) (p : List Byte) : List Byte :=
  p ++ List.replicate (rom.frameConst.payloadLen - p.length) 0

/-- The frame of R63 around an identifier word and a padded payload. -/
def frameBytes (rom : Rom) (id : U32) (pl : List Byte) : List Byte :=
  let k := rom.frameConst
  [k.hdr0, k.hdr1] ++ toBE32 id ++ [k.lenByte] ++ pl ++ [k.term0, k.term1]

/-- WRAP (R140): the identifier is checked before the payload. -/
def wrapFrame (rom : Rom) (mode : U8) (aux : U16) (node : U8) (p : List Byte) : Except Failure (List Byte) := do
  let id ← packId rom mode aux node
  if rom.frameConst.payloadLen < p.length then .error .badPayloadLength
  else .ok (frameBytes rom id (padPayload rom p))

/-- The header and the terminator are those of FRAMECONST (R141). -/
def headerOk (rom : Rom) (data : List Byte) : Bool :=
  let k := rom.frameConst
  byteAt data 0 == k.hdr0 && byteAt data 1 == k.hdr1 && byteAt data 15 == k.term0 && byteAt data 16 == k.term1

/-- The identifier word at frame bytes 2..5 (R42). -/
def frameId (data : List Byte) : U32 := be32 (byteAt data 2) (byteAt data 3) (byteAt data 4) (byteAt data 5)

/-- The RawMessage a frame carries: UNPACK of its identifier, and `data[7:15]` (R141). -/
def frameMessage (rom : Rom) (data : List Byte) : RawMessage :=
  { commandMode := unpackMode rom (frameId data)
    auxField := unpackAux rom (frameId data)
    nodeId := unpackNode rom (frameId data)
    payload := payloadAt data 7 }

/-- UNWRAP (R141), the checks in the order of R142. -/
def unwrapFrame (rom : Rom) (data : List Byte) : Except Failure RawMessage :=
  if data.length ≠ rom.frameConst.frameLen then .error .wrongLength
  else if !headerOk rom data then .error .badHeader
  else if byteAt data 6 ≠ rom.frameConst.lenByte then .error .badLength
  else .ok (frameMessage rom data)

/-- WRAP (R140). -/
def execWrap (s : State) : Host.Outcome State Fault Refusal :=
  transact s fun o => placed .frame (wrapFrame s.rom o.commandMode o.auxField o.nodeId o.wrapPayload)

/-- UNWRAP (R141). -/
def execUnwrap (s : State) : Host.Outcome State Fault Refusal :=
  transact s fun o => placed .message (unwrapFrame s.rom o.data)

end Sys2Proof.Machine
end

