-- ==== Sys2Proof/Machine/Float.lean ====
section
/-!
DEFINITION. The IEEE-754 primitives of spec/00_scope.md R13 on bit patterns: binary64 arithmetic rounded to nearest,
ties to even, the conversions to and from binary32, comparison and floor. Every finite binary64 is an integer number of
units of `2^-1074` and every finite binary32 one of units of `2^-149`, so each operation is computed exactly on integers
and rounded once (log entry 10).
-/

namespace Sys2Proof.Machine

/-! ### Rounding -/

/-- `n / d` rounded to an integer, to nearest, ties to even (R13). -/
def roundEven (n d : Nat) : Nat :=
  let q := n / d
  let r := n % d
  if 2 * r < d then q
  else if d < 2 * r then q + 1
  else q + q % 2

/-- The magnitude bits of the value nearest to `n / d` units in the format with `fracBits` fraction bits, before the
largest finite value is taken into account: with `e` the exponent step above the subnormal spacing, the value is
`roundEven (n / (d * 2^e))` spacings of `2^e` units, and its bits are `e * 2^fracBits` plus that number. -/
def roundMag (fracBits n d : Nat) : Nat :=
  let e := Nat.log2 (n / d) - fracBits
  e * 2 ^ fracBits + roundEven n (d * 2 ^ e)

/-- The magnitude in units of a finite value's magnitude bits (R13; the bit layout is G3's). -/
def magUnits (fracBits mag : Nat) : Nat :=
  if mag < 2 ^ fracBits then mag
  else (2 ^ fracBits + mag % 2 ^ fracBits) * 2 ^ (mag / 2 ^ fracBits - 1)

/-! ### binary64 -/

/-- The magnitude bits of the binary64 infinity. -/
def infMag64 : Nat := 0x7FF0000000000000

/-- The number 1 in binary64 units: `2^1074`. -/
def one64 : Nat := 2 ^ 1074

/-- The binary64 with a sign and magnitude bits. -/
def f64Of (neg : Bool) (mag : Nat) : F64 := BitVec.ofNat 64 (if neg then 2 ^ 63 + mag else mag)

/-- The sign bit. -/
def f64Neg (x : F64) : Bool := x.msb

/-- The magnitude bits, 62..0. -/
def f64Mag (x : F64) : Nat := x.toNat % 2 ^ 63

/-- `isNaN` (R13). -/
def isNaN (x : F64) : Bool := infMag64 < f64Mag x

/-- An infinity of either sign. -/
def isInf (x : F64) : Bool := f64Mag x == infMag64

/-- Neither a NaN nor an infinity. -/
def isFinite (x : F64) : Bool := f64Mag x < infMag64

/-- The signed number of units of a finite binary64. -/
def f64Units (x : F64) : Int :=
  if f64Neg x then -(magUnits 52 (f64Mag x) : Int) else (magUnits 52 (f64Mag x) : Int)

/-- The exact value of a finite binary64 (R108). -/
def f64Rat (x : F64) : Rat := mkRat (f64Units x) one64

/-- The binary64 nearest to `n / d` units with that sign; a value that rounds past the largest finite one is the
infinity (R13). -/
def round64 (neg : Bool) (n d : Nat) : F64 := f64Of neg (min (roundMag 52 n d) infMag64)

/-- A NaN with these bits. -/
def nan64 (b : NanBits64) : F64 := f64Of b.1 (infMag64 + (b.2.val + 1))

/-- The value with its sign reversed. -/
def f64Negate (x : F64) : F64 := f64Of (!f64Neg x) (f64Mag x)

/-- The sum of two finite values, exact then rounded; a zero sum of a positive and a negative value is +0. -/
def addFinite (x y : F64) : F64 :=
  let u := f64Units x + f64Units y
  if u = 0 then f64Of (f64Neg x && f64Neg y) 0 else round64 (u < 0) u.natAbs 1

/-- The sum of two values that are no NaN; opposite infinities have none. -/
def addNonNaN (op : FloatOp) (x y : F64) : F64 :=
  if isInf x then
    if isInf y && f64Neg x != f64Neg y then nan64 (Config.nanOfOp op x y) else x
  else if isInf y then y
  else addFinite x y

/-- `x +64 y` (R13). -/
def f64Add (x y : F64) : F64 :=
  if isNaN x || isNaN y then nan64 (Config.nanOfOp .add x y) else addNonNaN .add x y

/-- `x -64 y` (R13). -/
def f64Sub (x y : F64) : F64 :=
  if isNaN x || isNaN y then nan64 (Config.nanOfOp .sub x y) else addNonNaN .sub x (f64Negate y)

/-- `x *64 y` (R13). -/
def f64Mul (x y : F64) : F64 :=
  let neg := f64Neg x != f64Neg y
  if isNaN x || isNaN y then nan64 (Config.nanOfOp .mul x y)
  else if isInf x then
    if f64Mag y = 0 then nan64 (Config.nanOfOp .mul x y) else f64Of neg infMag64
  else if isInf y then
    if f64Mag x = 0 then nan64 (Config.nanOfOp .mul x y) else f64Of neg infMag64
  else round64 neg (magUnits 52 (f64Mag x) * magUnits 52 (f64Mag y)) one64

/-- `x /64 y` (R13). -/
def f64Div (x y : F64) : F64 :=
  let neg := f64Neg x != f64Neg y
  if isNaN x || isNaN y then nan64 (Config.nanOfOp .div x y)
  else if isInf x then
    if isInf y then nan64 (Config.nanOfOp .div x y) else f64Of neg infMag64
  else if isInf y then f64Of neg 0
  else if f64Mag y = 0 then
    if f64Mag x = 0 then nan64 (Config.nanOfOp .div x y) else f64Of neg infMag64
  else round64 neg (magUnits 52 (f64Mag x) * one64) (magUnits 52 (f64Mag y))

/-- The order of two values that are no NaN, as integers: the magnitude bits, negated for a negative value; both zeros
are 0. -/
def f64Key (x : F64) : Int := if f64Neg x then -(f64Mag x : Int) else (f64Mag x : Int)

/-- `x < y` (R13): false where either is a NaN. -/
def f64Lt (x y : F64) : Bool := !isNaN x && !isNaN y && f64Key x < f64Key y

/-- `x ≤ y`: false where either is a NaN. -/
def f64Le (x y : F64) : Bool := !isNaN x && !isNaN y && f64Key x ≤ f64Key y

/-- `floor(x)` of a finite value (R13): the greatest integer not above it. -/
def f64Floor (x : F64) : Int := f64Units x / (one64 : Int)

/-- A finite value that is an integer. -/
def f64IsInteger (x : F64) : Bool := isFinite x && f64Units x % (one64 : Int) == 0

/-- A natural number as a binary64; exact below `2^53`. -/
def f64OfNat (n : Nat) : F64 := round64 false (n * one64) 1

/-! ### binary32 -/

/-- The magnitude bits of the binary32 infinity. -/
def infMag32 : Nat := 0x7F800000

/-- One binary32 unit, `2^-149`, in binary64 units: `2^925`. -/
def unit32 : Nat := 2 ^ 925

/-- The binary32 with a sign and magnitude bits. -/
def f32Of (neg : Bool) (mag : Nat) : F32 := BitVec.ofNat 32 (if neg then 2 ^ 31 + mag else mag)

/-- The sign bit. -/
def f32Neg (y : F32) : Bool := y.msb

/-- The magnitude bits, 30..0. -/
def f32Mag (y : F32) : Nat := y.toNat % 2 ^ 31

/-- A binary32 NaN pattern. -/
def isNaN32 (y : F32) : Bool := infMag32 < f32Mag y

/-- A binary32 infinity. -/
def isInf32 (y : F32) : Bool := f32Mag y == infMag32

/-- A NaN with these bits. -/
def nan32 (b : NanBits32) : F32 := f32Of b.1 (infMag32 + (b.2.val + 1))

/-- `toF32(x)` (R13): binary64 to binary32, to nearest, ties to even. -/
def toF32 (x : F64) : F32 :=
  if isNaN x then nan32 (Config.nanOfNarrow x)
  else if isInf x then f32Of (f64Neg x) infMag32
  else f32Of (f64Neg x) (min (roundMag 23 (magUnits 52 (f64Mag x)) unit32) infMag32)

/-- `fromF32(y)` (R13): the exact widening; a NaN pattern gives some NaN (R171). -/
def fromF32 (y : F32) : F64 :=
  if isNaN32 y then nan64 (Config.nanOfPattern y)
  else if isInf32 y then f64Of (f32Neg y) infMag64
  else round64 (f32Neg y) (magUnits 23 (f32Mag y) * unit32) 1

end Sys2Proof.Machine
end

