-- ==== Sys2Proof/Machine/Quantizer.lean ====
section
/-!
DEFINITION. The fixed-point quantizer (spec/40_quantizer.md R100 to R109): QENC, QDEC, QTEMP.
-/

namespace Sys2Proof.Machine

/-- `M(w) = 2^(8*w) - 1` (R100). -/
def maxCode (w : Nat) : Nat := 2 ^ (8 * w) - 1

/-- A range the quantizer refuses (R101): a bound that is NaN or infinite, or `lo ≥ hi`. -/
def badRange (lo hi : F64) : Bool := !isFinite lo || !isFinite hi || !f64Lt lo hi

/-- The first two checks of R101, in its order. -/
def checkWidthRange (rom : Rom) (w : Nat) (lo hi : F64) : Except Failure Unit :=
  if !rom.qwidths.contains w then .error .widthUnsupported
  else if badRange lo hi then .error .badRange
  else .ok ()

/-- The value brought into the range (R102, R258). -/
def clamp (value lo hi : F64) : F64 :=
  if f64Lt value lo then lo else if f64Lt hi value then hi else value

/-- `p` of R102: `((c -64 lo) /64 (hi -64 lo)) *64 M`, each operation rounded. -/
def encodeProduct (w : Nat) (value lo hi : F64) : F64 :=
  f64Mul (f64Div (f64Sub (clamp value lo hi) lo) (f64Sub hi lo)) (f64OfNat (maxCode w))

/-- The free code of a clamped value where `p` of R102 is no number: the number of thresholds it reaches, so at most
`M(w)` and non-decreasing in the value, as R104 says (log entry 9). -/
def freeCode (w : Nat) (c lo hi : F64) : Nat :=
  (List.range (maxCode w)).countP fun k => f64Le (Config.codeThreshold w lo hi k) c

/-- `floor(p)` (R102). Where `p` is no number (`c -64 lo` and `hi -64 lo` overflow) a value at or above `hi` gives
`M(w)`, as R102's corner cases say, and any other a free code (log entry 9). -/
def encodeBinary64 (w : Nat) (value lo hi : F64) : Nat :=
  let p := encodeProduct w value lo hi
  if isFinite p then (f64Floor p).toNat
  else if f64Le hi value then maxCode w
  else freeCode w (clamp value lo hi) lo hi

/-- R102 in exact real arithmetic (R108): `floor((c - lo) * M / (hi - lo))`. -/
def encodeExact (w : Nat) (value lo hi : F64) : Nat :=
  ((f64Units (clamp value lo hi) - f64Units lo) * (maxCode w : Int) / (f64Units hi - f64Units lo)).toNat

/-- QENC (R101, R102, R108). -/
def quantEncode (rom : Rom) (w : Nat) (value lo hi : F64) : Except Failure Nat := do
  checkWidthRange rom w lo hi
  if isNaN value then .error .notANumber
  else
    match rom.quantArith with
    | .binary64 => .ok (encodeBinary64 w value lo hi)
    | .exactReal => .ok (encodeExact w value lo hi)

/-- R103 in binary64: `((raw /64 M) *64 (hi -64 lo)) +64 lo`. -/
def decodeBinary64 (w raw : Nat) (lo hi : F64) : F64 :=
  f64Add (f64Mul (f64Div (f64OfNat raw) (f64OfNat (maxCode w))) (f64Sub hi lo)) lo

/-- R103 in exact real arithmetic (R108). -/
def decodeExact (w raw : Nat) (lo hi : F64) : Rat :=
  mkRat raw (maxCode w) * (f64Rat hi - f64Rat lo) + f64Rat lo

/-- QDEC (R101, R103, R108). -/
def quantDecode (rom : Rom) (w raw : Nat) (lo hi : F64) : Except Failure Quantity := do
  checkWidthRange rom w lo hi
  if maxCode w < raw then .error .fieldRange
  else
    match rom.quantArith with
    | .binary64 => .ok (.num (decodeBinary64 w raw lo hi))
    | .exactReal => .ok (.exact (decodeExact w raw lo hi))

/-- QTEMP (R106): `raw /64 TEMP_DIV`. -/
def temperature (rom : Rom) (raw : U16) : F64 := f64Div (f64OfNat raw.toNat) rom.tempDiv

/-- QENC over a ROM range with w = 2 (R109). -/
def encodeOver (rom : Rom) (range : Range) (value : F64) : Except Failure U16 := do
  let raw ← quantEncode rom 2 value range.lo range.hi
  .ok (BitVec.ofNat 16 raw)

/-- QDEC over a ROM range with w = 2 (R109). -/
def decodeOver (rom : Rom) (range : Range) (raw : U16) : Except Failure Quantity :=
  quantDecode rom 2 raw.toNat range.lo range.hi

/-- QENC.1 (R102). -/
def execQenc1 (s : State) : Host.Outcome State Fault Refusal :=
  transact s fun o => placed (fun raw => .raw8 (BitVec.ofNat 8 raw)) (quantEncode s.rom 1 o.value o.lo o.hi)

/-- QENC.2 (R102). -/
def execQenc2 (s : State) : Host.Outcome State Fault Refusal :=
  transact s fun o => placed (fun raw => .raw16 (BitVec.ofNat 16 raw)) (quantEncode s.rom 2 o.value o.lo o.hi)

/-- QDEC.1 (R103). -/
def execQdec1 (s : State) : Host.Outcome State Fault Refusal :=
  transact s fun o => placed .quantity (quantDecode s.rom 1 o.raw.toNat o.lo o.hi)

/-- QDEC.2 (R103). -/
def execQdec2 (s : State) : Host.Outcome State Fault Refusal :=
  transact s fun o => placed .quantity (quantDecode s.rom 2 o.raw.toNat o.lo o.hi)

/-- QENC of a width that `QWIDTHS` admits and the table has no row for (R83, R102). -/
def execQencWidth (w : U8) (s : State) : Host.Outcome State Fault Refusal :=
  transact s fun o => placed (.raw w.toNat) (quantEncode s.rom w.toNat o.value o.lo o.hi)

/-- QDEC of a width that `QWIDTHS` admits and the table has no row for (R83, R103). -/
def execQdecWidth (w : U8) (s : State) : Host.Outcome State Fault Refusal :=
  transact s fun o => placed .quantity (quantDecode s.rom w.toNat o.raw.toNat o.lo o.hi)

/-- QTEMP (R106): every u16 is admitted. -/
def execQtemp (s : State) : Host.Outcome State Fault Refusal :=
  transact s fun o => .ok (.temperature (temperature s.rom o.rawTemp))

end Sys2Proof.Machine
end

