-- ==== Sys2Proof/Machine/Register.lean ====
section
/-!
DEFINITION. The register transcoder (spec/43_register.md R160 to R173): RLOOK, RLOOKN, RENC, RDEC.
-/

namespace Sys2Proof.Machine

/-- RLOOK (R163): the entry with that index. -/
def lookupIndex (rom : Rom) (index : U16) : Except Failure RegEntry :=
  match rom.regcat.find? (fun e => e.index == index) with
  | some e => .ok e
  | none => .error .unknownRegister

/-- RLOOKN (R164): the entry with exactly that name. -/
def lookupName (rom : Rom) (name : String) : Except Failure RegEntry :=
  match rom.regcat.find? (fun e => e.name == name) with
  | some e => .ok e
  | none => .error .unknownRegister

/-- The integer of a value that is an integer in `0..top` (R166, R168). -/
def smallInteger (top : Nat) (value : F64) : Except Failure Nat :=
  if isNaN value then .error .notANumber
  else if f64IsInteger value ∧ 0 ≤ f64Floor value ∧ f64Floor value ≤ top then .ok (f64Floor value).toNat
  else .error .unrepresentable

/-- RENC for kind U8PAD (R166). -/
def encodeU8Pad (value : F64) : Except Failure Bytes4 := do
  let n ← smallInteger 255 value
  .ok ⟨BitVec.ofNat 8 n, 0, 0, 0⟩

/-- RENC for kind U16PAD (R168). -/
def encodeU16Pad (value : F64) : Except Failure Bytes4 := do
  let n ← smallInteger 65535 value
  .ok ⟨byteOf16 (BitVec.ofNat 16 n) 0, byteOf16 (BitVec.ofNat 16 n) 1, 0, 0⟩

/-- RENC for kind F32LE (R167). -/
def encodeF32 (value : F64) : Except Failure Bytes4 :=
  if isNaN value then .error .notANumber
  else if isInf32 (toF32 value) && isFinite value then .error .unrepresentable
  else .ok (toLE32 (toF32 value))

/-- The encode function a kind selects (R165). -/
def encodeKind (kind : RegKind) (value : F64) : Except Failure Bytes4 :=
  match kind with
  | .u8pad => encodeU8Pad value
  | .f32le => encodeF32 value
  | .u16pad => encodeU16Pad value

/-- RENC (R165). -/
def regEncode (rom : Rom) (index : U16) (value : F64) : Except Failure Bytes4 := do
  let e ← lookupIndex rom index
  encodeKind e.kind value

/-- RDEC for kind U8PAD (R170): byte 0 alone. -/
def decodeU8Pad (f : Bytes4) : F64 := f64OfNat f.b0.toNat

/-- RDEC for kind F32LE (R171). -/
def decodeF32 (f : Bytes4) : F64 := fromF32 (le32 f.b0 f.b1 f.b2 f.b3)

/-- RDEC for kind U16PAD (R172): bytes 0 and 1 alone. -/
def decodeU16Pad (f : Bytes4) : F64 := f64OfNat (le16 f.b0 f.b1).toNat

/-- The decode function a kind selects (R169). -/
def decodeKind (kind : RegKind) (f : Bytes4) : F64 :=
  match kind with
  | .u8pad => decodeU8Pad f
  | .f32le => decodeF32 f
  | .u16pad => decodeU16Pad f

/-- RDEC (R169): once the entry exists nothing fails. -/
def regDecode (rom : Rom) (index : U16) (f : Bytes4) : Except Failure F64 := do
  let e ← lookupIndex rom index
  .ok (decodeKind e.kind f)

/-- RLOOK (R163). -/
def execRlook (s : State) : Host.Outcome State Fault Refusal :=
  transact s fun o => placed .entry (lookupIndex s.rom o.index)

/-- RLOOKN (R164). -/
def execRlookn (s : State) : Host.Outcome State Fault Refusal :=
  transact s fun o => placed .entry (lookupName s.rom o.name)

/-- RENC (R165). -/
def execRenc (s : State) : Host.Outcome State Fault Refusal :=
  transact s fun o => placed .regField (regEncode s.rom o.index o.value)

/-- RDEC (R169). -/
def execRdec (s : State) : Host.Outcome State Fault Refusal :=
  transact s fun o => placed .regValue (regDecode s.rom o.index o.field)

end Sys2Proof.Machine
end

