-- ==== Sys2Proof/Machine/Build.lean ====
section
/-!
DEFINITION. The request builders and the transmit composites (spec/44_build.md R190 to R200; layouts
spec/30_encoding.md R66 to R73): BUILD.m, TX.m. Each builder checks target_id first (R190(e)).
-/

namespace Sys2Proof.Machine

/-- The payload with one leading byte and seven zero bytes (R65). -/
def leadPayload (b : Byte) : Bytes8 := ⟨b, 0, 0, 0, 0, 0, 0, 0⟩

/-- A request of a mode whose aux_field is the masked host id (R190, R66, R68 to R70, R72, R73). -/
def hostMessage (rom : Rom) (mode : U8) (node : U8) (hostId : Nat) (payload : Bytes8) : RawMessage :=
  { commandMode := mode, auxField := maskHost rom hostId, nodeId := node, payload := payload }

/-- `(new_target_id & 0xFF) << 8 | (host_id & 0xFF)` (R71, R196). -/
def setIdAux (rom : Rom) (newTargetId hostId : Nat) : U16 :=
  (maskHost rom newTargetId <<< 8) ||| maskHost rom hostId

/-- The little-endian u16 quadruple of the mode-1 payload (R67). -/
def controlPayload (a sp p d : U16) : Bytes8 :=
  ⟨byteOf16 a 0, byteOf16 a 1, byteOf16 sp 0, byteOf16 sp 1, byteOf16 p 0, byteOf16 p 1, byteOf16 d 0, byteOf16 d 1⟩

/-- `LE16(index)` and six zero bytes (R72). -/
def readPayload (index : U16) : Bytes8 := ⟨byteOf16 index 0, byteOf16 index 1, 0, 0, 0, 0, 0, 0⟩

/-- `LE16(index)`, two zero bytes and the register's value field (R73). -/
def writePayload (index : U16) (f : Bytes4) : Bytes8 :=
  ⟨byteOf16 index 0, byteOf16 index 1, 0, 0, f.b0, f.b1, f.b2, f.b3⟩

/-- The payload of a ControlCommand: angle, speed, kp and kd encoded over their ranges, checked in that order
(R192). -/
def controlEncode (rom : Rom) (o : Operands) : Except Failure Bytes8 := do
  let a ← encodeOver rom rom.pRange o.angle
  let sp ← encodeOver rom rom.vRange o.speed
  let p ← encodeOver rom rom.kpRange o.kp
  let d ← encodeOver rom rom.kdRange o.kd
  .ok (controlPayload a sp p d)

/-- BUILD.0 IdQuery (R191). -/
def buildIdQuery (rom : Rom) (o : Operands) : Except Failure RawMessage := do
  let node ← checkTarget o.targetId
  .ok (hostMessage rom 0 node o.hostId zeroPayload)

/-- BUILD.1 ControlCommand (R192): torque is encoded before the payload's values. -/
def buildControl (rom : Rom) (o : Operands) : Except Failure RawMessage := do
  let node ← checkTarget o.targetId
  let t ← encodeOver rom rom.tRange o.torque
  let pl ← controlEncode rom o
  .ok { commandMode := 1, auxField := t, nodeId := node, payload := pl }

/-- BUILD.3 Enable (R193). -/
def buildEnable (rom : Rom) (o : Operands) : Except Failure RawMessage := do
  let node ← checkTarget o.targetId
  .ok (hostMessage rom 3 node o.hostId zeroPayload)

/-- BUILD.4 Disable (R194). -/
def buildDisable (rom : Rom) (o : Operands) : Except Failure RawMessage := do
  let node ← checkTarget o.targetId
  .ok (hostMessage rom 4 node o.hostId (leadPayload (if o.faultClear then 1 else 0)))

/-- BUILD.6 SetZero (R195): payload byte 0 is the fixed marker 01. -/
def buildSetZero (rom : Rom) (o : Operands) : Except Failure RawMessage := do
  let node ← checkTarget o.targetId
  .ok (hostMessage rom 6 node o.hostId (leadPayload 1))

/-- BUILD.7 SetId (R196). -/
def buildSetId (rom : Rom) (o : Operands) : Except Failure RawMessage := do
  let node ← checkTarget o.targetId
  .ok { commandMode := 7, auxField := setIdAux rom o.newTargetId o.hostId, nodeId := node, payload := zeroPayload }

/-- BUILD.17 ReadParam (R197). -/
def buildReadParam (rom : Rom) (o : Operands) : Except Failure RawMessage := do
  let node ← checkTarget o.targetId
  let e ← lookupIndex rom o.index
  .ok (hostMessage rom 17 node o.hostId (readPayload e.index))

/-- BUILD.18 WriteParam (R198). -/
def buildWriteParam (rom : Rom) (o : Operands) : Except Failure RawMessage := do
  let node ← checkTarget o.targetId
  let f ← regEncode rom o.index o.value
  .ok (hostMessage rom 18 node o.hostId (writePayload o.index f))

/-- WRAP of a built message, or the builder's failure (R200, R254). -/
def wrapBuilt (rom : Rom) (built : Except Failure RawMessage) : Except Failure (List Byte) := do
  let m ← built
  wrapFrame rom m.commandMode m.auxField m.nodeId (payloadBytes m.payload)

/-- BUILD.0 (R191). -/
def execBuild0 (s : State) : Host.Outcome State Fault Refusal :=
  transact s fun o => placed .message (buildIdQuery s.rom o)

/-- BUILD.1 (R192). -/
def execBuild1 (s : State) : Host.Outcome State Fault Refusal :=
  transact s fun o => placed .message (buildControl s.rom o)

/-- BUILD.3 (R193). -/
def execBuild3 (s : State) : Host.Outcome State Fault Refusal :=
  transact s fun o => placed .message (buildEnable s.rom o)

/-- BUILD.4 (R194). -/
def execBuild4 (s : State) : Host.Outcome State Fault Refusal :=
  transact s fun o => placed .message (buildDisable s.rom o)

/-- BUILD.6 (R195). -/
def execBuild6 (s : State) : Host.Outcome State Fault Refusal :=
  transact s fun o => placed .message (buildSetZero s.rom o)

/-- BUILD.7 (R196). -/
def execBuild7 (s : State) : Host.Outcome State Fault Refusal :=
  transact s fun o => placed .message (buildSetId s.rom o)

/-- BUILD.17 (R197). -/
def execBuild17 (s : State) : Host.Outcome State Fault Refusal :=
  transact s fun o => placed .message (buildReadParam s.rom o)

/-- BUILD.18 (R198). -/
def execBuild18 (s : State) : Host.Outcome State Fault Refusal :=
  transact s fun o => placed .message (buildWriteParam s.rom o)

/-- TX.0 (R200). -/
def execTx0 (s : State) : Host.Outcome State Fault Refusal :=
  transact s fun o => placed .frame (wrapBuilt s.rom (buildIdQuery s.rom o))

/-- TX.1 (R200). -/
def execTx1 (s : State) : Host.Outcome State Fault Refusal :=
  transact s fun o => placed .frame (wrapBuilt s.rom (buildControl s.rom o))

/-- TX.3 (R200). -/
def execTx3 (s : State) : Host.Outcome State Fault Refusal :=
  transact s fun o => placed .frame (wrapBuilt s.rom (buildEnable s.rom o))

/-- TX.4 (R200). -/
def execTx4 (s : State) : Host.Outcome State Fault Refusal :=
  transact s fun o => placed .frame (wrapBuilt s.rom (buildDisable s.rom o))

/-- TX.6 (R200). -/
def execTx6 (s : State) : Host.Outcome State Fault Refusal :=
  transact s fun o => placed .frame (wrapBuilt s.rom (buildSetZero s.rom o))

/-- TX.7 (R200). -/
def execTx7 (s : State) : Host.Outcome State Fault Refusal :=
  transact s fun o => placed .frame (wrapBuilt s.rom (buildSetId s.rom o))

/-- TX.17 (R200). -/
def execTx17 (s : State) : Host.Outcome State Fault Refusal :=
  transact s fun o => placed .frame (wrapBuilt s.rom (buildReadParam s.rom o))

/-- TX.18 (R200). -/
def execTx18 (s : State) : Host.Outcome State Fault Refusal :=
  transact s fun o => placed .frame (wrapBuilt s.rom (buildWriteParam s.rom o))

end Sys2Proof.Machine
end

