-- ==== Sys2Proof/Machine/Parse.lean ====
section
/-!
DEFINITION. The response parsers and the receive composite (spec/45_parse.md R220 to R236; layouts spec/30_encoding.md
R74 to R77): PARSE, RX.
-/

namespace Sys2Proof.Machine

/-- `aux_field[7:0]`, the target id of a response (R224, R229, R232). -/
def auxTarget (aux : U16) : U8 := (bitRange (auxWord aux) 0 7).setWidth 8

/-- PARSE mode 0 (R222). -/
def parseId (rom : Rom) (m : RawMessage) : Except Failure IdResponse :=
  if m.nodeId ≠ rom.parseConst.idSentinel then .error .modeMismatch
  else .ok { id := m.auxField, mcuUid := m.payload }

/-- PARSE mode 2 (R223 to R228). -/
def parseStatus (rom : Rom) (m : RawMessage) : Except Failure StatusResponse := do
  let angle ← decodeOver rom rom.pRange (le16 m.payload.b0 m.payload.b1)
  let speed ← decodeOver rom rom.vRange (le16 m.payload.b2 m.payload.b3)
  let torque ← decodeOver rom rom.tRange (le16 m.payload.b4 m.payload.b5)
  .ok
    { hostId := m.nodeId
      targetId := auxTarget m.auxField
      runPhase := runPhase rom m.auxField
      errorFlags := statusFlags rom m.auxField
      angle := angle
      speed := speed
      torque := torque
      temperatureC := temperature rom (le16 m.payload.b6 m.payload.b7) }

/-- The value field of a payload, bytes 4..7 (R162). -/
def valueField (p : Bytes8) : Bytes4 := ⟨p.b4, p.b5, p.b6, p.b7⟩

/-- PARSE mode 17 (R229). -/
def parseParam (rom : Rom) (m : RawMessage) : Except Failure ParamReadResponse := do
  let e ← lookupIndex rom (le16 m.payload.b0 m.payload.b1)
  let v ← regDecode rom (le16 m.payload.b0 m.payload.b1) (valueField m.payload)
  .ok { hostId := m.nodeId, targetId := auxTarget m.auxField, register := e, value := v }

/-- The error code, payload bytes 0..3 (R231). -/
def errorCodeOf (p : Bytes8) : U32 := le32 p.b0 p.b1 p.b2 p.b3

/-- The warning code, payload bytes 4..7 (R231). -/
def warningCodeOf (p : Bytes8) : U32 := le32 p.b4 p.b5 p.b6 p.b7

/-- PARSE mode 21 (R230 to R234): every message parses. -/
def parseFault (rom : Rom) (m : RawMessage) : FaultResponse :=
  let ec := errorCodeOf m.payload
  { targetId := auxTarget m.auxField
    hostId := m.nodeId
    hasFault := hasFault ec
    errorCode := ec
    warningCode := warningCodeOf m.payload
    faultFlags := faultFlagsIfAny rom ec }

/-- A typed response in its tagged union. -/
def tagged {α : Type} (tag : α → TypedResponse) : Except Failure α → Except Failure TypedResponse
  | .ok a => .ok (tag a)
  | .error f => .error f

/-- PARSE (R220, R221): dispatch strictly on command_mode. -/
def parseMessage (rom : Rom) (m : RawMessage) : Except Failure TypedResponse :=
  if m.commandMode = 0 then tagged .id (parseId rom m)
  else if m.commandMode = 2 then tagged .status (parseStatus rom m)
  else if m.commandMode = 17 then tagged .paramRead (parseParam rom m)
  else if m.commandMode = 21 then .ok (.fault (parseFault rom m))
  else .error .unsupportedMode

/-- The RawMessage in the operand bundle of PARSE (R220). -/
def operandMessage (o : Operands) : RawMessage :=
  { commandMode := o.commandMode, auxField := o.auxField, nodeId := o.nodeId, payload := o.payload }

/-- UNWRAP then PARSE; a frame error hides any parse error (R235, R254). -/
def receive (rom : Rom) (data : List Byte) : Except Failure TypedResponse := do
  let m ← unwrapFrame rom data
  parseMessage rom m

/-- PARSE (R220). -/
def execParse (s : State) : Host.Outcome State Fault Refusal :=
  transact s fun o => placed .typed (parseMessage s.rom (operandMessage o))

/-- RX (R235). -/
def execRx (s : State) : Host.Outcome State Fault Refusal :=
  transact s fun o => placed .typed (receive s.rom o.data)

end Sys2Proof.Machine
end

