-- ==== Sys2Proof/Machine/Message.lean ====
section
/-!
DEFINITION. The CANID32 rows: the message kinds of spec/30_encoding.md R66 to R77. A row's meaning is the rule it names,
with the ids taken from its identifier word (log entry 3): a request kind (towards the device) is its builder, with
target_id the word's node_id and host_id (for SetId also new_target_id) from the word's aux_field; a response kind
(towards the host) is its parser, on the RawMessage of the word and the payload operand.
-/

namespace Sys2Proof.Machine

/-- The operand bundle of a builder whose ids come from an identifier word: node_id is the target id and aux_field the
host id, which the builder masks to its low byte (R66 to R73, R190). -/
def wordOperands (aux : U16) (node : U8) (o : Operands) : Operands :=
  { o with targetId := node.setWidth 32, hostId := aux.toNat }

/-- The same for SetId, whose aux_field is the new target id above the host id (R71). -/
def setIdOperands (aux : U16) (node : U8) (o : Operands) : Operands :=
  { wordOperands aux node o with newTargetId := aux.toNat / 256 }

/-- The RawMessage of a received identifier word (R61) and the payload operand. -/
def wordMessage (mode : U8) (aux : U16) (node : U8) (o : Operands) : RawMessage :=
  { commandMode := mode, auxField := aux, nodeId := node, payload := o.payload }

/-- MSG.ControlCommand's message: aux_field is the torque code the word already carries, the payload is R67's. -/
def wordControl (rom : Rom) (aux : U16) (node : U8) (o : Operands) : Except Failure RawMessage := do
  let pl ← controlEncode rom o
  .ok { commandMode := 1, auxField := aux, nodeId := node, payload := pl }

/-- MSG.IdQuery (R66, R191). -/
def execMsgIdQuery (aux : U16) (node : U8) (s : State) : Host.Outcome State Fault Refusal :=
  transact s fun o => placed .message (buildIdQuery s.rom (wordOperands aux node o))

/-- MSG.ControlCommand (R67, R192). -/
def execMsgControlCommand (aux : U16) (node : U8) (s : State) : Host.Outcome State Fault Refusal :=
  transact s fun o => placed .message (wordControl s.rom aux node o)

/-- MSG.StatusResponse (R75, R223). -/
def execMsgStatusResponse (aux : U16) (node : U8) (s : State) : Host.Outcome State Fault Refusal :=
  transact s fun o => placed .typed (parseMessage s.rom (wordMessage 2 aux node o))

/-- MSG.Enable (R68, R193). -/
def execMsgEnable (aux : U16) (node : U8) (s : State) : Host.Outcome State Fault Refusal :=
  transact s fun o => placed .message (buildEnable s.rom (wordOperands aux node o))

/-- MSG.Disable (R69, R194). -/
def execMsgDisable (aux : U16) (node : U8) (s : State) : Host.Outcome State Fault Refusal :=
  transact s fun o => placed .message (buildDisable s.rom (wordOperands aux node o))

/-- MSG.SetZero (R70, R195). -/
def execMsgSetZero (aux : U16) (node : U8) (s : State) : Host.Outcome State Fault Refusal :=
  transact s fun o => placed .message (buildSetZero s.rom (wordOperands aux node o))

/-- MSG.SetId (R71, R196). -/
def execMsgSetId (aux : U16) (node : U8) (s : State) : Host.Outcome State Fault Refusal :=
  transact s fun o => placed .message (buildSetId s.rom (setIdOperands aux node o))

/-- MSG.ReadParam (R72, R197). -/
def execMsgReadParam (aux : U16) (node : U8) (s : State) : Host.Outcome State Fault Refusal :=
  transact s fun o => placed .message (buildReadParam s.rom (wordOperands aux node o))

/-- MSG.WriteParam (R73, R198). -/
def execMsgWriteParam (aux : U16) (node : U8) (s : State) : Host.Outcome State Fault Refusal :=
  transact s fun o => placed .message (buildWriteParam s.rom (wordOperands aux node o))

/-- MSG.IdResponse (R74, R222). -/
def execMsgIdResponse (aux : U16) (node : U8) (s : State) : Host.Outcome State Fault Refusal :=
  transact s fun o => placed .typed (parseMessage s.rom (wordMessage 0 aux node o))

/-- MSG.ParamReadResponse (R76, R229). -/
def execMsgParamReadResponse (aux : U16) (node : U8) (s : State) : Host.Outcome State Fault Refusal :=
  transact s fun o => placed .typed (parseMessage s.rom (wordMessage 17 aux node o))

/-- MSG.FaultResponse (R77, R230). -/
def execMsgFaultResponse (aux : U16) (node : U8) (s : State) : Host.Outcome State Fault Refusal :=
  transact s fun o => placed .typed (parseMessage s.rom (wordMessage 21 aux node o))

end Sys2Proof.Machine
end

