-- ==== Sys2Proof/Machine/RegisterRows.lean ====
section
/-!
DEFINITION. The REGIDX16 rows: the catalogued registers (spec/43_register.md R161). A row's meaning is the rule it names,
R166, R167 or R168: the encode function its index selects, applied to the value operand, as RENC of that index does
(R165; log entry 3).
-/

namespace Sys2Proof.Machine

/-- The encode function a register index selects, applied to the value operand (R165). -/
def selectRegister (index : U16) (s : State) : Host.Outcome State Fault Refusal :=
  transact s fun o => placed .regField (regEncode s.rom index o.value)

/-- REG.run_mode (R166). -/
def execRegRunMode (s : State) : Host.Outcome State Fault Refusal := selectRegister 0x7005 s

/-- REG.iq_ref (R167). -/
def execRegIqRef (s : State) : Host.Outcome State Fault Refusal := selectRegister 0x7006 s

/-- REG.spd_ref (R167). -/
def execRegSpdRef (s : State) : Host.Outcome State Fault Refusal := selectRegister s.rom.regIndex.spdRef s

/-- REG.limit_torque (R167). -/
def execRegLimitTorque (s : State) : Host.Outcome State Fault Refusal := selectRegister s.rom.regIndex.limitTorque s

/-- REG.cur_kp (R167). -/
def execRegCurKp (s : State) : Host.Outcome State Fault Refusal := selectRegister s.rom.regIndex.curKp s

/-- REG.cur_ki (R167). -/
def execRegCurKi (s : State) : Host.Outcome State Fault Refusal := selectRegister s.rom.regIndex.curKi s

/-- REG.cur_filt_gain (R167). -/
def execRegCurFiltGain (s : State) : Host.Outcome State Fault Refusal := selectRegister s.rom.regIndex.curFiltGain s

/-- REG.loc_ref (R167). -/
def execRegLocRef (s : State) : Host.Outcome State Fault Refusal := selectRegister s.rom.regIndex.locRef s

/-- REG.limit_spd (R167). -/
def execRegLimitSpd (s : State) : Host.Outcome State Fault Refusal := selectRegister s.rom.regIndex.limitSpd s

/-- REG.limit_cur (R167). -/
def execRegLimitCur (s : State) : Host.Outcome State Fault Refusal := selectRegister s.rom.regIndex.limitCur s

/-- REG.mech_pos (R167). -/
def execRegMechPos (s : State) : Host.Outcome State Fault Refusal := selectRegister s.rom.regIndex.mechPos s

/-- REG.iqf (R167). -/
def execRegIqf (s : State) : Host.Outcome State Fault Refusal := selectRegister s.rom.regIndex.iqf s

/-- REG.mech_vel (R167). -/
def execRegMechVel (s : State) : Host.Outcome State Fault Refusal := selectRegister s.rom.regIndex.mechVel s

/-- REG.vbus (R167). -/
def execRegVbus (s : State) : Host.Outcome State Fault Refusal := selectRegister 0x701C s

/-- REG.rotation_count (R168). -/
def execRegRotationCount (s : State) : Host.Outcome State Fault Refusal := selectRegister 0x701D s

end Sys2Proof.Machine
end

