-- ==== Sys2Proof/Machine/Dispatch.lean ====
section
/-! DEFINITION. The dispatch: one arm per instruction, each a direct call of its meaning. -/

namespace Sys2Proof.Machine

def exec (i : Instr) (s : State) : Host.Outcome State Fault Refusal :=
  match i with
  | .qenc1 => Sys2Proof.Machine.execQenc1 s
  | .qenc2 => Sys2Proof.Machine.execQenc2 s
  | .qdec1 => Sys2Proof.Machine.execQdec1 s
  | .qdec2 => Sys2Proof.Machine.execQdec2 s
  | .qtemp => Sys2Proof.Machine.execQtemp s
  | .pack => Sys2Proof.Machine.execPack s
  | .unpack => Sys2Proof.Machine.execUnpack s
  | .xbits => Sys2Proof.Machine.execXbits s
  | .wrap => Sys2Proof.Machine.execWrap s
  | .unwrap => Sys2Proof.Machine.execUnwrap s
  | .rlook => Sys2Proof.Machine.execRlook s
  | .rlookn => Sys2Proof.Machine.execRlookn s
  | .renc => Sys2Proof.Machine.execRenc s
  | .rdec => Sys2Proof.Machine.execRdec s
  | .build0 => Sys2Proof.Machine.execBuild0 s
  | .build1 => Sys2Proof.Machine.execBuild1 s
  | .build3 => Sys2Proof.Machine.execBuild3 s
  | .build4 => Sys2Proof.Machine.execBuild4 s
  | .build6 => Sys2Proof.Machine.execBuild6 s
  | .build7 => Sys2Proof.Machine.execBuild7 s
  | .build17 => Sys2Proof.Machine.execBuild17 s
  | .build18 => Sys2Proof.Machine.execBuild18 s
  | .parse => Sys2Proof.Machine.execParse s
  | .tx0 => Sys2Proof.Machine.execTx0 s
  | .tx1 => Sys2Proof.Machine.execTx1 s
  | .tx3 => Sys2Proof.Machine.execTx3 s
  | .tx4 => Sys2Proof.Machine.execTx4 s
  | .tx6 => Sys2Proof.Machine.execTx6 s
  | .tx7 => Sys2Proof.Machine.execTx7 s
  | .tx17 => Sys2Proof.Machine.execTx17 s
  | .tx18 => Sys2Proof.Machine.execTx18 s
  | .rx => Sys2Proof.Machine.execRx s
  | .msgIdQuery aux node => Sys2Proof.Machine.execMsgIdQuery aux node s
  | .msgControlCommand aux node => Sys2Proof.Machine.execMsgControlCommand aux node s
  | .msgStatusResponse aux node => Sys2Proof.Machine.execMsgStatusResponse aux node s
  | .msgEnable aux node => Sys2Proof.Machine.execMsgEnable aux node s
  | .msgDisable aux node => Sys2Proof.Machine.execMsgDisable aux node s
  | .msgSetZero aux node => Sys2Proof.Machine.execMsgSetZero aux node s
  | .msgSetId aux node => Sys2Proof.Machine.execMsgSetId aux node s
  | .msgReadParam aux node => Sys2Proof.Machine.execMsgReadParam aux node s
  | .msgWriteParam aux node => Sys2Proof.Machine.execMsgWriteParam aux node s
  | .msgIdResponse aux node => Sys2Proof.Machine.execMsgIdResponse aux node s
  | .msgParamReadResponse aux node => Sys2Proof.Machine.execMsgParamReadResponse aux node s
  | .msgFaultResponse aux node => Sys2Proof.Machine.execMsgFaultResponse aux node s
  | .regRunMode => Sys2Proof.Machine.execRegRunMode s
  | .regIqRef => Sys2Proof.Machine.execRegIqRef s
  | .regSpdRef => Sys2Proof.Machine.execRegSpdRef s
  | .regLimitTorque => Sys2Proof.Machine.execRegLimitTorque s
  | .regCurKp => Sys2Proof.Machine.execRegCurKp s
  | .regCurKi => Sys2Proof.Machine.execRegCurKi s
  | .regCurFiltGain => Sys2Proof.Machine.execRegCurFiltGain s
  | .regLocRef => Sys2Proof.Machine.execRegLocRef s
  | .regLimitSpd => Sys2Proof.Machine.execRegLimitSpd s
  | .regLimitCur => Sys2Proof.Machine.execRegLimitCur s
  | .regMechPos => Sys2Proof.Machine.execRegMechPos s
  | .regIqf => Sys2Proof.Machine.execRegIqf s
  | .regMechVel => Sys2Proof.Machine.execRegMechVel s
  | .regVbus => Sys2Proof.Machine.execRegVbus s
  | .regRotationCount => Sys2Proof.Machine.execRegRotationCount s

end Sys2Proof.Machine
end

