-- ==== Sys2Proof/WellFormed.lean ====
section
/-!
DEFINITION. Which instruction terms respect the layout rules of their message kind (spec/30_encoding.md R66 to R77).
The decoder yields ill-formed message terms too, since a CANID32 row matches by its command mode only (R89), and `exec`
has a meaning for them: the builders mask the host id (R190(b)) and the mode-0 parser refuses a wrong node (R222).
-/

namespace Sys2Proof

/-- `aux_field = host_id & 0xFF` (R66, R68 to R70, R72, R73): the high byte of the identifier's aux field is 0. -/
def auxIsHostId (aux : U16) : Bool := aux.toNat ≤ 0xFF

/-- "node_id must be `0xFE`" (R74). -/
def nodeIsSentinel (node : U8) : Bool := node == 0xFE

/-- The well-formed instructions. -/
def Instr.wf : Instr → Bool
  | .msgIdQuery aux _ => auxIsHostId aux
  | .msgEnable aux _ => auxIsHostId aux
  | .msgDisable aux _ => auxIsHostId aux
  | .msgSetZero aux _ => auxIsHostId aux
  | .msgReadParam aux _ => auxIsHostId aux
  | .msgWriteParam aux _ => auxIsHostId aux
  | .msgIdResponse _ node => nodeIsSentinel node
  | .msgControlCommand _ _ | .msgStatusResponse _ _ | .msgSetId _ _ | .msgParamReadResponse _ _
  | .msgFaultResponse _ _ => true
  | .qenc1 | .qenc2 | .qdec1 | .qdec2 | .qtemp | .pack | .unpack | .xbits | .wrap | .unwrap | .rlook | .rlookn
  | .renc | .rdec | .build0 | .build1 | .build3 | .build4 | .build6 | .build7 | .build17 | .build18 | .parse
  | .tx0 | .tx1 | .tx3 | .tx4 | .tx6 | .tx7 | .tx17 | .tx18 | .rx => true
  | .regRunMode | .regIqRef | .regSpdRef | .regLimitTorque | .regCurKp | .regCurKi | .regCurFiltGain | .regLocRef
  | .regLimitSpd | .regLimitCur | .regMechPos | .regIqf | .regMechVel | .regVbus | .regRotationCount => true

end Sys2Proof
end

