-- ==== Sys2Proof/Decode.lean ====
section
/-!
DEFINITION. The decoder of the three formats of the opcode table, total on every word and rejecting by the name
of the failure the spec gives (spec/30_encoding.md R78 to R85), and the encoder, written from the same tables.
-/

namespace Sys2Proof

/-- FUNC, bits 15..8 of the OPWORD (R80). -/
def opwordFunc (w : U16) : U8 := w.extractLsb' 8 8

/-- SEL, bits 7..0 of the OPWORD (R80). -/
def opwordSel (w : U16) : U8 := w.extractLsb' 0 8

/-- The OPWORD `FUNC << 8 | SEL` (R87). -/
def opwordOf (func sel : U8) : U16 := func ++ sel

/-- SEL of a FUNC that takes no argument must be 0 (R82, R83). -/
def selZero (sel : U8) (i : Instr) : Except Failure Operation :=
  if sel = 0 then .ok (.row i) else .error .illegalOperation

/-- SEL of QENC and QDEC is the width, one of `QWIDTHS` (R81, R82); any other is WidthUnsupported (R83). -/
def selWidth (rom : Rom) (sel : U8) (one two : Instr) (other : U8 → Operation) : Except Failure Operation :=
  if !rom.qwidths.contains sel.toNat then .error .widthUnsupported
  else if sel = 1 then .ok (.row one)
  else if sel = 2 then .ok (.row two)
  else .ok (other sel)

/-- SEL of BUILD is the command mode, one of 0, 1, 3, 4, 6, 7, 17, 18 (R81, R199). -/
def selBuild (sel : U8) : Except Failure Operation :=
  if sel = 0 then .ok (.row .build0) else if sel = 1 then .ok (.row .build1)
  else if sel = 3 then .ok (.row .build3) else if sel = 4 then .ok (.row .build4)
  else if sel = 6 then .ok (.row .build6) else if sel = 7 then .ok (.row .build7)
  else if sel = 17 then .ok (.row .build17) else if sel = 18 then .ok (.row .build18)
  else .error .illegalOperation

/-- SEL of TX is the command mode, as for BUILD (R81, R199, R200). -/
def selTx (sel : U8) : Except Failure Operation :=
  if sel = 0 then .ok (.row .tx0) else if sel = 1 then .ok (.row .tx1)
  else if sel = 3 then .ok (.row .tx3) else if sel = 4 then .ok (.row .tx4)
  else if sel = 6 then .ok (.row .tx6) else if sel = 7 then .ok (.row .tx7)
  else if sel = 17 then .ok (.row .tx17) else if sel = 18 then .ok (.row .tx18)
  else .error .illegalOperation

/-- The operation an OPWORD names (R81), or the failure of an illegal OPWORD (R83). -/
def decodeOpword (rom : Rom) (w : U16) : Except Failure Operation :=
  let func := opwordFunc w
  let sel := opwordSel w
  if func = 0x01 then selWidth rom sel .qenc1 .qenc2 .qencWidth
  else if func = 0x02 then selWidth rom sel .qdec1 .qdec2 .qdecWidth
  else if func = 0x03 then selZero sel .qtemp
  else if func = 0x10 then selZero sel .pack
  else if func = 0x11 then selZero sel .unpack
  else if func = 0x12 then selZero sel .xbits
  else if func = 0x20 then selZero sel .wrap
  else if func = 0x21 then selZero sel .unwrap
  else if func = 0x30 then selZero sel .rlook
  else if func = 0x31 then selZero sel .rlookn
  else if func = 0x32 then selZero sel .renc
  else if func = 0x33 then selZero sel .rdec
  else if func = 0x40 then selBuild sel
  else if func = 0x41 then selZero sel .parse
  else if func = 0x50 then selTx sel
  else if func = 0x51 then selZero sel .rx
  else .error .illegalOperation

/-- command_mode, bits 31..27 of the identifier word (R60). -/
def canidMode (w : U32) : BitVec 5 := w.extractLsb' 27 5

/-- aux_field, bits 26..11 of the identifier word (R60). -/
def canidAux (w : U32) : U16 := w.extractLsb' 11 16

/-- node_id, bits 10..3 of the identifier word (R60). -/
def canidNode (w : U32) : U8 := w.extractLsb' 3 8

/-- The message kind of an identifier word (R66 to R77, R89: matched by command_mode; the marker bits are outside the
mask). A mode with no builder is refused towards the device with IllegalOperation, a mode with no parser towards the
host with UnsupportedMode (R78, R79). -/
def decodeCanid (dir : Direction) (w : U32) : Except Failure Instr :=
  let mode := canidMode w
  let aux := canidAux w
  let node := canidNode w
  match dir with
  | .toDevice =>
    if mode = 0 then .ok (.msgIdQuery aux node)
    else if mode = 1 then .ok (.msgControlCommand aux node)
    else if mode = 3 then .ok (.msgEnable aux node)
    else if mode = 4 then .ok (.msgDisable aux node)
    else if mode = 6 then .ok (.msgSetZero aux node)
    else if mode = 7 then .ok (.msgSetId aux node)
    else if mode = 17 then .ok (.msgReadParam aux node)
    else if mode = 18 then .ok (.msgWriteParam aux node)
    else .error .illegalOperation
  | .toHost =>
    if mode = 0 then .ok (.msgIdResponse aux node)
    else if mode = 2 then .ok (.msgStatusResponse aux node)
    else if mode = 17 then .ok (.msgParamReadResponse aux node)
    else if mode = 21 then .ok (.msgFaultResponse aux node)
    else .error .unsupportedMode

/-- The register of an index (R85, R89: matched exactly; R161: with the indices of `REG_INDEX`); every other index is
unknown. -/
def decodeRegidx (r : RegIndex) (w : U16) : Except Failure Instr :=
  if w = 0x7005 then .ok .regRunMode
  else if w = 0x7006 then .ok .regIqRef
  else if w = r.spdRef then .ok .regSpdRef
  else if w = r.limitTorque then .ok .regLimitTorque
  else if w = r.curKp then .ok .regCurKp
  else if w = r.curKi then .ok .regCurKi
  else if w = r.curFiltGain then .ok .regCurFiltGain
  else if w = r.locRef then .ok .regLocRef
  else if w = r.limitSpd then .ok .regLimitSpd
  else if w = r.limitCur then .ok .regLimitCur
  else if w = r.mechPos then .ok .regMechPos
  else if w = r.iqf then .ok .regIqf
  else if w = r.mechVel then .ok .regMechVel
  else if w = 0x701C then .ok .regVbus
  else if w = 0x701D then .ok .regRotationCount
  else .error .unknownRegister

/-- A wire word names an instruction of the table. -/
def asRow : Except Failure Instr → Except Failure Operation
  | .ok i => .ok (.row i)
  | .error f => .error f

/-- The decoder, for the parameters of a ROM. -/
def decode (rom : Rom) : TableWord → Except Failure Operation
  | .opword w => decodeOpword rom w
  | .canid dir w => asRow (decodeCanid dir w)
  | .regidx w => asRow (decodeRegidx rom.regIndex w)

/-- The identifier word of a mode, an aux field and a node, with the marker PACK writes (R60). -/
def canidOf (mode : BitVec 5) (aux : U16) (node : U8) : U32 := mode ++ aux ++ node ++ (0b100 : BitVec 3)

/-- The encoder: the word of an instruction, from the tables of R60, R81 and R161, with the indices of `REG_INDEX`. -/
def encode (r : RegIndex) : Instr → TableWord
  | .qenc1 => .opword (opwordOf 0x01 1)
  | .qenc2 => .opword (opwordOf 0x01 2)
  | .qdec1 => .opword (opwordOf 0x02 1)
  | .qdec2 => .opword (opwordOf 0x02 2)
  | .qtemp => .opword (opwordOf 0x03 0)
  | .pack => .opword (opwordOf 0x10 0)
  | .unpack => .opword (opwordOf 0x11 0)
  | .xbits => .opword (opwordOf 0x12 0)
  | .wrap => .opword (opwordOf 0x20 0)
  | .unwrap => .opword (opwordOf 0x21 0)
  | .rlook => .opword (opwordOf 0x30 0)
  | .rlookn => .opword (opwordOf 0x31 0)
  | .renc => .opword (opwordOf 0x32 0)
  | .rdec => .opword (opwordOf 0x33 0)
  | .build0 => .opword (opwordOf 0x40 0)
  | .build1 => .opword (opwordOf 0x40 1)
  | .build3 => .opword (opwordOf 0x40 3)
  | .build4 => .opword (opwordOf 0x40 4)
  | .build6 => .opword (opwordOf 0x40 6)
  | .build7 => .opword (opwordOf 0x40 7)
  | .build17 => .opword (opwordOf 0x40 17)
  | .build18 => .opword (opwordOf 0x40 18)
  | .parse => .opword (opwordOf 0x41 0)
  | .tx0 => .opword (opwordOf 0x50 0)
  | .tx1 => .opword (opwordOf 0x50 1)
  | .tx3 => .opword (opwordOf 0x50 3)
  | .tx4 => .opword (opwordOf 0x50 4)
  | .tx6 => .opword (opwordOf 0x50 6)
  | .tx7 => .opword (opwordOf 0x50 7)
  | .tx17 => .opword (opwordOf 0x50 17)
  | .tx18 => .opword (opwordOf 0x50 18)
  | .rx => .opword (opwordOf 0x51 0)
  | .msgIdQuery aux node => .canid .toDevice (canidOf 0 aux node)
  | .msgControlCommand aux node => .canid .toDevice (canidOf 1 aux node)
  | .msgStatusResponse aux node => .canid .toHost (canidOf 2 aux node)
  | .msgEnable aux node => .canid .toDevice (canidOf 3 aux node)
  | .msgDisable aux node => .canid .toDevice (canidOf 4 aux node)
  | .msgSetZero aux node => .canid .toDevice (canidOf 6 aux node)
  | .msgSetId aux node => .canid .toDevice (canidOf 7 aux node)
  | .msgReadParam aux node => .canid .toDevice (canidOf 17 aux node)
  | .msgWriteParam aux node => .canid .toDevice (canidOf 18 aux node)
  | .msgIdResponse aux node => .canid .toHost (canidOf 0 aux node)
  | .msgParamReadResponse aux node => .canid .toHost (canidOf 17 aux node)
  | .msgFaultResponse aux node => .canid .toHost (canidOf 21 aux node)
  | .regRunMode => .regidx 0x7005
  | .regIqRef => .regidx 0x7006
  | .regSpdRef => .regidx r.spdRef
  | .regLimitTorque => .regidx r.limitTorque
  | .regCurKp => .regidx r.curKp
  | .regCurKi => .regidx r.curKi
  | .regCurFiltGain => .regidx r.curFiltGain
  | .regLocRef => .regidx r.locRef
  | .regLimitSpd => .regidx r.limitSpd
  | .regLimitCur => .regidx r.limitCur
  | .regMechPos => .regidx r.mechPos
  | .regIqf => .regidx r.iqf
  | .regMechVel => .regidx r.mechVel
  | .regVbus => .regidx 0x701C
  | .regRotationCount => .regidx 0x701D

/-- The pseudo-instructions of R88 and the instruction each stands for: a second name of the same OPWORD. -/
def pseudoInstructions : List (String × Instr) :=
  [("IDQUERY", .build0), ("CONTROL", .build1), ("ENABLE", .build3), ("DISABLE", .build4), ("SETZERO", .build6),
   ("SETID", .build7), ("READPARAM", .build17), ("WRITEPARAM", .build18), ("TX_IDQUERY", .tx0), ("TX_CONTROL", .tx1),
   ("TX_ENABLE", .tx3), ("TX_DISABLE", .tx4), ("TX_SETZERO", .tx6), ("TX_SETID", .tx7), ("TX_READPARAM", .tx17),
   ("TX_WRITEPARAM", .tx18)]

/-- The direction a bare identifier word is taken to travel (log entry 4: the table's rows of modes 0 and 17 share one
match): modes 2 and 21 have only a response, a mode-0 word with the sentinel node is the IdResponse (R222), a mode-17
word whose aux_field has a high byte no request has (R72) is the ParamReadResponse (R76), every other word is a
request. -/
def tableDirection (w : U32) : Direction :=
  if canidMode w = 2 then .toHost
  else if canidMode w = 21 then .toHost
  else if canidMode w = 0 ∧ canidNode w = 0xFE then .toHost
  else if canidMode w = 17 ∧ 0xFF < (canidAux w).toNat then .toHost
  else .toDevice

/-- The table word of some bits: 32 bits are a CANID32 word; 16 bits are a register index where the high byte is
0x70, which is no FUNC code (R81), and an OPWORD elsewhere (log entry 4). -/
def tableWord (nbits w : Nat) : Option TableWord :=
  if nbits = 32 then
    let word : U32 := BitVec.ofNat 32 w
    some (.canid (tableDirection word) word)
  else if nbits = 16 then
    let word : U16 := BitVec.ofNat 16 w
    if opwordFunc word = 0x70 then some (.regidx word) else some (.opword word)
  else none

/-- The instruction the decoder reads from a word of the table, at the parameters the table is written for (R89). -/
def decodeTableWord (nbits w : Nat) : Option Instr :=
  match tableWord nbits w with
  | none => none
  | some d =>
    match decode Machine.standardRom d with
    | .ok (.row i) => some i
    | .ok (.qencWidth _) => none
    | .ok (.qdecWidth _) => none
    | .error _ => none

end Sys2Proof
end

