-- ==== Sys2Proof/Machine/WireWord.lean ====
section
/-!
DEFINITION. The request by which a word of the opcode table runs. A request carries an OPWORD and nothing else (R80,
R262); the table's rows of the two wire formats (R89) are words that the block carries in operands. So an identifier word
towards the device runs as BUILD of its mode, one towards the host as PARSE of its fields, and a register index as RENC of
it (log entry 3).
-/

namespace Sys2Proof.Machine

/-- The binary64 nearest to the middle of a 16-bit code's interval over a range, `lo + (code + 1/2) / M(2) * (hi - lo)`:
a value that QENC encodes as that code (log entry 3). -/
def centreOf (range : Range) (code : U16) : F64 :=
  let top : Nat := 65535
  let lo := f64Units range.lo
  let n := lo * (2 * top) + (2 * (code.toNat : Int) + 1) * (f64Units range.hi - lo)
  round64 (n < 0) n.natAbs (2 * top)

/-- The operands of BUILD for an identifier word: target_id the node_id and, by the mode's layout, torque the value whose
code is the aux_field (R67), or host_id the aux_field, for SetId with new_target_id its high byte (R66 to R73). -/
def buildOperands (rom : Rom) (mode : BitVec 5) (aux : U16) (node : U8) (o : Operands) : Operands :=
  if mode = 1 then { o with targetId := node.setWidth 32, torque := centreOf rom.tRange aux }
  else if mode = 7 then setIdOperands aux node o
  else wordOperands aux node o

/-- The operands of PARSE for an identifier word: the fields of the message it heads (R61, R74 to R77). -/
def parseOperands (mode : BitVec 5) (aux : U16) (node : U8) (o : Operands) : Operands :=
  { o with commandMode := mode.setWidth 8, auxField := aux, nodeId := node }

/-- The request by which a word of the table runs: an OPWORD itself, or the OPWORD of the operation that the wire word's
row stands for, with the word's fields as its operands (R80, R89; log entry 3). -/
def requestOf (rom : Rom) (word : TableWord) (o : Operands) : Request :=
  match word with
  | .opword w => { opword := w, operands := o }
  | .canid .toDevice w =>
    { opword := opwordOf 0x40 ((canidMode w).setWidth 8)
      operands := buildOperands rom (canidMode w) (canidAux w) (canidNode w) o }
  | .canid .toHost w =>
    { opword := opwordOf 0x41 0, operands := parseOperands (canidMode w) (canidAux w) (canidNode w) o }
  | .regidx w => { opword := opwordOf 0x32 0, operands := { o with index := w } }

end Sys2Proof.Machine
end

