-- ==== Sys2Proof/Machine/Step.lean ====
section
/-!
DEFINITION. One step of the block: the transaction in flight is decoded and performed (spec/10_state.md R21, R30). There
is no fetch from a memory (R21): "the next instruction" is the OPWORD of the request in flight (R80).
-/

namespace Sys2Proof.Machine

/-- Perform what a legal OPWORD names. -/
def perform (op : Operation) (s : State) : Host.Outcome State Fault Refusal :=
  match op with
  | .row i => exec i s
  | .qencWidth w => execQencWidth w s
  | .qdecWidth w => execQdecWidth w s

/-- One step: with no request in flight nothing happens; a legal OPWORD is performed; an illegal one is answered with the
failure the decoder names (R83, R253 item 1). -/
def step (s : State) : Host.Outcome State Fault Refusal :=
  match inFlight s with
  | none => .next s
  | some a =>
    match decodeOpword s.rom a.opword with
    | .ok op => perform op s
    | .error f => .next (takeFailure s f)

/-- The state whose next request runs a table word (log entry 6): the request by which the word runs, with the other
operands of the request already in flight or, with none in flight, zero. A word of another size changes nothing. -/
def State.withFetchWord (s : State) (nbits w : Nat) : State :=
  match tableWord nbits w with
  | none => s
  | some word =>
    match s.requests with
    | [] => { s with requests := [requestOf s.rom word Operands.zero] }
    | a :: rest => { s with requests := requestOf s.rom word a.operands :: rest }

end Sys2Proof.Machine
end

