-- ==== Sys2Proof/Safety.lean ====
section
/-!
DEFINITION. What a run is and what counts as a safe one (spec/20_memory.md R53; spec/60_exceptions.md R251, R252): a
response of the undefined-input class is a fault of the run that issued its request.
-/

namespace Sys2Proof.Machine

/-- The response of one request as a function of the request and ROM alone (R30, R35, R53), read from what `step`
records when that request is the only one in flight. -/
def respond (rom : Rom) (a : Request) : Option Response :=
  match step { rom := rom, requests := [a], responses := [] } with
  | .next t => t.responses.head?
  | _ => none

/-- A response of the undefined-input class (R251). -/
def Response.isUndefinedInput : Response → Bool
  | .ok _ => false
  | .fail f => undefinedInput f

/-- A run without a fault (R251): no response in the record is of the undefined-input class. -/
def State.safe (s : State) : Bool := s.responses.all fun r => !r.isUndefinedInput

/-- A command mode that an identifier can carry (R121). -/
def RawMessage.wf (m : RawMessage) : Bool := m.commandMode.toNat ≤ 31

/-- A frame has 17 bytes, the header, the length byte and the terminator (R63). -/
def frameWf (b : List Byte) : Bool :=
  b.length == 17 && byteAt b 0 == 0x41 && byteAt b 1 == 0x54 && byteAt b 6 == 0x08 && byteAt b 15 == 0x0D
    && byteAt b 16 == 0x0A

/-- What the result rules promise of a typed response: fault_flags are there exactly when has_fault is true, which is
when the error code is not 0 (R231); a register is a catalogue entry (R32). -/
def TypedResponse.wf : TypedResponse → Bool
  | .id _ => true
  | .status r =>
    match r.angle, r.speed, r.torque with
    | .num _, .num _, .num _ => true
    | _, _, _ => false
  | .paramRead r => regcat.contains r.register
  | .fault r => (r.hasFault == (r.errorCode != 0)) && (r.faultFlags.isSome == r.hasFault)

/-- What the result rules promise of a result bundle under the standard tables: the marker of an identifier word
(R60), the mode of an unpacked or built message (R122, R200), the layout of a frame (R63), a catalogue entry (R163),
binary64 quantities (R103), no width but 1 and 2 (R101). -/
def Result.wf : Result → Bool
  | .raw8 _ | .raw16 _ | .temperature _ | .bits _ | .regField _ | .regValue _ => true
  | .raw _ _ => false
  | .quantity q =>
    match q with
    | .num _ => true
    | .exact _ => false
  | .identifier w => w.extractLsb' 0 3 == 0b100
  | .fields mode _ _ => mode.toNat ≤ 31
  | .frame b => frameWf b
  | .message m => m.wf
  | .entry e => regcat.contains e
  | .typed r => r.wf

/-- A response whose result bundle is well-formed (R252: a failure has none). -/
def Response.wf : Response → Bool
  | .ok r => r.wf
  | .fail _ => true

/-- The machine's invariant: the tables are the spec's (R28, R34) and every response in the record is well-formed. -/
def State.inv (s : State) : Prop := s.rom = standardRom ∧ s.responses.all Response.wf = true

end Sys2Proof.Machine
end

