-- ==== Sys2Proof/Certificates/Slice0/Obligations.lean ====
section
/-!
DEFINITION. The statements for the provers. Each names the rule of spec/ it formalises. A statement about an instruction
gives the whole next state: the request in flight leaves the channel, exactly one response enters the record, the tables
and everything else stay as they are (the frame); the block has no register, flag or memory that could change (R20, R22,
R40).
-/

namespace Sys2Proof.Claims

open Sys2Proof.Machine

/-! ### The vocabulary of the statements -/

/-- What is in flight has the operands `o`, the requests `rest` wait behind it, and the tables and parameters are those
of `rom`. -/
def LoadedWith (rom : Rom) (s : State) (o : Operands) (rest : List Request) : Prop :=
  s.rom = rom ∧ ∃ a, s.requests = a :: rest ∧ a.operands = o

/-- The same with the spec's tables and parameters. -/
def Loaded (s : State) (o : Operands) (rest : List Request) : Prop := LoadedWith standardRom s o rest

/-- The same with `QUANT_ARITH = EXACT_REAL` (R108). -/
def LoadedExact (s : State) (o : Operands) (rest : List Request) : Prop :=
  LoadedWith { standardRom with quantArith := .exactReal } s o rest

/-- The state after a transaction: what was in flight gone, one response at the end of the record, nothing else changed. -/
def replied (s : State) (rest : List Request) (r : Response) : State :=
  { rom := s.rom, requests := rest, responses := s.responses ++ [r] }

/-- Instruction `i` completes at `s` with the result `r`. -/
def Gives (i : Instr) (s : State) (rest : List Request) (r : Result) : Prop :=
  exec i s = .next (replied s rest (.ok r))

/-- Instruction `i` is refused at `s` with the status `f` and no result. -/
def Refuses (i : Instr) (s : State) (rest : List Request) (f : Failure) : Prop :=
  exec i s = .next (replied s rest (.fail f))

/-- Byte `k` of a number, byte 0 the least significant. -/
def byteOf (n k : Nat) : Byte := BitVec.ofNat 8 (n / 2 ^ (8 * k))

/-- The identifier word as a number: `(mode * 2^24 + aux * 2^8 + node) * 8 + 4` (R60). -/
def identifierNumber (mode : U8) (aux : U16) (node : U8) : Nat :=
  (mode.toNat * 2 ^ 24 + aux.toNat * 2 ^ 8 + node.toNat) * 8 + 4

/-- The 17 bytes of R63 around an identifier number and a payload. -/
def frameOf (id : Nat) (p : List Byte) : List Byte :=
  [0x41, 0x54, byteOf id 3, byteOf id 2, byteOf id 1, byteOf id 0, 0x08] ++ p ++ [0x0D, 0x0A]

/-- The eight bytes of a payload. -/
def bytesOf (p : Bytes8) : List Byte := [p.b0, p.b1, p.b2, p.b3, p.b4, p.b5, p.b6, p.b7]

/-- The frame of a message. -/
def messageFrame (m : RawMessage) : List Byte :=
  frameOf (identifierNumber m.commandMode m.auxField m.nodeId) (bytesOf m.payload)

/-- The low byte of an id operand of `w` bits, as a number (R190(b)). -/
def lowByte (w h : Nat) : Nat := h % 2 ^ w % 256

/-- `value` brought into `[lo, hi]` (R102). -/
def clamped (value lo hi : F64) : F64 := if f64Lt value lo then lo else if f64Lt hi value then hi else value

/-- `M(w)` (R100). -/
def topCode (w : Nat) : Nat := 2 ^ (8 * w) - 1

/-- The product `p` of R102: ratio times `M`, in binary64, in the written order. -/
def product (top : Nat) (value lo hi : F64) : F64 :=
  f64Mul (f64Div (f64Sub (clamped value lo hi) lo) (f64Sub hi lo)) (f64OfNat top)

/-- R102's code over a ROM range at width 2. -/
def codeOver (r : Range) (value : F64) : U16 := BitVec.ofInt 16 (f64Floor (product 65535 value r.lo r.hi))

/-- R103's value: `((raw /64 M) *64 (hi -64 lo)) +64 lo`. -/
def scaled (top raw : Nat) (lo hi : F64) : F64 :=
  f64Add (f64Mul (f64Div (f64OfNat raw) (f64OfNat top)) (f64Sub hi lo)) lo

/-- A range the quantizer admits (R101). -/
def GoodRange (lo hi : F64) : Prop := isFinite lo = true ∧ isFinite hi = true ∧ f64Lt lo hi = true

/-- The absolute value of a rational number. -/
def absQ (q : Rat) : Rat := if q < 0 then -q else q

/-- `(c - lo) / (hi - lo)` of R102 in exact real arithmetic (R108), with `c` the clamped value. -/
def exactRatio (o : Operands) : Rat :=
  (f64Rat (clamped o.value o.lo o.hi) - f64Rat o.lo) / (f64Rat o.hi - f64Rat o.lo)

/-- The least magnitude that rounds to the binary64 infinity: `2^1024 - 2^970`. -/
def overflow64 : Rat := mkRat (2 ^ 1024 - 2 ^ 970) 1

/-- `x` is the real number `u` rounded to binary64, to nearest, ties to even (R13): no finite value is nearer, one
equally near means that `x` is the even one, and from `overflow64` on it is the infinity of `u`'s sign. -/
def RoundedTo64 (u : Rat) (x : F64) : Prop :=
  (absQ u < overflow64 →
    isFinite x = true ∧
      ∀ z, isFinite z = true →
        absQ (f64Rat x - u) ≤ absQ (f64Rat z - u) ∧
          (absQ (f64Rat x - u) = absQ (f64Rat z - u) → f64Rat x ≠ f64Rat z → x.toNat % 2 = 0)) ∧
  (overflow64 ≤ absQ u → isInf x = true ∧ (f64Neg x = true ↔ u < 0))

/-- The exact value of a finite binary32, as a multiple of `2^-149`. -/
def f32Rat (y : F32) : Rat :=
  mkRat (if f32Neg y then -(magUnits 23 (f32Mag y) : Int) else (magUnits 23 (f32Mag y) : Int)) (2 ^ 149)

/-- The least magnitude that rounds to the binary32 infinity: `2^128 - 2^103`. -/
def overflow32 : Rat := mkRat (2 ^ 128 - 2 ^ 103) 1

/-- `y` is the real number `u` rounded to binary32, as `RoundedTo64`. -/
def RoundedTo32 (u : Rat) (y : F32) : Prop :=
  (absQ u < overflow32 →
    f32Mag y < infMag32 ∧
      ∀ z, f32Mag z < infMag32 →
        absQ (f32Rat y - u) ≤ absQ (f32Rat z - u) ∧
          (absQ (f32Rat y - u) = absQ (f32Rat z - u) → f32Rat y ≠ f32Rat z → y.toNat % 2 = 0)) ∧
  (overflow32 ≤ absQ u → isInf32 y = true ∧ (f32Neg y = true ↔ u < 0))

/-- The entries of R161 with the kinds of its table, and with the indices of `REG_INDEX` where DOC fixes none. -/
def catalogueAt (r : RegIndex) : List RegEntry :=
  [⟨"run_mode", 0x7005, .u8pad⟩, ⟨"iq_ref", 0x7006, .f32le⟩, ⟨"spd_ref", r.spdRef, .f32le⟩,
   ⟨"limit_torque", r.limitTorque, .f32le⟩, ⟨"cur_kp", r.curKp, .f32le⟩, ⟨"cur_ki", r.curKi, .f32le⟩,
   ⟨"cur_filt_gain", r.curFiltGain, .f32le⟩, ⟨"loc_ref", r.locRef, .f32le⟩, ⟨"limit_spd", r.limitSpd, .f32le⟩,
   ⟨"limit_cur", r.limitCur, .f32le⟩, ⟨"mech_pos", r.mechPos, .f32le⟩, ⟨"iqf", r.iqf, .f32le⟩,
   ⟨"mech_vel", r.mechVel, .f32le⟩, ⟨"vbus", 0x701C, .f32le⟩, ⟨"rotation_count", 0x701D, .u16pad⟩]

/-- The entries of R161 with the indices of its table. -/
def catalogue : List RegEntry :=
  [⟨"run_mode", 0x7005, .u8pad⟩, ⟨"iq_ref", 0x7006, .f32le⟩, ⟨"spd_ref", 0x700A, .f32le⟩,
   ⟨"limit_torque", 0x700B, .f32le⟩, ⟨"cur_kp", 0x7010, .f32le⟩, ⟨"cur_ki", 0x7011, .f32le⟩,
   ⟨"cur_filt_gain", 0x7014, .f32le⟩, ⟨"loc_ref", 0x7016, .f32le⟩, ⟨"limit_spd", 0x7017, .f32le⟩,
   ⟨"limit_cur", 0x7018, .f32le⟩, ⟨"mech_pos", 0x7019, .f32le⟩, ⟨"iqf", 0x701A, .f32le⟩,
   ⟨"mech_vel", 0x701B, .f32le⟩, ⟨"vbus", 0x701C, .f32le⟩, ⟨"rotation_count", 0x701D, .u16pad⟩]

/-- The value field of a value that a kind can hold (R166, R167, R168): an integer 0..255, a value that binary32 holds
or rounds to a finite or an infinity that it is, an integer 0..65535. -/
inductive FieldOf : RegKind → F64 → Bytes4 → Prop
  | u8 (value : F64) (n : Nat) (hf : isFinite value = true) (hn : n ≤ 255)
      (h : f64Units value = (n : Int) * (2 ^ 1074 : Int)) : FieldOf .u8pad value ⟨byteOf n 0, 0, 0, 0⟩
  | u16 (value : F64) (n : Nat) (hf : isFinite value = true) (hn : n ≤ 65535)
      (h : f64Units value = (n : Int) * (2 ^ 1074 : Int)) : FieldOf .u16pad value ⟨byteOf n 0, byteOf n 1, 0, 0⟩
  | f32 (value : F64) (hn : isNaN value = false) (h : isInf32 (toF32 value) = true → isInf value = true) :
      FieldOf .f32le value
        ⟨byteOf (toF32 value).toNat 0, byteOf (toF32 value).toNat 1, byteOf (toF32 value).toNat 2,
          byteOf (toF32 value).toNat 3⟩

/-- The REGIDX16 rows and the index of each (R161). -/
def registerRows (r : RegIndex) : List (Instr × U16) :=
  [(.regRunMode, 0x7005), (.regIqRef, 0x7006), (.regSpdRef, r.spdRef), (.regLimitTorque, r.limitTorque),
   (.regCurKp, r.curKp), (.regCurKi, r.curKi), (.regCurFiltGain, r.curFiltGain), (.regLocRef, r.locRef),
   (.regLimitSpd, r.limitSpd), (.regLimitCur, r.limitCur), (.regMechPos, r.mechPos), (.regIqf, r.iqf),
   (.regMechVel, r.mechVel), (.regVbus, 0x701C), (.regRotationCount, 0x701D)]

/-- The message of a request whose aux field is the low byte of the host id (R66, R68 to R70, R72, R73). -/
def hostRequest (mode : U8) (node host : Nat) (payload : Bytes8) : RawMessage :=
  { commandMode := mode, auxField := BitVec.ofNat 16 host, nodeId := BitVec.ofNat 8 node, payload := payload }

/-- The message of a SetId request, from the low bytes of its two ids (R71). -/
def setIdRequest (node newTarget host : Nat) : RawMessage :=
  { commandMode := 7, auxField := BitVec.ofNat 16 (newTarget * 256 + host), nodeId := BitVec.ofNat 8 node
    payload := ⟨0, 0, 0, 0, 0, 0, 0, 0⟩ }

/-- The payload of a ControlCommand (R67). -/
def controlQuadruple (o : Operands) : Bytes8 :=
  let a := (codeOver pRange o.angle).toNat
  let v := (codeOver vRange o.speed).toNat
  let p := (codeOver kpRange o.kp).toNat
  let d := (codeOver kdRange o.kd).toNat
  ⟨byteOf a 0, byteOf a 1, byteOf v 0, byteOf v 1, byteOf p 0, byteOf p 1, byteOf d 0, byteOf d 1⟩

/-- The message of a ControlCommand (R67). -/
def controlRequest (o : Operands) : RawMessage :=
  { commandMode := 1, auxField := codeOver tRange o.torque, nodeId := BitVec.ofNat 8 o.targetId.toNat
    payload := controlQuadruple o }

/-- The payload of a ReadParam request (R72). -/
def readIndex (index : U16) : Bytes8 := ⟨byteOf index.toNat 0, byteOf index.toNat 1, 0, 0, 0, 0, 0, 0⟩

/-- The payload of a WriteParam request (R73). -/
def writeField (index : U16) (f : Bytes4) : Bytes8 :=
  ⟨byteOf index.toNat 0, byteOf index.toNat 1, 0, 0, f.b0, f.b1, f.b2, f.b3⟩

/-- None of the four payload values of a ControlCommand is a NaN. -/
def PayloadNumbers (o : Operands) : Prop :=
  isNaN o.angle = false ∧ isNaN o.speed = false ∧ isNaN o.kp = false ∧ isNaN o.kd = false

/-- Two bytes, the lower first, as a number (R12). -/
def number16 (b0 b1 : Byte) : Nat := b0.toNat + 256 * b1.toNat

/-- Four bytes, the lowest first, as a number (R12). -/
def number32 (b0 b1 b2 b3 : Byte) : Nat :=
  b0.toNat + 256 * b1.toNat + 65536 * b2.toNat + 16777216 * b3.toNat

/-- The run phase of a 2-bit value (R225). -/
def phaseOf : Nat → RunPhase
  | 0 => .reset
  | 1 => .calibrating
  | 2 => .running
  | _ => .unknown

/-- The StatusResponse of a mode-2 message (R223 to R228). -/
def statusOf (aux : U16) (node : U8) (p : Bytes8) : StatusResponse :=
  { hostId := node
    targetId := BitVec.ofNat 8 aux.toNat
    runPhase := phaseOf (aux.toNat / 2 ^ 14)
    errorFlags :=
      { undervoltage := aux.getLsbD 8, overcurrent := aux.getLsbD 9, overheat := aux.getLsbD 10
        magnetic := aux.getLsbD 11, hall := aux.getLsbD 12, undefined := aux.getLsbD 13 }
    angle := .num (scaled 65535 (number16 p.b0 p.b1) pRange.lo pRange.hi)
    speed := .num (scaled 65535 (number16 p.b2 p.b3) vRange.lo vRange.hi)
    torque := .num (scaled 65535 (number16 p.b4 p.b5) tRange.lo tRange.hi)
    temperatureC := f64Div (f64OfNat (number16 p.b6 p.b7)) tempDiv }

/-- The fault flags of an error code (R233, R234). -/
def flagsOf (ec : Nat) : FaultFlags :=
  { motorOverheat := ec.testBit 0, driverChip := ec.testBit 1, undervoltage := ec.testBit 2
    overvoltage := ec.testBit 3, encoderUncalibrated := ec.testBit 7, phaseCOvercurrent := ec.testBit 14
    phaseBOvercurrent := ec.testBit 15, phaseAOvercurrent := ec.testBit 16
    overload := decide (ec / 2 ^ 8 % 2 ^ 6 ≠ 0) }

/-- The FaultResponse of a mode-21 message (R230 to R234). -/
def faultOf (aux : U16) (node : U8) (p : Bytes8) : FaultResponse :=
  let ec := number32 p.b0 p.b1 p.b2 p.b3
  { targetId := BitVec.ofNat 8 aux.toNat
    hostId := node
    hasFault := decide (ec ≠ 0)
    errorCode := BitVec.ofNat 32 ec
    warningCode := BitVec.ofNat 32 (number32 p.b4 p.b5 p.b6 p.b7)
    faultFlags := if ec = 0 then none else some (flagsOf ec) }

/-- The value a kind decodes from a value field (R170, R171, R172): an integer, or the exact widening of a binary32,
which for a NaN pattern is some NaN. -/
def Decodes (kind : RegKind) (f : Bytes4) (v : F64) : Prop :=
  match kind with
  | .u8pad => isFinite v = true ∧ f64Units v = (f.b0.toNat : Int) * (2 ^ 1074 : Int)
  | .u16pad => isFinite v = true ∧ f64Units v = (number16 f.b0 f.b1 : Int) * (2 ^ 1074 : Int)
  | .f32le =>
    let y : F32 := BitVec.ofNat 32 (number32 f.b0 f.b1 f.b2 f.b3)
    if isNaN32 y then isNaN v = true
    else if isInf32 y then isInf v = true ∧ f64Neg v = f32Neg y
    else isFinite v = true ∧ f64Rat v = f32Rat y ∧ f64Neg v = f32Neg y

/-- The 32 OPWORDs of R81 and R89. -/
def legalOpwords : List U16 :=
  [0x0101, 0x0102, 0x0201, 0x0202, 0x0300, 0x1000, 0x1100, 0x1200, 0x2000, 0x2100, 0x3000, 0x3100, 0x3200, 0x3300,
   0x4000, 0x4001, 0x4003, 0x4004, 0x4006, 0x4007, 0x4011, 0x4012, 0x4100, 0x5000, 0x5001, 0x5003, 0x5004, 0x5006,
   0x5007, 0x5011, 0x5012, 0x5100]

/-- The failures R250 lists for each operation, and for a row of the wire formats those of the rule it names. -/
def mayRaise : Instr → List Failure
  | .qenc1 | .qenc2 => [.badRange, .notANumber]
  | .qdec1 | .qdec2 => [.badRange, .fieldRange]
  | .pack => [.fieldRange]
  | .xbits => [.badBitRange]
  | .wrap => [.fieldRange, .badPayloadLength]
  | .unwrap => [.wrongLength, .badHeader, .badLength]
  | .rlook | .rlookn | .rdec => [.unknownRegister]
  | .renc => [.unknownRegister, .notANumber, .unrepresentable]
  | .build0 | .build3 | .build4 | .build6 | .build7 | .tx0 | .tx3 | .tx4 | .tx6 | .tx7 => [.fieldRange]
  | .build1 | .tx1 => [.fieldRange, .notANumber]
  | .build17 | .tx17 => [.fieldRange, .unknownRegister]
  | .build18 | .tx18 => [.fieldRange, .unknownRegister, .notANumber, .unrepresentable]
  | .parse => [.modeMismatch, .unknownRegister, .unsupportedMode]
  | .rx => [.wrongLength, .badHeader, .badLength, .modeMismatch, .unknownRegister, .unsupportedMode]
  | .msgControlCommand _ _ => [.notANumber]
  | .msgReadParam _ _ | .msgParamReadResponse _ _ => [.unknownRegister]
  | .msgWriteParam _ _ => [.unknownRegister, .notANumber, .unrepresentable]
  | .msgIdResponse _ _ => [.modeMismatch]
  | .qtemp | .unpack | .msgIdQuery _ _ | .msgStatusResponse _ _ | .msgEnable _ _ | .msgDisable _ _
  | .msgSetZero _ _ | .msgSetId _ _ | .msgFaultResponse _ _ => []
  | .regRunMode | .regIqRef | .regSpdRef | .regLimitTorque | .regCurKp | .regCurKi | .regCurFiltGain | .regLocRef
  | .regLimitSpd | .regLimitCur | .regMechPos | .regIqf | .regMechVel | .regVbus | .regRotationCount =>
    [.notANumber, .unrepresentable]

/-- A word with the marker that PACK writes (R60): what the encoder gives for the instruction it decodes to. -/
def withMarker : TableWord → TableWord
  | .opword w => .opword w
  | .canid dir w => .canid dir (BitVec.ofNat 32 (w.toNat / 8 * 8 + 4))
  | .regidx w => .regidx w

end Sys2Proof.Claims

open Sys2Proof Sys2Proof.Machine Sys2Proof.Claims

/-! ### The quantizer (spec/40_quantizer.md) -/

/-- QENC (R102) of every width that `QWIDTHS` admits and whose M(w) binary64 holds: over an admitted range whose width
does not overflow binary64, the code is the floor of the product in binary64, and no bit of it is discarded. The
arithmetic is the spec's decision D4, the parameter its D5, that no bit is discarded its derivation. -/
def Obligations.QencFloorsTheProduct : Prop :=
  ∀ (widths : List Nat) (s : State) (o : Operands) (rest : List Request),
    LoadedWith { standardRom with qwidths := widths } s o rest → GoodRange o.lo o.hi →
    isFinite (f64Sub o.hi o.lo) = true → isNaN o.value = false →
    (1 ∈ widths → ∃ raw : U8, Gives .qenc1 s rest (.raw8 raw) ∧ isFinite (product 255 o.value o.lo o.hi) = true ∧
      (raw.toNat : Int) = f64Floor (product 255 o.value o.lo o.hi)) ∧
    (2 ∈ widths → ∃ raw : U16, Gives .qenc2 s rest (.raw16 raw) ∧ isFinite (product 65535 o.value o.lo o.hi) = true ∧
      (raw.toNat : Int) = f64Floor (product 65535 o.value o.lo o.hi)) ∧
    (∀ w : U8, w.toNat ∈ widths → 1 ≤ w.toNat → w.toNat ≤ 6 → ∃ code : Nat,
      execQencWidth w s = .next (replied s rest (.ok (.raw w.toNat code))) ∧ code ≤ topCode w.toNat ∧
      isFinite (product (topCode w.toNat) o.value o.lo o.hi) = true ∧
      (code : Int) = f64Floor (product (topCode w.toNat) o.value o.lo o.hi))

/-- QENC at and beyond the ends of its range (R102's corner cases, R258): clamped, never refused, over every admitted
range. The corner cases are the spec's derivation, the admitted ranges its decision D7. -/
def Obligations.QencClampsToTheRange : Prop :=
  ∀ (s : State) (o : Operands) (rest : List Request), Loaded s o rest → GoodRange o.lo o.hi →
    (f64Le o.value o.lo = true → Gives .qenc1 s rest (.raw8 0) ∧ Gives .qenc2 s rest (.raw16 0)) ∧
    (f64Le o.hi o.value = true → Gives .qenc1 s rest (.raw8 255) ∧ Gives .qenc2 s rest (.raw16 65535))

/-- QENC is monotonic non-decreasing in its value (R104), over every admitted range, one whose width overflows binary64
too. R104 marks it as the spec's derivation; the arithmetic is its decision D4; where the product is no number the code
is free but for this property (log entry 9). -/
def Obligations.QencIsMonotonic : Prop :=
  ∀ (s t : State) (o : Operands) (value : F64) (rest : List Request), Loaded s o rest →
    Loaded t { o with value := value } rest → GoodRange o.lo o.hi → f64Le o.value value = true →
    (∃ a b : U8, Gives .qenc1 s rest (.raw8 a) ∧ Gives .qenc1 t rest (.raw8 b) ∧ a ≤ b) ∧
    (∃ a b : U16, Gives .qenc2 s rest (.raw16 a) ∧ Gives .qenc2 t rest (.raw16 b) ∧ a ≤ b)

/-- The checks of QENC and QDEC and their order (R101, R253), for the table's widths and for every other width: the width,
then the range, then the value or the code. The spec's decisions D5, D6, D7 and D9. -/
def Obligations.QuantizerChecksInOrder : Prop :=
  ∀ (widths : List Nat) (s : State) (o : Operands) (rest : List Request),
    LoadedWith { standardRom with qwidths := widths } s o rest →
    (1 ∉ widths → Refuses .qenc1 s rest .widthUnsupported ∧ Refuses .qdec1 s rest .widthUnsupported) ∧
    (2 ∉ widths → Refuses .qenc2 s rest .widthUnsupported ∧ Refuses .qdec2 s rest .widthUnsupported) ∧
    (¬ GoodRange o.lo o.hi →
      (1 ∈ widths → Refuses .qenc1 s rest .badRange ∧ Refuses .qdec1 s rest .badRange) ∧
      (2 ∈ widths → Refuses .qenc2 s rest .badRange ∧ Refuses .qdec2 s rest .badRange)) ∧
    (GoodRange o.lo o.hi → isNaN o.value = true →
      (1 ∈ widths → Refuses .qenc1 s rest .notANumber) ∧ (2 ∈ widths → Refuses .qenc2 s rest .notANumber)) ∧
    (GoodRange o.lo o.hi → 255 < o.raw.toNat → 1 ∈ widths → Refuses .qdec1 s rest .fieldRange) ∧
    (GoodRange o.lo o.hi → 65535 < o.raw.toNat → 2 ∈ widths → Refuses .qdec2 s rest .fieldRange) ∧
    (∀ w : U8,
      (w.toNat ∉ widths →
        execQencWidth w s = .next (replied s rest (.fail .widthUnsupported)) ∧
        execQdecWidth w s = .next (replied s rest (.fail .widthUnsupported))) ∧
      (w.toNat ∈ widths → ¬ GoodRange o.lo o.hi →
        execQencWidth w s = .next (replied s rest (.fail .badRange)) ∧
        execQdecWidth w s = .next (replied s rest (.fail .badRange))) ∧
      (w.toNat ∈ widths → GoodRange o.lo o.hi → isNaN o.value = true →
        execQencWidth w s = .next (replied s rest (.fail .notANumber))) ∧
      (w.toNat ∈ widths → GoodRange o.lo o.hi → topCode w.toNat < o.raw.toNat →
        execQdecWidth w s = .next (replied s rest (.fail .fieldRange))))

/-- QENC completes whatever the width of its admitted range. Where `hi -64 lo` overflows binary64 and `c -64 lo` does not,
the ratio and so the code is 0; where both overflow, the code of a value below `hi` is the model's free value (log
entry 9). -/
def Obligations.QencCompletesOnEveryRange : Prop :=
  ∀ (s : State) (o : Operands) (rest : List Request), Loaded s o rest → GoodRange o.lo o.hi →
    isNaN o.value = false →
    (∃ raw : U8, Gives .qenc1 s rest (.raw8 raw)) ∧ (∃ raw : U16, Gives .qenc2 s rest (.raw16 raw)) ∧
    (isFinite (f64Sub o.hi o.lo) = false → isFinite (f64Sub (clamped o.value o.lo o.hi) o.lo) = true →
      Gives .qenc1 s rest (.raw8 0) ∧ Gives .qenc2 s rest (.raw16 0))

/-- QDEC (R103) of every width that `QWIDTHS` admits and whose M(w) binary64 holds: `((raw /64 M) *64 (hi -64 lo)) +64 lo`
for every raw up to M. The arithmetic is the spec's decision D4, the parameter its D5. -/
def Obligations.QdecScalesTheCode : Prop :=
  ∀ (widths : List Nat) (s : State) (o : Operands) (rest : List Request),
    LoadedWith { standardRom with qwidths := widths } s o rest → GoodRange o.lo o.hi →
    (1 ∈ widths → o.raw.toNat ≤ 255 →
      Gives .qdec1 s rest (.quantity (.num (scaled 255 o.raw.toNat o.lo o.hi)))) ∧
    (2 ∈ widths → o.raw.toNat ≤ 65535 →
      Gives .qdec2 s rest (.quantity (.num (scaled 65535 o.raw.toNat o.lo o.hi)))) ∧
    (∀ w : U8, w.toNat ∈ widths → 1 ≤ w.toNat → w.toNat ≤ 6 → o.raw.toNat ≤ topCode w.toNat →
      execQdecWidth w s =
        .next (replied s rest (.ok (.quantity (.num (scaled (topCode w.toNat) o.raw.toNat o.lo o.hi))))))

/-- The ends of QDEC (R103's corner cases): over a range whose `hi -64 lo` is exact, raw 0 gives the value of lo and
raw M the value of hi. The spec's derivation. -/
def Obligations.QdecEndsAreExact : Prop :=
  ∀ (s : State) (o : Operands) (rest : List Request), Loaded s o rest → GoodRange o.lo o.hi →
    isFinite (f64Sub o.hi o.lo) = true → f64Rat (f64Sub o.hi o.lo) = f64Rat o.hi - f64Rat o.lo →
    (o.raw.toNat = 0 → ∃ v1 v2, Gives .qdec1 s rest (.quantity (.num v1)) ∧
      Gives .qdec2 s rest (.quantity (.num v2)) ∧ isFinite v1 = true ∧ f64Rat v1 = f64Rat o.lo ∧
      isFinite v2 = true ∧ f64Rat v2 = f64Rat o.lo) ∧
    (o.raw.toNat = 255 → ∃ v, Gives .qdec1 s rest (.quantity (.num v)) ∧ isFinite v = true ∧
      f64Rat v = f64Rat o.hi) ∧
    (o.raw.toNat = 65535 → ∃ v, Gives .qdec2 s rest (.quantity (.num v)) ∧ isFinite v = true ∧
      f64Rat v = f64Rat o.hi)

/-- QDEC over a ROM range lies in the range (R103's corner cases). The spec's derivation; the ranges are its decision
D38. -/
def Obligations.QdecStaysInTheRomRanges : Prop :=
  ∀ (s : State) (o : Operands) (rest : List Request) (r : Range), Loaded s o rest →
    r ∈ [pRange, vRange, tRange, kpRange, kdRange, iRange] → o.lo = r.lo → o.hi = r.hi →
    (o.raw.toNat ≤ 255 → ∃ v, Gives .qdec1 s rest (.quantity (.num v)) ∧ f64Le r.lo v = true ∧
      f64Le v r.hi = true) ∧
    (o.raw.toNat ≤ 65535 → ∃ v, Gives .qdec2 s rest (.quantity (.num v)) ∧ f64Le r.lo v = true ∧
      f64Le v r.hi = true)

/-- Exact real arithmetic (R108): QENC of every value that is no NaN is the floor of M times the exact ratio of the
clamped value, QDEC of every code is the exact value of the line, and for a value of the range decoding its code is
within one quantization step of it (R105). The parameter is the spec's decision D4. -/
def Obligations.ExactRealRoundTripWithinOneStep : Prop :=
  ∀ (s t : State) (o : Operands) (rest : List Request) (raw : U32), LoadedExact s o rest →
    LoadedExact t { o with raw := raw } rest → GoodRange o.lo o.hi →
    (isNaN o.value = false →
      (∃ code : U8, Gives .qenc1 s rest (.raw8 code) ∧ (code.toNat : Int) = (exactRatio o * 255).floor) ∧
      (∃ code : U16, Gives .qenc2 s rest (.raw16 code) ∧ (code.toNat : Int) = (exactRatio o * 65535).floor)) ∧
    (raw.toNat ≤ 255 →
      Gives .qdec1 t rest (.quantity (.exact (mkRat raw.toNat 255 * (f64Rat o.hi - f64Rat o.lo) + f64Rat o.lo)))) ∧
    (raw.toNat ≤ 65535 →
      Gives .qdec2 t rest
        (.quantity (.exact (mkRat raw.toNat 65535 * (f64Rat o.hi - f64Rat o.lo) + f64Rat o.lo)))) ∧
    (f64Le o.lo o.value = true → f64Le o.value o.hi = true →
      (∃ code : U8, Gives .qenc1 s rest (.raw8 code) ∧
        (raw.toNat = code.toNat → ∃ q, Gives .qdec1 t rest (.quantity (.exact q)) ∧
          absQ (q - f64Rat o.value) ≤ (f64Rat o.hi - f64Rat o.lo) / 255)) ∧
      (∃ code : U16, Gives .qenc2 s rest (.raw16 code) ∧
        (raw.toNat = code.toNat → ∃ q, Gives .qdec2 t rest (.quantity (.exact q)) ∧
          absQ (q - f64Rat o.value) ≤ (f64Rat o.hi - f64Rat o.lo) / 65535)))

/-- QTEMP (R106): a tenth of the code, rounded to binary64, for every code. The spec's decision D32. -/
def Obligations.QtempIsATenthOfTheCode : Prop :=
  ∀ (s : State) (o : Operands) (rest : List Request), Loaded s o rest →
    ∃ v, Gives .qtemp s rest (.temperature v) ∧ RoundedTo64 (mkRat o.rawTemp.toNat 10) v

/-- The binary64 operations round their exact result to nearest, ties to even (R13). The spec's decision D4 and its
general knowledge G3; computed as log entry 10 says. -/
def Obligations.BinaryOpsRoundToNearest : Prop :=
  ∀ x y : F64, isFinite x = true → isFinite y = true →
    RoundedTo64 (f64Rat x + f64Rat y) (f64Add x y) ∧ RoundedTo64 (f64Rat x - f64Rat y) (f64Sub x y) ∧
    RoundedTo64 (f64Rat x * f64Rat y) (f64Mul x y) ∧
    (f64Rat y ≠ 0 → RoundedTo64 (f64Rat x / f64Rat y) (f64Div x y))

/-- `toF32` rounds to nearest, ties to even, and `fromF32` is exact (R13). The spec's decision D4 and its general
knowledge G3; computed as log entry 10 says. -/
def Obligations.ConversionsRoundAndWiden : Prop :=
  (∀ x : F64, isFinite x = true → RoundedTo32 (f64Rat x) (toF32 x)) ∧
  (∀ y : F32, f32Mag y < infMag32 → isFinite (fromF32 y) = true ∧ f64Rat (fromF32 y) = f32Rat y)

/-! ### The identifier packer (spec/41_identifier.md) -/

/-- PACK (R60): the identifier word of a mode up to 31, as a number and field by field. -/
def Obligations.PackGivesTheIdentifier : Prop :=
  ∀ (s : State) (o : Operands) (rest : List Request), Loaded s o rest → o.commandMode.toNat ≤ 31 →
    ∃ w : U32, Gives .pack s rest (.identifier w) ∧
      w.toNat = identifierNumber o.commandMode o.auxField o.nodeId ∧
      w.extractLsb' 27 5 = o.commandMode.setWidth 5 ∧ w.extractLsb' 11 16 = o.auxField ∧
      w.extractLsb' 3 8 = o.nodeId ∧ w.extractLsb' 0 3 = (0b100 : BitVec 3)

/-- PACK of a mode above 31 (R121): refused under `PACK_OVERFLOW = FAULT`, the low 32 bits under `TRUNCATE`. The
spec's decision D8. -/
def Obligations.PackOfAWideMode : Prop :=
  ∀ (s : State) (o : Operands) (rest : List Request), 31 < o.commandMode.toNat →
    (Loaded s o rest → Refuses .pack s rest .fieldRange) ∧
    (LoadedWith { standardRom with packOverflow := .truncate } s o rest →
      Gives .pack s rest (.identifier (BitVec.ofNat 32 (identifierNumber o.commandMode o.auxField o.nodeId))))

/-- UNPACK (R122): every u32 is admitted, the marker bits have no effect, and the mode is at most 31. -/
def Obligations.UnpackSplitsTheIdentifier : Prop :=
  ∀ (s : State) (o : Operands) (rest : List Request), Loaded s o rest →
    ∃ (m : U8) (a : U16) (n : U8), Gives .unpack s rest (.fields m a n) ∧
      m.toNat = o.identifier.toNat / 2 ^ 27 ∧ m.toNat ≤ 31 ∧ a.toNat = o.identifier.toNat / 2 ^ 11 % 2 ^ 16 ∧
      n.toNat = o.identifier.toNat / 2 ^ 3 % 2 ^ 8

/-- The round trips of R124, both ways. The second is the spec's derivation. -/
def Obligations.PackAndUnpackAreInverse : Prop :=
  ∀ (s t : State) (o p : Operands) (rest rest' : List Request), Loaded s o rest → Loaded t p rest' →
    (o.commandMode.toNat ≤ 31 →
      ∃ w, Gives .pack s rest (.identifier w) ∧
        (p.identifier = w → Gives .unpack t rest' (.fields o.commandMode o.auxField o.nodeId))) ∧
    (∃ m a n, Gives .unpack t rest' (.fields m a n) ∧
      (o.commandMode = m → o.auxField = a → o.nodeId = n →
        Gives .pack s rest (.identifier ((p.identifier &&& 0xFFFFFFF8) ||| 0b100))))

/-- XBITS (R125): the bits lo..hi of the value, and BadBitRange outside `lo ≤ hi ≤ 31`. The refusal is the spec's
decision D30. -/
def Obligations.XbitsExtractsTheRange : Prop :=
  ∀ (s : State) (o : Operands) (rest : List Request), Loaded s o rest →
    (o.bitLo ≤ o.bitHi → o.bitHi.toNat ≤ 31 →
      ∃ field : U32, Gives .xbits s rest (.bits field) ∧
        field.toNat = o.bits.toNat / 2 ^ o.bitLo.toNat % 2 ^ (o.bitHi.toNat - o.bitLo.toNat + 1)) ∧
    (¬ (o.bitLo ≤ o.bitHi ∧ o.bitHi.toNat ≤ 31) → Refuses .xbits s rest .badBitRange)

/-! ### The framer (spec/42_frame.md) -/

/-- WRAP (R63, R140): the 17 bytes in their order, the payload padded with zero bytes at its end. The padding place is
the spec's decision D10. -/
def Obligations.WrapLaysOutTheFrame : Prop :=
  ∀ (s : State) (o : Operands) (rest : List Request), Loaded s o rest → o.commandMode.toNat ≤ 31 →
    o.wrapPayload.length ≤ 8 →
    ∃ frame, Gives .wrap s rest (.frame frame) ∧ frame.length = 17 ∧
      frame = frameOf (identifierNumber o.commandMode o.auxField o.nodeId)
        (o.wrapPayload ++ List.replicate (8 - o.wrapPayload.length) 0)

/-- The refusals of WRAP and their order (R140, R253). The spec's decisions D8 and D10. -/
def Obligations.WrapRefusesInOrder : Prop :=
  ∀ (s : State) (o : Operands) (rest : List Request), Loaded s o rest →
    (31 < o.commandMode.toNat → Refuses .wrap s rest .fieldRange) ∧
    (o.commandMode.toNat ≤ 31 → 8 < o.wrapPayload.length → Refuses .wrap s rest .badPayloadLength)

/-- UNWRAP of a frame (R141, R143): the message of its identifier and payload, whatever the identifier, its marker bits
and its mode are. -/
def Obligations.UnwrapReadsTheMessage : Prop :=
  ∀ (s : State) (o : Operands) (rest : List Request) (i3 i2 i1 i0 : Byte) (p : Bytes8), Loaded s o rest →
    o.data = [0x41, 0x54, i3, i2, i1, i0, 0x08] ++ bytesOf p ++ [0x0D, 0x0A] →
    ∃ m : RawMessage, Gives .unwrap s rest (.message m) ∧
      m.commandMode.toNat = number32 i0 i1 i2 i3 / 2 ^ 27 ∧
      m.auxField.toNat = number32 i0 i1 i2 i3 / 2 ^ 11 % 2 ^ 16 ∧
      m.nodeId.toNat = number32 i0 i1 i2 i3 / 2 ^ 3 % 2 ^ 8 ∧ m.payload = p

/-- UNWRAP fails WrongLength for any byte string whose length is not 17, whatever its content (R145). -/
def Obligations.UnwrapRefusesEveryOtherLength : Prop :=
  ∀ (s : State) (o : Operands) (rest : List Request), Loaded s o rest → o.data.length ≠ 17 →
    Refuses .unwrap s rest .wrongLength

/-- The header, terminator and length-byte checks of UNWRAP and RX on 17 bytes, in the order of R142. The order is the
spec's decision D9, RX its decision D37. -/
def Obligations.UnwrapChecksInOrder : Prop :=
  ∀ (s : State) (o : Operands) (rest : List Request), Loaded s o rest → o.data.length = 17 →
    (¬ (o.data[0]? = some 0x41 ∧ o.data[1]? = some 0x54 ∧ o.data[15]? = some 0x0D ∧ o.data[16]? = some 0x0A) →
      Refuses .unwrap s rest .badHeader ∧ Refuses .rx s rest .badHeader) ∧
    (o.data[0]? = some 0x41 → o.data[1]? = some 0x54 → o.data[15]? = some 0x0D → o.data[16]? = some 0x0A →
      o.data[6]? ≠ some 0x08 → Refuses .unwrap s rest .badLength ∧ Refuses .rx s rest .badLength)

/-- The round trips of R144: WRAP then UNWRAP is the identity on a well-formed message, and UNWRAP then WRAP gives the
accepted frame with the marker `100`. The second is the spec's derivation. -/
def Obligations.WrapAndUnwrapAreInverse : Prop :=
  ∀ (s t : State) (o p : Operands) (rest rest' : List Request) (payload : Bytes8), Loaded s o rest →
    Loaded t p rest' →
    (o.commandMode.toNat ≤ 31 → o.wrapPayload = bytesOf payload →
      ∃ frame, Gives .wrap s rest (.frame frame) ∧
        (p.data = frame → Gives .unwrap t rest' (.message
          { commandMode := o.commandMode, auxField := o.auxField, nodeId := o.nodeId, payload := payload }))) ∧
    (∀ m, Gives .unwrap t rest' (.message m) → o.commandMode = m.commandMode → o.auxField = m.auxField →
      o.nodeId = m.nodeId → o.wrapPayload = bytesOf m.payload →
      Gives .wrap s rest (.frame (p.data.set 5 ((p.data.getD 5 0 &&& 0xF8) ||| 0b100))))

/-! ### The register transcoder (spec/43_register.md) -/

/-- RLOOK over any catalogue (R163): the entry whose index it is, and UnknownRegister where there is none, never a
default. -/
def Obligations.RlookFindsTheIndex : Prop :=
  ∀ (rom : Rom) (s : State) (o : Operands) (rest : List Request), LoadedWith rom s o rest →
    (∀ e ∈ rom.regcat, e.index = o.index → (∀ e' ∈ rom.regcat, e'.index = o.index → e' = e) →
      Gives .rlook s rest (.entry e)) ∧
    ((∀ e ∈ rom.regcat, e.index ≠ o.index) → Refuses .rlook s rest .unknownRegister)

/-- RLOOK and RLOOKN over the catalogue of R161, for every `REG_INDEX` that meets its constraint (the spec's own defaults
among them: D18, log entry 12): every entry is found by its index and by its name, and nothing else is. -/
def Obligations.CatalogueIsFoundByIndexAndName : Prop :=
  ∀ (r : RegIndex) (s : State) (o : Operands) (rest : List Request), r.lawful = true →
    LoadedWith { standardRom with regIndex := r } s o rest →
    (∀ e ∈ catalogueAt r, (o.index = e.index → Gives .rlook s rest (.entry e)) ∧
      (o.name = e.name → Gives .rlookn s rest (.entry e))) ∧
    ((∀ e ∈ catalogueAt r, o.index ≠ e.index) → Refuses .rlook s rest .unknownRegister) ∧
    ((∀ e ∈ catalogueAt r, o.name ≠ e.name) → Refuses .rlookn s rest .unknownRegister)

/-- RENC (R165 to R168): the value field of every value the register's kind can hold. Domains and padding place are
the spec's decisions D20 and D21. -/
def Obligations.RencEncodesByKind : Prop :=
  ∀ (s : State) (o : Operands) (rest : List Request) (e : RegEntry) (f : Bytes4), Loaded s o rest →
    e ∈ catalogue → o.index = e.index → FieldOf e.kind o.value f → Gives .renc s rest (.regField f)

/-- The refusals of RENC and their order (R165 to R168, R253): the index, then a NaN, then a value no field of the
kind holds. The spec's decisions D9 and D21. -/
def Obligations.RencRefusesInOrder : Prop :=
  ∀ (s : State) (o : Operands) (rest : List Request), Loaded s o rest →
    ((∀ e ∈ catalogue, o.index ≠ e.index) → Refuses .renc s rest .unknownRegister) ∧
    (∀ e ∈ catalogue, o.index = e.index →
      (isNaN o.value = true → Refuses .renc s rest .notANumber) ∧
      (isNaN o.value = false → (∀ f, ¬ FieldOf e.kind o.value f) → Refuses .renc s rest .unrepresentable))

/-- RDEC (R169 to R172): every field of a catalogued register decodes by its kind, and an index of none is
UnknownRegister. The bytes read are the spec's decision D20, the free NaN its D22 and log entry 7. -/
def Obligations.RdecDecodesByKind : Prop :=
  ∀ (s : State) (o : Operands) (rest : List Request), Loaded s o rest →
    (∀ e ∈ catalogue, o.index = e.index → ∃ v, Gives .rdec s rest (.regValue v) ∧ Decodes e.kind o.field v) ∧
    ((∀ e ∈ catalogue, o.index ≠ e.index) → Refuses .rdec s rest .unknownRegister)

/-- The round trips of R173: an encoded integer and an encoded binary32 value decode to themselves, any other value of
a float register to its rounding, and a decoded field whose padding is zero and that is no NaN encodes to itself. The
spec's derivation. -/
def Obligations.RegisterRoundTrips : Prop :=
  ∀ (s t : State) (o p : Operands) (rest rest' : List Request) (e : RegEntry), Loaded s o rest → Loaded t p rest' →
    e ∈ catalogue → o.index = e.index → p.index = e.index →
    (∀ f, Gives .renc s rest (.regField f) → p.field = f → ∃ v, Gives .rdec t rest' (.regValue v) ∧
      (e.kind = .f32le → v = fromF32 (toF32 o.value) ∧
        (∀ y, isNaN32 y = false → o.value = fromF32 y → v = o.value)) ∧
      (e.kind ≠ .f32le → f64Rat v = f64Rat o.value)) ∧
    (∀ v, Gives .rdec t rest' (.regValue v) → o.value = v →
      (e.kind = .u8pad → p.field.b1 = 0 ∧ p.field.b2 = 0 ∧ p.field.b3 = 0) →
      (e.kind = .u16pad → p.field.b2 = 0 ∧ p.field.b3 = 0) →
      (e.kind = .f32le →
        isNaN32 (BitVec.ofNat 32 (number32 p.field.b0 p.field.b1 p.field.b2 p.field.b3)) = false) →
      Gives .renc s rest (.regField p.field))

/-- The REGIDX16 rows (R166 to R168; that a row runs as RENC of its index is the model's, log entry 3), for every
`REG_INDEX` that meets its constraint. -/
def Obligations.RegisterRowsEncode : Prop :=
  ∀ (r : RegIndex) (s : State) (o : Operands) (rest : List Request) (i : Instr) (e : RegEntry), r.lawful = true →
    LoadedWith { standardRom with regIndex := r } s o rest → e ∈ catalogueAt r → (i, e.index) ∈ registerRows r →
    (∀ f, FieldOf e.kind o.value f → Gives i s rest (.regField f)) ∧
    (isNaN o.value = true → Refuses i s rest .notANumber) ∧
    (isNaN o.value = false → (∀ f, ¬ FieldOf e.kind o.value f) → Refuses i s rest .unrepresentable)

/-! ### The request builders (spec/44_build.md) -/

/-- BUILD.0, BUILD.3, BUILD.4, BUILD.6 and BUILD.7 (R191, R193 to R196), for every `HOST_ID_W`: the message of a target
up to 255, and FieldRange above. The refusal is the spec's decision D12, the node its D14, the parameter its D11. -/
def Obligations.BuildHostRequests : Prop :=
  ∀ (w : Nat) (s : State) (o : Operands) (rest : List Request),
    LoadedWith { standardRom with hostIdW := w } s o rest →
    (o.targetId.toNat ≤ 255 →
      Gives .build0 s rest
        (.message (hostRequest 0 o.targetId.toNat (lowByte w o.hostId) ⟨0, 0, 0, 0, 0, 0, 0, 0⟩)) ∧
      Gives .build3 s rest
        (.message (hostRequest 3 o.targetId.toNat (lowByte w o.hostId) ⟨0, 0, 0, 0, 0, 0, 0, 0⟩)) ∧
      Gives .build4 s rest (.message (hostRequest 4 o.targetId.toNat (lowByte w o.hostId)
        ⟨if o.faultClear then 1 else 0, 0, 0, 0, 0, 0, 0, 0⟩)) ∧
      Gives .build6 s rest
        (.message (hostRequest 6 o.targetId.toNat (lowByte w o.hostId) ⟨1, 0, 0, 0, 0, 0, 0, 0⟩)) ∧
      Gives .build7 s rest
        (.message (setIdRequest o.targetId.toNat (lowByte w o.newTargetId) (lowByte w o.hostId)))) ∧
    (255 < o.targetId.toNat →
      Refuses .build0 s rest .fieldRange ∧ Refuses .build3 s rest .fieldRange ∧ Refuses .build4 s rest .fieldRange ∧
      Refuses .build6 s rest .fieldRange ∧ Refuses .build7 s rest .fieldRange)

/-- BUILD.1 (R192): the message of numbers, the torque code in aux_field and the quadruple in the payload; FieldRange
for a target above 255, then NotANumber for any NaN. The spec's decisions D4, D6, D9, D12 and D14. -/
def Obligations.BuildControlRequest : Prop :=
  ∀ (s : State) (o : Operands) (rest : List Request), Loaded s o rest →
    (o.targetId.toNat ≤ 255 → isNaN o.torque = false → PayloadNumbers o →
      Gives .build1 s rest (.message (controlRequest o))) ∧
    (255 < o.targetId.toNat → Refuses .build1 s rest .fieldRange) ∧
    (o.targetId.toNat ≤ 255 → ¬ (isNaN o.torque = false ∧ PayloadNumbers o) → Refuses .build1 s rest .notANumber)

/-- BUILD.17 (R197) and BUILD.18 (R198): the messages, and the failures in their order. The spec's decisions D9, D12,
D13, D14, D21 and D36. -/
def Obligations.BuildParamRequests : Prop :=
  ∀ (s : State) (o : Operands) (rest : List Request), Loaded s o rest →
    (o.targetId.toNat ≤ 255 → ∀ e ∈ catalogue, o.index = e.index →
      Gives .build17 s rest (.message (hostRequest 17 o.targetId.toNat (lowByte 32 o.hostId) (readIndex o.index))) ∧
      (∀ f, FieldOf e.kind o.value f →
        Gives .build18 s rest (.message (hostRequest 18 o.targetId.toNat (lowByte 32 o.hostId) (writeField o.index f)))) ∧
      (isNaN o.value = true → Refuses .build18 s rest .notANumber) ∧
      (isNaN o.value = false → (∀ f, ¬ FieldOf e.kind o.value f) → Refuses .build18 s rest .unrepresentable)) ∧
    (o.targetId.toNat ≤ 255 → (∀ e ∈ catalogue, o.index ≠ e.index) →
      Refuses .build17 s rest .unknownRegister ∧ Refuses .build18 s rest .unknownRegister) ∧
    (255 < o.targetId.toNat → Refuses .build17 s rest .fieldRange ∧ Refuses .build18 s rest .fieldRange)

/-- TX.0, TX.3, TX.4, TX.6 and TX.7 (R200): the 17-byte frame of the built message. The composite is the spec's
decision D37. -/
def Obligations.TxHostRequests : Prop :=
  ∀ (s : State) (o : Operands) (rest : List Request), Loaded s o rest → o.targetId.toNat ≤ 255 →
    Gives .tx0 s rest (.frame (messageFrame
      (hostRequest 0 o.targetId.toNat (lowByte 32 o.hostId) ⟨0, 0, 0, 0, 0, 0, 0, 0⟩))) ∧
    Gives .tx3 s rest (.frame (messageFrame
      (hostRequest 3 o.targetId.toNat (lowByte 32 o.hostId) ⟨0, 0, 0, 0, 0, 0, 0, 0⟩))) ∧
    Gives .tx4 s rest (.frame (messageFrame
      (hostRequest 4 o.targetId.toNat (lowByte 32 o.hostId) ⟨if o.faultClear then 1 else 0, 0, 0, 0, 0, 0, 0, 0⟩))) ∧
    Gives .tx6 s rest (.frame (messageFrame
      (hostRequest 6 o.targetId.toNat (lowByte 32 o.hostId) ⟨1, 0, 0, 0, 0, 0, 0, 0⟩))) ∧
    Gives .tx7 s rest (.frame (messageFrame (setIdRequest o.targetId.toNat (lowByte 32 o.newTargetId) (lowByte 32 o.hostId))))

/-- TX.1, TX.17 and TX.18 (R200): the 17-byte frame of the built message. The composite is the spec's decision D37. -/
def Obligations.TxControlAndParamRequests : Prop :=
  ∀ (s : State) (o : Operands) (rest : List Request), Loaded s o rest → o.targetId.toNat ≤ 255 →
    (isNaN o.torque = false → PayloadNumbers o → Gives .tx1 s rest (.frame (messageFrame (controlRequest o)))) ∧
    (∀ e ∈ catalogue, o.index = e.index →
      Gives .tx17 s rest (.frame (messageFrame
        (hostRequest 17 o.targetId.toNat (lowByte 32 o.hostId) (readIndex o.index)))) ∧
      (∀ f, FieldOf e.kind o.value f → Gives .tx18 s rest (.frame (messageFrame
        (hostRequest 18 o.targetId.toNat (lowByte 32 o.hostId) (writeField o.index f))))))

/-- Every TX reports the failure of its BUILD, and fails in no other way (R200, R254). The composite is the spec's
decision D37. -/
def Obligations.TxReportsTheBuildFailure : Prop :=
  ∀ (s : State) (o : Operands) (rest : List Request) (b t : Instr) (f : Failure), Loaded s o rest →
    (b, t) ∈ [(Instr.build0, Instr.tx0), (.build1, .tx1), (.build3, .tx3), (.build4, .tx4), (.build6, .tx6),
      (.build7, .tx7), (.build17, .tx17), (.build18, .tx18)] →
    (Refuses b s rest f ↔ Refuses t s rest f)

/-! ### The response parsers (spec/45_parse.md) -/

/-- PARSE of mode 0 (R222): the id and the MCU unique id of the sentinel node, ModeMismatch for any other node. That
only this check raises ModeMismatch is the spec's decision D35. -/
def Obligations.ParseIdResponse : Prop :=
  ∀ (s : State) (o : Operands) (rest : List Request), Loaded s o rest → o.commandMode = 0 →
    (o.nodeId = 0xFE → Gives .parse s rest (.typed (.id { id := o.auxField, mcuUid := o.payload }))) ∧
    (o.nodeId ≠ 0xFE → Refuses .parse s rest .modeMismatch)

/-- PARSE of mode 2 (R223 to R228) gives, of every message, the ids, the run phase, exactly the error flags whose bits
are set (R236), and the decoded quantities. The ids are the spec's decision D15, the flag map its D16 (log entry 13),
the binary64 results its D23. -/
def Obligations.ParseStatusResponse : Prop :=
  ∀ (s : State) (o : Operands) (rest : List Request), Loaded s o rest → o.commandMode = 2 →
    Gives .parse s rest (.typed (.status (statusOf o.auxField o.nodeId o.payload)))

/-- PARSE of mode 17 (R229): the entry of the index and the value its kind decodes, whatever aux_field bits 15..8 and
payload bytes 2..3 hold; UnknownRegister for an index of no entry. The ids and the unread bytes are the spec's
decisions D15 and D24. -/
def Obligations.ParseParamReadResponse : Prop :=
  ∀ (s : State) (o : Operands) (rest : List Request), Loaded s o rest → o.commandMode = 17 →
    (∀ e ∈ catalogue, number16 o.payload.b0 o.payload.b1 = e.index.toNat →
      ∃ v, Gives .parse s rest (.typed (.paramRead
          { hostId := o.nodeId, targetId := BitVec.ofNat 8 o.auxField.toNat, register := e, value := v })) ∧
        Decodes e.kind ⟨o.payload.b4, o.payload.b5, o.payload.b6, o.payload.b7⟩ v) ∧
    ((∀ e ∈ catalogue, number16 o.payload.b0 o.payload.b1 ≠ e.index.toNat) → Refuses .parse s rest .unknownRegister)

/-- PARSE of mode 21 (R230 to R234): both codes whole, has_fault, and the flags exactly when there is a fault. The ids
are the spec's decision D15, the flag map its D17 (log entry 13), NONE and error_code its D34. -/
def Obligations.ParseFaultResponse : Prop :=
  ∀ (s : State) (o : Operands) (rest : List Request), Loaded s o rest → o.commandMode = 21 →
    Gives .parse s rest (.typed (.fault (faultOf o.auxField o.nodeId o.payload)))

/-- PARSE of every other mode (R221): UnsupportedMode and no typed result. -/
def Obligations.ParseRefusesOtherModes : Prop :=
  ∀ (s : State) (o : Operands) (rest : List Request), Loaded s o rest → o.commandMode ≠ 0 → o.commandMode ≠ 2 →
    o.commandMode ≠ 17 → o.commandMode ≠ 21 → Refuses .parse s rest .unsupportedMode

/-- RX of a frame of mode 2 or 21 (R235): the typed response of the message it carries. The composite is the spec's
decision D37. -/
def Obligations.RxParsesTheFrame : Prop :=
  ∀ (s : State) (o : Operands) (rest : List Request) (m : RawMessage), Loaded s o rest → o.data = messageFrame m →
    (m.commandMode = 2 → Gives .rx s rest (.typed (.status (statusOf m.auxField m.nodeId m.payload)))) ∧
    (m.commandMode = 21 → Gives .rx s rest (.typed (.fault (faultOf m.auxField m.nodeId m.payload))))

/-- RX is UNWRAP then PARSE (R235, R254): a failure of UNWRAP is its failure, and otherwise it answers as PARSE of the
message UNWRAP gives. The composite is the spec's decision D37. -/
def Obligations.RxIsUnwrapThenParse : Prop :=
  ∀ (s t : State) (o p : Operands) (rest : List Request), Loaded s o rest → Loaded t p rest →
    t.responses = s.responses →
    (∀ f, Refuses .unwrap s rest f → Refuses .rx s rest f) ∧
    (∀ m, Gives .unwrap s rest (.message m) → p.commandMode = m.commandMode → p.auxField = m.auxField →
      p.nodeId = m.nodeId → p.payload = m.payload → exec .rx s = exec .parse t)

/-! ### The message kinds (spec/30_encoding.md R66 to R77) -/

/-- The request rows of CANID32 (R66 to R73; that a row builds with the ids of its word is the model's, log entry 3):
every word of the kind, whatever its aux field, completes with the message of the rule, or fails as its builder does:
NotANumber for a payload value or register value that is a NaN, UnknownRegister for an index of no entry, Unrepresentable
for a value that the register cannot hold. -/
def Obligations.MessageRowsBuild : Prop :=
  ∀ (s : State) (o : Operands) (rest : List Request) (aux : U16) (node : U8), Loaded s o rest →
    Gives (.msgIdQuery aux node) s rest
      (.message (hostRequest 0 node.toNat (aux.toNat % 256) ⟨0, 0, 0, 0, 0, 0, 0, 0⟩)) ∧
    Gives (.msgEnable aux node) s rest
      (.message (hostRequest 3 node.toNat (aux.toNat % 256) ⟨0, 0, 0, 0, 0, 0, 0, 0⟩)) ∧
    Gives (.msgDisable aux node) s rest
      (.message (hostRequest 4 node.toNat (aux.toNat % 256) ⟨if o.faultClear then 1 else 0, 0, 0, 0, 0, 0, 0, 0⟩)) ∧
    Gives (.msgSetZero aux node) s rest
      (.message (hostRequest 6 node.toNat (aux.toNat % 256) ⟨1, 0, 0, 0, 0, 0, 0, 0⟩)) ∧
    Gives (.msgSetId aux node) s rest (.message
      { commandMode := 7, auxField := aux, nodeId := node, payload := ⟨0, 0, 0, 0, 0, 0, 0, 0⟩ }) ∧
    (PayloadNumbers o → Gives (.msgControlCommand aux node) s rest (.message
      { commandMode := 1, auxField := aux, nodeId := node, payload := controlQuadruple o })) ∧
    (¬ PayloadNumbers o → Refuses (.msgControlCommand aux node) s rest .notANumber) ∧
    (∀ e ∈ catalogue, o.index = e.index →
      Gives (.msgReadParam aux node) s rest
        (.message (hostRequest 17 node.toNat (aux.toNat % 256) (readIndex o.index))) ∧
      (∀ f, FieldOf e.kind o.value f → Gives (.msgWriteParam aux node) s rest
        (.message (hostRequest 18 node.toNat (aux.toNat % 256) (writeField o.index f)))) ∧
      (isNaN o.value = true → Refuses (.msgWriteParam aux node) s rest .notANumber) ∧
      (isNaN o.value = false → (∀ f, ¬ FieldOf e.kind o.value f) →
        Refuses (.msgWriteParam aux node) s rest .unrepresentable)) ∧
    ((∀ e ∈ catalogue, o.index ≠ e.index) →
      Refuses (.msgReadParam aux node) s rest .unknownRegister ∧
      Refuses (.msgWriteParam aux node) s rest .unknownRegister)

/-- The response rows of CANID32 (R74 to R77; that a row parses the message of its word and the payload operand is the
model's, log entry 3). -/
def Obligations.MessageRowsParse : Prop :=
  ∀ (s : State) (o : Operands) (rest : List Request) (aux : U16) (node : U8), Loaded s o rest →
    Gives (.msgIdResponse aux 0xFE) s rest (.typed (.id { id := aux, mcuUid := o.payload })) ∧
    (node ≠ 0xFE → Refuses (.msgIdResponse aux node) s rest .modeMismatch) ∧
    Gives (.msgStatusResponse aux node) s rest (.typed (.status (statusOf aux node o.payload))) ∧
    Gives (.msgFaultResponse aux node) s rest (.typed (.fault (faultOf aux node o.payload))) ∧
    (∀ e ∈ catalogue, number16 o.payload.b0 o.payload.b1 = e.index.toNat →
      ∃ v, Gives (.msgParamReadResponse aux node) s rest (.typed (.paramRead
          { hostId := node, targetId := BitVec.ofNat 8 aux.toNat, register := e, value := v })) ∧
        Decodes e.kind ⟨o.payload.b4, o.payload.b5, o.payload.b6, o.payload.b7⟩ v) ∧
    ((∀ e ∈ catalogue, number16 o.payload.b0 o.payload.b1 ≠ e.index.toNat) →
      Refuses (.msgParamReadResponse aux node) s rest .unknownRegister)

/-! ### Decoding -/

/-- Decode and encode agree, for every `REG_INDEX` that meets its constraint and every `QWIDTHS` with the table's widths:
every instruction is decoded from its word, and for every ROM each word that decodes to an instruction is the word of that
instruction but for the marker bits, which the decoder does not read (R60, R81, R89, R123, R161). -/
def Obligations.DecodeAndEncodeAgree : Prop :=
  ∀ rom : Rom,
    (rom.regIndex.lawful = true → 1 ∈ rom.qwidths → 2 ∈ rom.qwidths →
      ∀ i : Instr, decode rom (encode rom.regIndex i) = .ok (.row i)) ∧
    (∀ (d : TableWord) (i : Instr), decode rom d = .ok (.row i) → encode rom.regIndex i = withMarker d)

/-- The OPWORDs (R81, R83) for every `QWIDTHS`: the 32 of R81 are instructions, QENC and QDEC where `QWIDTHS` admits their
width; QENC and QDEC of a width outside `QWIDTHS` are refused with WidthUnsupported, and of another admitted width run as
that width; every other OPWORD is refused with IllegalOperation. The spec's decisions D2, D5 and D25. -/
def Obligations.IllegalOpwordsAreRefused : Prop :=
  ∀ (w : U16) (s : State) (o : Operands) (rest : List Request),
    s.requests = { opword := w, operands := o } :: rest →
    (w ∈ legalOpwords → (w.toNat / 256 = 1 ∨ w.toNat / 256 = 2 → w.toNat % 256 ∈ s.rom.qwidths) →
      ∃ i, decode s.rom (.opword w) = .ok (.row i) ∧ encode s.rom.regIndex i = .opword w) ∧
    (w ∉ legalOpwords → w.toNat / 256 ≠ 1 → w.toNat / 256 ≠ 2 →
      step s = .next (replied s rest (.fail .illegalOperation))) ∧
    (w.toNat / 256 = 1 ∨ w.toNat / 256 = 2 → w.toNat % 256 ∉ s.rom.qwidths →
      step s = .next (replied s rest (.fail .widthUnsupported))) ∧
    (w ∉ legalOpwords → w.toNat % 256 ∈ s.rom.qwidths →
      (w.toNat / 256 = 1 → step s = execQencWidth (BitVec.ofNat 8 w.toNat) s) ∧
      (w.toNat / 256 = 2 → step s = execQdecWidth (BitVec.ofNat 8 w.toNat) s))

/-- A few words, written out from the encodings of R81, R60 and R161. OPWORDs are the spec's decision D2. -/
def Obligations.WrittenWordsDecode : Prop :=
  decode standardRom (.opword 0b0000000100000010) = .ok (.row .qenc2) ∧
  decode standardRom (.opword 0b0001000000000000) = .ok (.row .pack) ∧
  decode standardRom (.opword 0b0010000100000000) = .ok (.row .unwrap) ∧
  decode standardRom (.opword 0b0011001000000000) = .ok (.row .renc) ∧
  decode standardRom (.opword 0b0100000000010010) = .ok (.row .build18) ∧
  decode standardRom (.opword 0b0100000100000000) = .ok (.row .parse) ∧
  decode standardRom (.opword 0b0101000000000011) = .ok (.row .tx3) ∧
  decode standardRom (.canid .toDevice 0b10010000000001111110101111111100) = .ok (.row (.msgWriteParam 0x00FD 127)) ∧
  decode standardRom (.canid .toHost 0b00010100000001111111011111101100) = .ok (.row (.msgStatusResponse 0x80FE 0xFD)) ∧
  decode standardRom (.regidx 0b0111000000011101) = .ok (.row .regRotationCount)

/-! ### The machine -/

/-- A step runs the decoded instruction: when the OPWORD of the request in flight (R80) decodes to `i`, the step is `exec` of
`i` (and when it decodes to nothing, the step answers with the decoder's failure). -/
def Obligations.StepRunsTheDecodedInstruction : Prop :=
  ∀ (s : State) (a : Request) (rest : List Request), s.requests = a :: rest →
    (∀ i : Instr, decodeOpword s.rom a.opword = .ok (.row i) → step s = exec i s) ∧
    (∀ f, decodeOpword s.rom a.opword = .error f → step s = .next (replied s rest (.fail f)))

/-- Each request yields exactly one response, and a failure returns no result (R30, R252): every step goes on, with no
request in flight it changes nothing (the model's choice, log entry 2), and otherwise what is in flight leaves and one response
enters the record. -/
def Obligations.EveryRequestGetsOneResponse : Prop :=
  ∀ s : State,
    (s.requests = [] → step s = .next s) ∧
    (∀ a rest, s.requests = a :: rest → ∃ r : Response, step s = .next (replied s rest r))

/-- ROM has no write path (R28): no step and no instruction changes any table, in any state. -/
def Obligations.RomIsNeverWritten : Prop :=
  ∀ s t : State, (step s = .next t → t.rom = s.rom) ∧ (∀ i, exec i s = .next t → t.rom = s.rom)

/-- Reset (R34, R280): the tables of the reset state hold the contents of R23 to R27 and its parameters the values of R9,
and no transaction is in flight. The reset is the spec's decision D27, the ranges its D38, the register indices its D18
(log entry 12), the flag maps its D16 and D17 (log entry 13), the other parameters its D4, D5, D8 and D11; the empty
record is the model's (log entry 2). -/
def Obligations.ResetHoldsTheTables : Prop :=
  State.reset.requests = [] ∧ State.reset.responses = [] ∧ State.reset.rom = standardRom ∧
  State.reset.rom.quantArith = .binary64 ∧ State.reset.rom.qwidths = [1, 2] ∧
  State.reset.rom.packOverflow = .fault ∧ State.reset.rom.hostIdW = 32 ∧
  f64Rat State.reset.rom.pRange.lo = -25/2 ∧ f64Rat State.reset.rom.pRange.hi = 25/2 ∧
  f64Rat State.reset.rom.vRange.lo = -30 ∧ f64Rat State.reset.rom.vRange.hi = 30 ∧
  f64Rat State.reset.rom.tRange.lo = -12 ∧ f64Rat State.reset.rom.tRange.hi = 12 ∧
  f64Rat State.reset.rom.kpRange.lo = 0 ∧ f64Rat State.reset.rom.kpRange.hi = 500 ∧
  f64Rat State.reset.rom.kdRange.lo = 0 ∧ f64Rat State.reset.rom.kdRange.hi = 5 ∧
  f64Rat State.reset.rom.iRange.lo = -23 ∧ f64Rat State.reset.rom.iRange.hi = 23 ∧
  (∀ x ∈ [State.reset.rom.pRange, State.reset.rom.vRange, State.reset.rom.tRange, State.reset.rom.kpRange,
    State.reset.rom.kdRange, State.reset.rom.iRange], isFinite x.lo = true ∧ isFinite x.hi = true) ∧
  isFinite State.reset.rom.tempDiv = true ∧ f64Rat State.reset.rom.tempDiv = 10 ∧
  State.reset.rom.idConst = { marker := 0b100, markerW := 3, modePos := 24, auxPos := 8, nodePos := 0 } ∧
  State.reset.rom.frameConst =
    { hdr0 := 0x41, hdr1 := 0x54, lenByte := 0x08, term0 := 0x0D, term1 := 0x0A, frameLen := 17, payloadLen := 8 } ∧
  State.reset.rom.parseConst =
    { idSentinel := 0xFE, runPhase0 := .reset, runPhase1 := .calibrating, runPhase2 := .running, runPhase3 := .unknown
      statusFlagMap :=
        { undervoltage := 8, overcurrent := 9, overheat := 10, magnetic := 11, hall := 12, undefined := 13 }
      faultBitMap :=
        { motorOverheat := 0, driverChip := 1, undervoltage := 2, overvoltage := 3, encoderUncalibrated := 7
          phaseCOvercurrent := 14, phaseBOvercurrent := 15, phaseAOvercurrent := 16 } } ∧
  State.reset.rom.regcat = catalogue ∧ State.reset.rom.regIndex.lawful = true

/-- The invariant holds at reset. The reset is the spec's decision D27. -/
def Obligations.InvariantHoldsAtReset : Prop := State.reset.inv

/-- The invariant is kept by every step from every state that meets it: the tables are the spec's, and every response
is well-formed (an identifier ends in the marker, a frame has its 17 bytes and fixed bytes, a message mode is at most
31, a register is a catalogue entry, fault flags are there exactly with a fault). The record of responses is the
model's (log entry 2). -/
def Obligations.StepKeepsTheInvariant : Prop :=
  ∀ s t : State, s.inv → step s = .next t → t.inv

/-- A response is a function of its request and ROM alone (R30, R53): after `k` steps the first `k` requests are answered,
each as `respond` answers it by itself, whatever came before. That they are answered in the order of the list is the
model's choice (log entry 2). -/
def Obligations.RunAnswersEachRequestAlone : Prop :=
  ∀ (s : State) (k : Nat), k ≤ s.requests.length → ∃ rs : List Response,
    Host.Core.run Sys2Proof.core k s =
      .next { rom := s.rom, requests := s.requests.drop k, responses := s.responses ++ rs } ∧
    rs.map some = (s.requests.take k).map (respond s.rom)

/-- Transactions are independent (R53): the same requests in another order are each given the same response. Both runs
answer every request, and the pairs of a request and its response are the same in both. The channel as a list, answered
in its order, is the model's choice (log entry 2). -/
def Obligations.OrderOfRequestsDoesNotMatter : Prop :=
  ∀ s t u v : State, s.rom = t.rom → s.requests.Perm t.requests → s.responses = [] → t.responses = [] →
    Host.Core.run Sys2Proof.core s.requests.length s = .next u →
    Host.Core.run Sys2Proof.core t.requests.length t = .next v →
    u.responses.length = s.requests.length ∧ v.responses.length = t.requests.length ∧
    (s.requests.zip u.responses).Perm (t.requests.zip v.responses) ∧ u.rom = v.rom ∧ u.requests = [] ∧ v.requests = []

/-- Every failure status is raised only by the operations R250 lists for it. The codes from 0x80 are the spec's
decision D3; the rows of the wire formats follow log entry 3. -/
def Obligations.FailuresOnlyWhereListed : Prop :=
  ∀ (s t : State) (i : Instr) (f : Failure), s.rom = standardRom → exec i s = .next t →
    t.responses = s.responses ++ [.fail f] → f ∈ mayRaise i

/-- The status codes of R250, and that the undefined-input class is the codes from 0x80 (R251). The codes are the
spec's decision D3. -/
def Obligations.StatusCodesAreTheSpecs : Prop :=
  (∀ r, statusCode (.ok r) = 0x00) ∧
  [Failure.wrongLength, .badHeader, .badLength, .modeMismatch, .unknownRegister, .unsupportedMode, .illegalOperation,
    .fieldRange, .notANumber, .widthUnsupported, .unrepresentable, .badBitRange, .badPayloadLength,
    .badRange].map (fun f => statusCode (.fail f)) =
    [0x01, 0x02, 0x03, 0x04, 0x05, 0x06, 0x80, 0x81, 0x82, 0x83, 0x84, 0x85, 0x86, 0x87] ∧
  (∀ f, Response.isUndefinedInput (.fail f) = true ↔ 0x80 ≤ (statusCode (.fail f)).toNat) ∧
  (∀ r, Response.isUndefinedInput (.ok r) = false)

/-- A request pending when reset arrives gets no response, and the tables keep their contents (R282, D27). That the
record of earlier responses is kept is the model's (log entry 15). -/
def Obligations.ResetDropsPendingRequests : Prop :=
  ∀ (s : State) (k : Nat), Host.Core.run Sys2Proof.core k (applyReset s) =
    .next { rom := s.rom, requests := [], responses := s.responses }

/-- How the words of the table run (R80, R89): every request carries an OPWORD, and the request by which a word runs
(`requestOf`, the model's, log entry 3) steps as `exec` of the word's row, for every ROM (for the ControlCommand word, whose
aux_field is a torque code, with the spec's ROM). A word that names no row gets the status of R78, R79 or R85: an identifier
word towards the device of a mode without a builder IllegalOperation, one towards the host of a mode without a parser
UnsupportedMode, a register index of no entry UnknownRegister. -/
def Obligations.TableWordsRunThroughOpwords : Prop :=
  ∀ (s : State) (o : Operands) (rest : List Request),
    (∀ (word : TableWord) (i : Instr), s.requests = requestOf s.rom word o :: rest →
      decode s.rom word = .ok (.row i) → (∀ aux node, i = .msgControlCommand aux node → s.rom = standardRom) →
      step s = exec i s) ∧
    (∀ w : U32, s.requests = requestOf s.rom (.canid .toDevice w) o :: rest →
      w.toNat / 2 ^ 27 ∉ [0, 1, 3, 4, 6, 7, 17, 18] →
      step s = .next (replied s rest (.fail .illegalOperation))) ∧
    (∀ w : U32, s.requests = requestOf s.rom (.canid .toHost w) o :: rest → w.toNat / 2 ^ 27 ∉ [0, 2, 17, 21] →
      step s = .next (replied s rest (.fail .unsupportedMode))) ∧
    (∀ w : U16, s.requests = requestOf s.rom (.regidx w) o :: rest →
      (∀ e ∈ catalogueAt s.rom.regIndex, e.index ≠ w) →
      step s = .next (replied s rest (.fail .unknownRegister)))
end

