-- ==== Sys2Proof/Laws/Float.lean ====
section
/-!
SUPPORT. The rounding of Machine/Float.lean, said once: what `roundEven` and `roundMag` give, that both are monotone and
invariant under a common factor, and that a representable value rounds to itself; the order of the values and the
conversions to and from binary32 (R13).
-/

namespace Sys2Proof.Machine

/-! ### Rounding to an integer -/

/-- Everything `roundEven` can do: round down below the half, up above it, and to the even neighbour at it. -/
theorem roundEven_cases (n d : Nat) :
    (2 * (n % d) < d ∧ roundEven n d = n / d) ∨ (d < 2 * (n % d) ∧ roundEven n d = n / d + 1) ∨
    (2 * (n % d) = d ∧ roundEven n d = n / d + n / d % 2) := by
  simp only [roundEven]
  split
  · exact .inl ⟨‹_›, rfl⟩
  · split
    · exact .inr (.inl ⟨‹_›, rfl⟩)
    · exact .inr (.inr ⟨by omega, rfl⟩)

theorem le_roundEven (n d : Nat) : n / d ≤ roundEven n d := by
  rcases roundEven_cases n d with h | h | h <;> omega

theorem roundEven_le (n d : Nat) : roundEven n d ≤ n / d + 1 := by
  rcases roundEven_cases n d with h | h | h <;> omega

/-- The rounded integer is within half a denominator of the quotient. -/
theorem roundEven_close (n : Nat) {d : Nat} (hd : 0 < d) :
    2 * n ≤ 2 * (d * roundEven n d) + d ∧ 2 * (d * roundEven n d) ≤ 2 * n + d := by
  have hn := Nat.div_add_mod n d
  have hm := Nat.mod_lt n hd
  rcases roundEven_cases n d with ⟨h, hr⟩ | ⟨h, hr⟩ | ⟨h, hr⟩
  · rw [hr]; constructor <;> omega
  · rw [hr, Nat.mul_add, Nat.mul_one]; constructor <;> omega
  · rw [hr, Nat.mul_add]
    rcases Nat.mod_two_eq_zero_or_one (n / d) with h2 | h2 <;> rw [h2] <;> constructor <;> omega

theorem roundEven_mul {c : Nat} (n d : Nat) (hc : 0 < c) : roundEven (c * n) (c * d) = roundEven n d := by
  unfold roundEven
  rw [Nat.mul_div_mul_left _ _ hc, Nat.mul_mod_mul_left]
  have h1 : 2 * (c * (n % d)) < c * d ↔ 2 * (n % d) < d := by
    rw [Nat.mul_left_comm]; exact Nat.mul_lt_mul_left hc
  have h2 : c * d < 2 * (c * (n % d)) ↔ d < 2 * (n % d) := by
    rw [Nat.mul_left_comm]; exact Nat.mul_lt_mul_left hc
  simp only [h1, h2]

theorem roundEven_exact {q d : Nat} (hd : 0 < d) : roundEven (q * d) d = q := by
  unfold roundEven
  simp [hd]

theorem roundEven_mono {n n' d : Nat} (hd : 0 < d) (h : n ≤ n') : roundEven n d ≤ roundEven n' d := by
  rcases Nat.lt_or_ge (n / d) (n' / d) with hq | hq
  · have := roundEven_le n d
    have := le_roundEven n' d
    omega
  · have hq' : n / d = n' / d := Nat.le_antisymm (Nat.div_le_div_right h) hq
    have e1 := Nat.div_add_mod n d
    have e2 := Nat.div_add_mod n' d
    have hm := Nat.mod_lt n' hd
    rw [hq'] at e1
    have hr : n % d ≤ n' % d := by omega
    rcases roundEven_cases n d with ⟨a, b⟩ | ⟨a, b⟩ | ⟨a, b⟩ <;>
      rcases roundEven_cases n' d with ⟨a', b'⟩ | ⟨a', b'⟩ | ⟨a', b'⟩ <;> rw [b, b', hq'] <;> omega

/-! ### Rounding to a format -/

/-- The exponent step `roundMag` chooses. -/
theorem roundMag_eq (fb n d : Nat) :
    roundMag fb n d =
      (Nat.log2 (n / d) - fb) * 2 ^ fb + roundEven n (d * 2 ^ (Nat.log2 (n / d) - fb)) := rfl

theorem roundMag_mul {c : Nat} (fb n d : Nat) (hc : 0 < c) : roundMag fb (c * n) (c * d) = roundMag fb n d := by
  rw [roundMag_eq, roundMag_eq, Nat.mul_div_mul_left _ _ hc, Nat.mul_assoc, roundEven_mul _ _ hc]

/-- Above the subnormal range the significand has its leading bit and no more than one carry. -/
theorem roundEven_bounds (fb n d : Nat) :
    roundEven n (d * 2 ^ (Nat.log2 (n / d) - fb)) ≤ 2 ^ (fb + 1) ∧
    (fb < Nat.log2 (n / d) → 2 ^ fb ≤ roundEven n (d * 2 ^ (Nat.log2 (n / d) - fb))) := by
  have hpow : 0 < 2 ^ (Nat.log2 (n / d) - fb) := Nat.two_pow_pos _
  have hq : n / (d * 2 ^ (Nat.log2 (n / d) - fb)) = n / d / 2 ^ (Nat.log2 (n / d) - fb) :=
    (Nat.div_div_eq_div_mul _ _ _).symm
  constructor
  · refine Nat.le_trans (roundEven_le _ _) ?_
    rw [hq]
    have hlt : n / d < 2 ^ (Nat.log2 (n / d) + 1) := Nat.lt_log2_self
    refine (Nat.div_lt_iff_lt_mul hpow).2 (Nat.lt_of_lt_of_le hlt ?_)
    rw [← Nat.pow_add]
    exact Nat.pow_le_pow_right (by decide) (by omega)
  · intro h
    refine Nat.le_trans ?_ (le_roundEven _ _)
    rw [hq]
    refine (Nat.le_div_iff_mul_le hpow).2 ?_
    rw [← Nat.pow_add]
    have h0 : n / d ≠ 0 := by
      intro h0
      rw [h0] at h
      simp at h
    refine Nat.le_trans ?_ (Nat.log2_self_le h0)
    exact Nat.pow_le_pow_right (by decide) (by omega)

/-- Rounding to a format is monotone in the rational number. -/
theorem roundMag_mono {fb n d n' d' : Nat} (hd : 0 < d) (hd' : 0 < d') (h : n * d' ≤ n' * d) :
    roundMag fb n d ≤ roundMag fb n' d' := by
  rw [← roundMag_mul fb n d hd', ← roundMag_mul fb n' d' hd, Nat.mul_comm d d']
  have hD : 0 < d' * d := Nat.mul_pos hd' hd
  have hN : d' * n ≤ d * n' := by rw [Nat.mul_comm d', Nat.mul_comm d]; exact h
  generalize d' * d = D at hD ⊢
  generalize d' * n = N at hN ⊢
  generalize d * n' = N' at hN ⊢
  rw [roundMag_eq, roundMag_eq]
  have hlog : Nat.log2 (N / D) ≤ Nat.log2 (N' / D) := by
    rcases Nat.eq_zero_or_pos (N / D) with h0 | h0
    · rw [h0]; simp
    · have h1 := Nat.div_le_div_right (c := D) hN
      exact (Nat.le_log2 (by omega)).2 (Nat.le_trans (Nat.log2_self_le (by omega)) h1)
  rcases Nat.lt_or_ge (Nat.log2 (N / D) - fb) (Nat.log2 (N' / D) - fb) with hlt | hge
  · have b1 := (roundEven_bounds fb N D).1
    have b2 := (roundEven_bounds fb N' D).2 (by omega)
    have hmul : (Nat.log2 (N / D) - fb + 1) * 2 ^ fb ≤ (Nat.log2 (N' / D) - fb) * 2 ^ fb :=
      Nat.mul_le_mul_right _ hlt
    rw [Nat.add_mul, Nat.one_mul] at hmul
    rw [Nat.pow_succ] at b1
    omega
  · have he : Nat.log2 (N' / D) - fb = Nat.log2 (N / D) - fb := by omega
    rw [he]
    exact Nat.add_le_add_left (roundEven_mono (Nat.mul_pos hD (Nat.two_pow_pos _)) hN) _

/-- A representable value rounds to itself. -/
theorem roundMag_magUnits (fb mag : Nat) {d : Nat} (hd : 0 < d) : roundMag fb (magUnits fb mag * d) d = mag := by
  rw [roundMag_eq, Nat.mul_div_cancel _ hd]
  unfold magUnits
  split
  · rename_i h
    have hl : Nat.log2 mag - fb = 0 := by
      rcases Nat.eq_zero_or_pos mag with h0 | h0
      · subst h0; simp
      · have := (Nat.log2_lt (by omega)).2 h
        omega
    rw [hl, Nat.pow_zero, Nat.mul_one, Nat.zero_mul, Nat.zero_add, roundEven_exact hd]
  · rename_i h
    have hp : 0 < 2 ^ fb := Nat.two_pow_pos _
    have hk : 0 < mag / 2 ^ fb := Nat.div_pos (by omega) hp
    have hm : mag % 2 ^ fb < 2 ^ fb := Nat.mod_lt _ hp
    have hl : Nat.log2 ((2 ^ fb + mag % 2 ^ fb) * 2 ^ (mag / 2 ^ fb - 1)) = fb + (mag / 2 ^ fb - 1) := by
      have hne : (2 ^ fb + mag % 2 ^ fb) * 2 ^ (mag / 2 ^ fb - 1) ≠ 0 :=
        Nat.mul_ne_zero (by omega) (Nat.pos_iff_ne_zero.1 (Nat.two_pow_pos _))
      refine Nat.le_antisymm (Nat.lt_succ_iff.1 ((Nat.log2_lt hne).2 ?_)) ((Nat.le_log2 hne).2 ?_)
      · have : (2 ^ fb + mag % 2 ^ fb) * 2 ^ (mag / 2 ^ fb - 1) < 2 ^ (fb + 1) * 2 ^ (mag / 2 ^ fb - 1) :=
          Nat.mul_lt_mul_of_pos_right (by rw [Nat.pow_succ]; omega) (Nat.two_pow_pos _)
        rw [← Nat.pow_add] at this
        refine Nat.lt_of_lt_of_le this (Nat.pow_le_pow_right (by decide) (by omega))
      · rw [Nat.pow_add]
        exact Nat.mul_le_mul_right _ (by omega)
    rw [hl, show fb + (mag / 2 ^ fb - 1) - fb = mag / 2 ^ fb - 1 by omega, Nat.mul_assoc, Nat.mul_comm (2 ^ _) d,
      roundEven_exact (Nat.mul_pos hd (Nat.two_pow_pos _))]
    have e := Nat.div_add_mod mag (2 ^ fb)
    have e2 : (mag / 2 ^ fb - 1) * 2 ^ fb + 2 ^ fb = mag / 2 ^ fb * 2 ^ fb := by
      rw [← Nat.succ_mul]; congr 1; omega
    rw [Nat.mul_comm (mag / 2 ^ fb)] at e2
    omega

/-! ### The nearest value -/

/-- The value of the rounded magnitude: the rounded number of spacings. -/
theorem magUnits_roundMag (fb n d : Nat) :
    magUnits fb (roundMag fb n d) =
      roundEven n (d * 2 ^ (Nat.log2 (n / d) - fb)) * 2 ^ (Nat.log2 (n / d) - fb) := by
  obtain ⟨hle, hge⟩ := roundEven_bounds fb n d
  rw [roundMag_eq]
  have hge' : Nat.log2 (n / d) - fb ≠ 0 → 2 ^ fb ≤ roundEven n (d * 2 ^ (Nat.log2 (n / d) - fb)) :=
    fun h => hge (by omega)
  clear hge
  generalize roundEven n (d * 2 ^ (Nat.log2 (n / d) - fb)) = r at *
  generalize Nat.log2 (n / d) - fb = e at *
  have hp : 0 < 2 ^ fb := Nat.two_pow_pos _
  rw [Nat.pow_succ] at hle
  rcases Nat.lt_or_ge r (2 ^ fb) with h1 | h1
  · have he : e = 0 := by
      apply Classical.byContradiction
      intro h
      have := hge' h
      omega
    subst he
    rw [Nat.zero_mul, Nat.zero_add, magUnits, if_pos h1, Nat.pow_zero, Nat.mul_one]
  · have hne : ¬ e * 2 ^ fb + r < 2 ^ fb := by
      have := Nat.zero_le (e * 2 ^ fb)
      omega
    rw [magUnits, if_neg hne]
    rcases Nat.lt_or_ge r (2 * 2 ^ fb) with h2 | h2
    · have hr : e * 2 ^ fb + r = 2 ^ fb * (e + 1) + (r - 2 ^ fb) := by
        rw [Nat.mul_comm e, Nat.mul_add]; omega
      have hdiv : (e * 2 ^ fb + r) / 2 ^ fb = e + 1 := by
        rw [hr, Nat.mul_add_div hp, Nat.div_eq_of_lt (by omega), Nat.add_zero]
      have hmod : (e * 2 ^ fb + r) % 2 ^ fb = r - 2 ^ fb := by
        rw [hr, Nat.mul_add_mod, Nat.mod_eq_of_lt (by omega)]
      rw [hdiv, hmod, Nat.add_sub_cancel, Nat.add_sub_cancel' h1]
    · have hr2 : r = 2 * 2 ^ fb := by omega
      have hr : e * 2 ^ fb + r = 2 ^ fb * (e + 2) := by
        rw [Nat.mul_comm e, Nat.mul_add, hr2]; omega
      have hdiv : (e * 2 ^ fb + r) / 2 ^ fb = e + 2 := by rw [hr, Nat.mul_div_cancel_left _ hp]
      have hmod : (e * 2 ^ fb + r) % 2 ^ fb = 0 := by rw [hr, Nat.mul_mod_right]
      rw [hdiv, hmod, Nat.add_zero, hr2, show e + 2 - 1 = e + 1 by omega, Nat.pow_succ]
      rw [Nat.mul_comm 2 (2 ^ fb), Nat.mul_assoc, Nat.mul_comm 2]

/-- A magnitude whose exponent step is at least `e` is a whole number of spacings of `2^e`. -/
theorem magUnits_spacing (fb z e : Nat) (h : 2 ^ fb * 2 ^ e ≤ magUnits fb z) : ∃ q, magUnits fb z = q * 2 ^ e := by
  have hp : 0 < 2 ^ fb := Nat.two_pow_pos _
  unfold magUnits at h ⊢
  split at h
  · rename_i h1
    rcases Nat.eq_zero_or_pos e with he | he
    · subst he; rw [if_pos h1]; exact ⟨z, by simp⟩
    · exfalso
      have : 2 ^ fb * 1 ≤ 2 ^ fb * 2 ^ e := Nat.mul_le_mul_left _ (Nat.two_pow_pos e)
      omega
  · rename_i h1
    rw [if_neg h1]
    have hm : z % 2 ^ fb < 2 ^ fb := Nat.mod_lt _ hp
    have hk : e ≤ z / 2 ^ fb - 1 := by
      apply Classical.byContradiction
      intro hc
      have h2 : (2 ^ fb + z % 2 ^ fb) * 2 ^ (z / 2 ^ fb - 1) < 2 ^ (fb + 1) * 2 ^ (z / 2 ^ fb - 1) :=
        Nat.mul_lt_mul_of_pos_right (by rw [Nat.pow_succ]; omega) (Nat.two_pow_pos _)
      have h3 : 2 ^ (fb + 1) * 2 ^ (z / 2 ^ fb - 1) ≤ 2 ^ fb * 2 ^ e := by
        rw [← Nat.pow_add, ← Nat.pow_add]
        exact Nat.pow_le_pow_right (by decide) (by omega)
      omega
    refine ⟨(2 ^ fb + z % 2 ^ fb) * 2 ^ (z / 2 ^ fb - 1 - e), ?_⟩
    rw [Nat.mul_assoc, ← Nat.pow_add]
    congr 2
    omega

/-- `roundEven` gives the nearest integer, and an even one at a tie. -/
theorem roundEven_nearest (n q : Nat) {d : Nat} (hd : 0 < d) :
    ((d * roundEven n d : Int) - n).natAbs ≤ ((d * q : Int) - n).natAbs ∧
    (((d * roundEven n d : Int) - n).natAbs = ((d * q : Int) - n).natAbs → roundEven n d ≠ q →
      roundEven n d % 2 = 0) := by
  have hn := Nat.div_add_mod n d
  have hm := Nat.mod_lt n hd
  have hcases := roundEven_cases n d
  generalize roundEven n d = r at hcases ⊢
  generalize n / d = k at hcases hn
  generalize n % d = m at hcases hn hm
  have hc : (d : Int) * k + m = n := by exact_mod_cast hn
  have below : q < k → (d : Int) * q + d ≤ (d : Int) * k := fun hq => by
    have := Nat.mul_le_mul_left d hq
    rw [Nat.mul_succ] at this
    exact_mod_cast this
  have above : k < q → (d : Int) * k + d ≤ (d : Int) * q := fun hq => by
    have := Nat.mul_le_mul_left d hq
    rw [Nat.mul_succ] at this
    exact_mod_cast this
  have above2 : k + 1 < q → (d : Int) * k + d + d ≤ (d : Int) * q := fun hq => by
    have := Nat.mul_le_mul_left d hq
    rw [Nat.mul_succ, Nat.mul_succ] at this
    exact_mod_cast this
  have up : ((k + 1 : Nat) : Int) = (k : Int) + 1 := rfl
  rcases hcases with ⟨a, rfl⟩ | ⟨a, rfl⟩ | ⟨a, b⟩
  · rcases Nat.lt_trichotomy q r with hq | rfl | hq
    · have := below hq; omega
    · exact ⟨Nat.le_refl _, fun _ h => absurd rfl h⟩
    · have := above hq; omega
  · rw [up, Int.mul_add, Int.mul_one]
    rcases Nat.lt_trichotomy q k with hq | rfl | hq
    · have := below hq; omega
    · omega
    · have := above hq
      refine ⟨by omega, fun _ h4 => ?_⟩
      have := above2 (by omega)
      omega
  · rcases Nat.mod_two_eq_zero_or_one k with h2 | h2
    · rw [h2, Nat.add_zero] at b
      subst b
      refine ⟨?_, fun _ _ => h2⟩
      rcases Nat.lt_trichotomy q r with hq | rfl | hq
      · have := below hq; omega
      · omega
      · have := above hq; omega
    · rw [h2] at b
      subst b
      refine ⟨?_, fun _ _ => by omega⟩
      rw [up, Int.mul_add, Int.mul_one]
      rcases Nat.lt_trichotomy q k with hq | rfl | hq
      · have := below hq; omega
      · omega
      · have := above hq; omega

/-- Rounding to a format gives the nearest value of the format, and at a tie one with an even last bit. -/
theorem roundMag_nearest {fb : Nat} (hfb : 0 < fb) (n z : Nat) {d : Nat} (hd : 0 < d) :
    ((d * magUnits fb (roundMag fb n d) : Int) - n).natAbs ≤ ((d * magUnits fb z : Int) - n).natAbs ∧
    (((d * magUnits fb (roundMag fb n d) : Int) - n).natAbs = ((d * magUnits fb z : Int) - n).natAbs →
      magUnits fb (roundMag fb n d) ≠ magUnits fb z → roundMag fb n d % 2 = 0) := by
  have hb := (roundEven_bounds fb n d).2
  have hbig : fb < Nat.log2 (n / d) → d * 2 ^ (Nat.log2 (n / d) - fb) * 2 ^ fb ≤ n := fun h => by
    have h0 : n / d ≠ 0 := by
      intro h0
      rw [h0] at h
      simp at h
    have h1 := Nat.mul_le_mul_left d (Nat.log2_self_le h0)
    have h2 := Nat.mul_div_le n d
    rw [Nat.mul_assoc, ← Nat.pow_add, Nat.sub_add_cancel (Nat.le_of_lt h)]
    omega
  rw [magUnits_roundMag, roundMag_eq]
  have hpos : 0 < d * 2 ^ (Nat.log2 (n / d) - fb) := Nat.mul_pos hd (Nat.two_pow_pos _)
  have near := fun q => roundEven_nearest n q hpos
  have hsp := magUnits_spacing fb z (Nat.log2 (n / d) - fb)
  have hbig' : Nat.log2 (n / d) - fb ≠ 0 → d * 2 ^ (Nat.log2 (n / d) - fb) * 2 ^ fb ≤ n := fun h => hbig (by omega)
  generalize hr : roundEven n (d * 2 ^ (Nat.log2 (n / d) - fb)) = r at near ⊢
  generalize Nat.log2 (n / d) - fb = e at *
  have hcast : ∀ q : Nat, (d : Int) * ((q * 2 ^ e : Nat) : Int) = ((d * 2 ^ e : Nat) : Int) * (q : Int) := fun q => by
    rw [← Int.natCast_mul, ← Int.natCast_mul, Nat.mul_comm q, Nat.mul_assoc]
  have hpar : r % 2 = 0 → (e * 2 ^ fb + r) % 2 = 0 := fun h => by
    obtain ⟨k, rfl⟩ : ∃ k, fb = k + 1 := ⟨fb - 1, by omega⟩
    rw [Nat.pow_succ, ← Nat.mul_assoc]
    omega
  rw [hcast]
  by_cases hq : ∃ q, magUnits fb z = q * 2 ^ e
  · obtain ⟨q, hq⟩ := hq
    rw [hq, hcast]
    refine ⟨(near q).1, fun h1 h2 => hpar ((near q).2 h1 fun h => h2 (by rw [h]))⟩
  · have hlt : magUnits fb z < 2 ^ fb * 2 ^ e := Nat.lt_of_not_le fun h => hq (hsp h)
    have he : e ≠ 0 := by
      rintro rfl
      exact hq ⟨magUnits fb z, by simp⟩
    have h1 := hbig' he
    have h2 := (near (2 ^ fb)).1
    have h3 : d * magUnits fb z < d * 2 ^ e * 2 ^ fb := by
      rw [Nat.mul_assoc, Nat.mul_comm (2 ^ e)]
      exact (Nat.mul_lt_mul_left hd).2 hlt
    have h4 : ((d * 2 ^ e : Nat) : Int) * ((2 ^ fb : Nat) : Int) ≤ n := by exact_mod_cast h1
    have h5 : (d : Int) * (magUnits fb z : Int) < ((d * 2 ^ e : Nat) : Int) * ((2 ^ fb : Nat) : Int) := by
      exact_mod_cast h3
    generalize ((d * 2 ^ e : Nat) : Int) * ((2 ^ fb : Nat) : Int) = A at h2 h4 h5
    omega

/-! ### The fields of a pattern -/

theorem f64Of_toNat (neg : Bool) {mag : Nat} (h : mag < 2 ^ 63) :
    (f64Of neg mag).toNat = (if neg then 2 ^ 63 + mag else mag) := by
  unfold f64Of
  rw [BitVec.toNat_ofNat, Nat.mod_eq_of_lt]
  split <;> omega

@[simp] theorem f64Mag_f64Of (neg : Bool) {mag : Nat} (h : mag < 2 ^ 63) : f64Mag (f64Of neg mag) = mag := by
  unfold f64Mag
  rw [f64Of_toNat neg h]
  cases neg <;> simp <;> omega

@[simp] theorem f64Neg_f64Of (neg : Bool) {mag : Nat} (h : mag < 2 ^ 63) : f64Neg (f64Of neg mag) = neg := by
  unfold f64Neg
  rw [BitVec.msb_eq_decide, f64Of_toNat neg h]
  cases neg
  · simp; omega
  · simp

theorem f64Mag_lt (x : F64) : f64Mag x < 2 ^ 63 := Nat.mod_lt _ (by decide)

/-- A pattern is its sign and its magnitude. -/
theorem f64Of_fields (x : F64) : f64Of (f64Neg x) (f64Mag x) = x := by
  apply BitVec.eq_of_toNat_eq
  rw [f64Of_toNat _ (f64Mag_lt x)]
  have hx := x.isLt
  unfold f64Neg f64Mag
  rw [BitVec.msb_eq_decide]
  by_cases h : 2 ^ (64 - 1) ≤ x.toNat
  · rw [decide_eq_true h, if_pos rfl]; omega
  · rw [decide_eq_false h, if_neg Bool.false_ne_true]; omega

theorem infMag64_lt : infMag64 < 2 ^ 63 := by decide

theorem isNaN_nan64 (b : NanBits64) : isNaN (nan64 b) = true := by
  have hb := b.2.isLt
  have hlt : infMag64 + (b.2.val + 1) < 2 ^ 63 := by unfold infMag64; omega
  unfold isNaN nan64
  rw [f64Mag_f64Of _ hlt]
  simp

/-- A value is exactly one of NaN, infinity and finite. -/
theorem f64_classes (x : F64) :
    (isNaN x = true ∧ isInf x = false ∧ isFinite x = false) ∨
    (isNaN x = false ∧ isInf x = true ∧ isFinite x = false) ∨
    (isNaN x = false ∧ isInf x = false ∧ isFinite x = true) := by
  unfold isNaN isInf isFinite
  rcases Nat.lt_trichotomy (f64Mag x) infMag64 with h | h | h
  · refine .inr (.inr ⟨?_, ?_, ?_⟩) <;> simp <;> omega
  · refine .inr (.inl ⟨?_, ?_, ?_⟩) <;> simp <;> omega
  · refine .inl ⟨?_, ?_, ?_⟩ <;> simp <;> omega

/-- Rounding never gives a NaN. -/
theorem isNaN_round64 (neg : Bool) (n d : Nat) : isNaN (round64 neg n d) = false := by
  have hlt : min (roundMag 52 n d) infMag64 < 2 ^ 63 := Nat.lt_of_le_of_lt (Nat.min_le_right _ _) infMag64_lt
  unfold isNaN round64
  rw [f64Mag_f64Of _ hlt]
  simp

/-- A finite magnitude rounds to itself. -/
theorem round64_magUnits (neg : Bool) {mag d : Nat} (hd : 0 < d) (h : mag ≤ infMag64) :
    round64 neg (magUnits 52 mag * d) d = f64Of neg mag := by
  rw [round64, roundMag_magUnits 52 mag hd, Nat.min_eq_left h]

/-! ### Exact values -/

theorem one64_pos : 0 < one64 := by decide +kernel

theorem unit32_pos : 0 < unit32 := by decide +kernel

/-- A number with at most one bit more than the fraction has, times a power of two, is representable. -/
theorem exists_mag (fb m k : Nat) (h : m < 2 ^ (fb + 1)) :
    ∃ mag, magUnits fb mag = m * 2 ^ k ∧ mag < (k + 2) * 2 ^ fb := by
  have hp : 0 < 2 ^ fb := Nat.two_pow_pos _
  rcases Nat.lt_or_ge (m * 2 ^ k) (2 ^ fb) with hs | hs
  · refine ⟨m * 2 ^ k, by rw [magUnits, if_pos hs], Nat.lt_of_lt_of_le hs ?_⟩
    exact Nat.le_mul_of_pos_left _ (by omega)
  · have hm : m ≠ 0 := by intro h0; subst h0; simp at hs
    have hl : Nat.log2 m ≤ fb := by
      have := (Nat.log2_lt hm).2 h
      omega
    have hkl : fb ≤ Nat.log2 m + k := by
      have h1 : m * 2 ^ k < 2 ^ (Nat.log2 m + 1 + k) := by
        rw [Nat.pow_add]; exact Nat.mul_lt_mul_of_pos_right Nat.lt_log2_self (Nat.two_pow_pos _)
      have h2 := (Nat.pow_lt_pow_iff_right (by decide : 1 < 2)).1 (Nat.lt_of_le_of_lt hs h1)
      omega
    have hlo : 2 ^ fb ≤ m * 2 ^ (fb - Nat.log2 m) := by
      have := Nat.mul_le_mul_right (2 ^ (fb - Nat.log2 m)) (Nat.log2_self_le hm)
      rwa [← Nat.pow_add, Nat.add_sub_cancel' hl] at this
    have hhi : m * 2 ^ (fb - Nat.log2 m) < 2 * 2 ^ fb := by
      have := Nat.mul_lt_mul_of_pos_right (Nat.lt_log2_self (n := m)) (Nat.two_pow_pos (fb - Nat.log2 m))
      rwa [← Nat.pow_add, show Nat.log2 m + 1 + (fb - Nat.log2 m) = fb + 1 by omega, Nat.pow_succ,
        Nat.mul_comm _ 2] at this
    generalize hM : m * 2 ^ (fb - Nat.log2 m) = M at hlo hhi
    have hdiv : ((Nat.log2 m + k - fb + 1) * 2 ^ fb + (M - 2 ^ fb)) / 2 ^ fb = Nat.log2 m + k - fb + 1 := by
      rw [Nat.mul_comm, Nat.mul_add_div hp, Nat.div_eq_of_lt (by omega), Nat.add_zero]
    have hmod : ((Nat.log2 m + k - fb + 1) * 2 ^ fb + (M - 2 ^ fb)) % 2 ^ fb = M - 2 ^ fb := by
      rw [Nat.mul_comm, Nat.mul_add_mod, Nat.mod_eq_of_lt (by omega)]
    have hge : ¬ (Nat.log2 m + k - fb + 1) * 2 ^ fb + (M - 2 ^ fb) < 2 ^ fb := by
      have := Nat.le_mul_of_pos_left (2 ^ fb) (show 0 < Nat.log2 m + k - fb + 1 by omega)
      omega
    refine ⟨(Nat.log2 m + k - fb + 1) * 2 ^ fb + (M - 2 ^ fb), ?_, ?_⟩
    · rw [magUnits, if_neg hge, hdiv, hmod, Nat.add_sub_cancel' hlo, ← hM, Nat.mul_assoc, ← Nat.pow_add]
      congr 2
      omega
    · have : (Nat.log2 m + k - fb + 2) * 2 ^ fb ≤ (k + 2) * 2 ^ fb := Nat.mul_le_mul_right _ (by omega)
      rw [Nat.add_mul] at this ⊢
      omega

/-- Magnitude bits are ordered as the values they stand for. -/
theorem magUnits_lt {fb a b : Nat} : magUnits fb a < magUnits fb b ↔ a < b := by
  have key : ∀ {a b}, magUnits fb a ≤ magUnits fb b → a ≤ b := fun {a b} h => by
    have := roundMag_mono (fb := fb) (d := 1) (d' := 1) (by decide) (by decide)
      (by omega : magUnits fb a * 1 * 1 ≤ magUnits fb b * 1 * 1)
    rwa [roundMag_magUnits fb a (by decide), roundMag_magUnits fb b (by decide)] at this
  constructor
  · intro h
    rcases Nat.lt_or_ge a b with h1 | h1
    · exact h1
    · have h2 := key (Nat.le_of_lt h)
      have : a = b := by omega
      subst this; omega
  · intro h
    rcases Nat.lt_or_ge (magUnits fb a) (magUnits fb b) with h1 | h1
    · exact h1
    · have := key h1; omega

/-- Rounding a finite number of units that is representable is exact. -/
theorem round64_exact (neg : Bool) {m k : Nat} (hm : m < 2 ^ 53) (hk : k ≤ 2044) :
    ∃ mag, magUnits 52 mag = m * 2 ^ k ∧ mag < infMag64 ∧ round64 neg (m * 2 ^ k) 1 = f64Of neg mag := by
  obtain ⟨mag, h1, h2⟩ := exists_mag 52 m k hm
  have h3 : mag < infMag64 := by unfold infMag64; omega
  refine ⟨mag, h1, h3, ?_⟩
  have := round64_magUnits neg (d := 1) (by decide) (Nat.le_of_lt h3)
  rwa [Nat.mul_one, h1] at this

theorem f64Units_f64Of (neg : Bool) {mag : Nat} (h : mag < 2 ^ 63) :
    f64Units (f64Of neg mag) = if neg then -(magUnits 52 mag : Int) else (magUnits 52 mag : Int) := by
  rw [f64Units, f64Neg_f64Of neg h, f64Mag_f64Of neg h]

theorem isFinite_f64Of (neg : Bool) {mag : Nat} (h : mag < infMag64) : isFinite (f64Of neg mag) = true := by
  rw [isFinite, f64Mag_f64Of neg (Nat.lt_trans h infMag64_lt)]
  simpa using h

/-- A natural number below `2^53` is exact (R13). -/
theorem f64OfNat_exact {n : Nat} (h : n < 2 ^ 53) :
    isFinite (f64OfNat n) = true ∧ f64Neg (f64OfNat n) = false ∧ f64Units (f64OfNat n) = (n : Int) * (one64 : Int) := by
  obtain ⟨mag, h1, h2, h3⟩ := round64_exact false (k := 1074) h (by decide)
  have h4 := Nat.lt_trans h2 infMag64_lt
  rw [f64OfNat, one64, h3]
  refine ⟨isFinite_f64Of _ h2, f64Neg_f64Of _ h4, ?_⟩
  rw [f64Units_f64Of _ h4, h1, if_neg Bool.false_ne_true]
  exact Int.natCast_mul _ _

/-! ### Order -/

theorem f64Units_lt {x y : F64} : f64Units x < f64Units y ↔ f64Key x < f64Key y := by
  have h0 : ∀ m, magUnits 52 m = 0 ↔ m = 0 := fun m => by
    have h1 := @magUnits_lt 52 0 m
    have h2 : magUnits 52 0 = 0 := rfl
    omega
  have h1 := @magUnits_lt 52 (f64Mag x) (f64Mag y)
  have h2 := @magUnits_lt 52 (f64Mag y) (f64Mag x)
  have h3 := h0 (f64Mag x)
  have h4 := h0 (f64Mag y)
  unfold f64Units f64Key
  split <;> split <;> omega

/-- `<` of finite values is the order of their units (R13). -/
theorem f64Lt_finite {x y : F64} (hx : isFinite x = true) (hy : isFinite y = true) :
    f64Lt x y = true ↔ f64Units x < f64Units y := by
  have h1 : isNaN x = false := by rcases f64_classes x with h | h | h <;> simp_all
  have h2 : isNaN y = false := by rcases f64_classes y with h | h | h <;> simp_all
  rw [f64Units_lt]
  simp [f64Lt, h1, h2]

theorem f64Le_finite {x y : F64} (hx : isFinite x = true) (hy : isFinite y = true) :
    f64Le x y = true ↔ f64Units x ≤ f64Units y := by
  have h1 : isNaN x = false := by rcases f64_classes x with h | h | h <;> simp_all
  have h2 : isNaN y = false := by rcases f64_classes y with h | h | h <;> simp_all
  have h3 := @f64Units_lt y x
  simp only [f64Le, h1, h2, Bool.not_false, Bool.true_and, decide_eq_true_eq]
  omega

/-- `≤` of values that are no NaN is the negation of `>`. -/
theorem f64Le_trans {x y z : F64} (hxy : f64Le x y = true) (hyz : f64Le y z = true) : f64Le x z = true := by
  simp only [f64Le, Bool.and_eq_true, decide_eq_true_eq] at hxy hyz ⊢
  exact ⟨⟨hxy.1.1, hyz.1.2⟩, Int.le_trans hxy.2 hyz.2⟩

theorem f64Le_eq_not_lt {x y : F64} (hx : isNaN x = false) (hy : isNaN y = false) : f64Le x y = !f64Lt y x := by
  rw [Bool.eq_iff_iff]
  simp [f64Le, f64Lt, hx, hy]

/-! ### Conversions -/

theorem f32Of_toNat (neg : Bool) {mag : Nat} (h : mag < 2 ^ 31) :
    (f32Of neg mag).toNat = (if neg then 2 ^ 31 + mag else mag) := by
  unfold f32Of
  rw [BitVec.toNat_ofNat, Nat.mod_eq_of_lt]
  split <;> omega

theorem f32Mag_f32Of (neg : Bool) {mag : Nat} (h : mag < 2 ^ 31) : f32Mag (f32Of neg mag) = mag := by
  unfold f32Mag
  rw [f32Of_toNat neg h]
  cases neg
  · simp; omega
  · simp; omega

theorem f32Neg_f32Of (neg : Bool) {mag : Nat} (h : mag < 2 ^ 31) : f32Neg (f32Of neg mag) = neg := by
  unfold f32Neg
  rw [BitVec.msb_eq_decide, f32Of_toNat neg h]
  cases neg
  · simp; omega
  · simp

theorem f32Mag_lt (y : F32) : f32Mag y < 2 ^ 31 := Nat.mod_lt _ (by decide)

theorem f32Of_fields (y : F32) : f32Of (f32Neg y) (f32Mag y) = y := by
  apply BitVec.eq_of_toNat_eq
  rw [f32Of_toNat _ (f32Mag_lt y)]
  have hy := y.isLt
  unfold f32Neg f32Mag
  rw [BitVec.msb_eq_decide]
  by_cases h : 2 ^ (32 - 1) ≤ y.toNat
  · rw [decide_eq_true h, if_pos rfl]; omega
  · rw [decide_eq_false h, if_neg Bool.false_ne_true]; omega

/-- Everything `fromF32` gives: some NaN for a NaN pattern, the infinity for an infinity, and otherwise the same sign and
exactly the same value (R13, R171). -/
theorem fromF32_cases (y : F32) :
    (isNaN32 y = true ∧ isNaN (fromF32 y) = true) ∨
    (isInf32 y = true ∧ isNaN32 y = false ∧ fromF32 y = f64Of (f32Neg y) infMag64) ∨
    (f32Mag y < infMag32 ∧ isNaN32 y = false ∧ isInf32 y = false ∧ isFinite (fromF32 y) = true ∧
      f64Neg (fromF32 y) = f32Neg y ∧
      magUnits 52 (f64Mag (fromF32 y)) = magUnits 23 (f32Mag y) * unit32) := by
  rcases Nat.lt_trichotomy (f32Mag y) infMag32 with h | h | h
  · refine .inr (.inr ⟨h, ?_⟩)
    have hn : isNaN32 y = false := by simp [isNaN32]; omega
    have hi : isInf32 y = false := by simp [isInf32]; omega
    refine ⟨hn, hi, ?_⟩
    have hs : ∃ m k, m < 2 ^ 53 ∧ k ≤ 2044 ∧ magUnits 23 (f32Mag y) * unit32 = m * 2 ^ k := by
      unfold magUnits unit32
      have hm : f32Mag y % 2 ^ 23 < 2 ^ 23 := Nat.mod_lt _ (by decide)
      unfold infMag32 at h
      split
      · exact ⟨_, _, by omega, by decide, rfl⟩
      · refine ⟨2 ^ 23 + f32Mag y % 2 ^ 23, f32Mag y / 2 ^ 23 - 1 + 925, by omega, by omega, ?_⟩
        rw [Nat.mul_assoc, ← Nat.pow_add]
    obtain ⟨m, k, hm, hk, e⟩ := hs
    obtain ⟨mag, e1, h2, e3⟩ := round64_exact (f32Neg y) hm hk
    have h4 := Nat.lt_trans h2 infMag64_lt
    have ef : fromF32 y = f64Of (f32Neg y) mag := by
      rw [fromF32, if_neg (by simp [hn]), if_neg (by simp [hi]), e, e3]
    rw [ef, e, f64Mag_f64Of _ h4, f64Neg_f64Of _ h4]
    exact ⟨isFinite_f64Of _ h2, rfl, e1⟩
  · have hn : isNaN32 y = false := by simp [isNaN32]; omega
    have hi : isInf32 y = true := by simp [isInf32, h]
    exact .inr (.inl ⟨hi, hn, by rw [fromF32, if_neg (by simp [hn]), if_pos hi]⟩)
  · have hn : isNaN32 y = true := by simp [isNaN32, h]
    exact .inl ⟨hn, by rw [fromF32, if_pos hn]; exact isNaN_nan64 _⟩

/-- Widening then narrowing gives the same pattern, for every pattern that is no NaN (R173). -/
theorem toF32_fromF32 {y : F32} (hy : isNaN32 y = false) : toF32 (fromF32 y) = y := by
  have hm := f32Mag_lt y
  rcases fromF32_cases y with ⟨h, _⟩ | ⟨hi, _, e⟩ | ⟨hlt, _, _, hf, hs, hu⟩
  · simp [h] at hy
  · have hi' : f32Mag y = infMag32 := by simpa [isInf32] using hi
    have h1 : isNaN (f64Of (f32Neg y) infMag64) = false := by
      rw [isNaN, f64Mag_f64Of _ infMag64_lt]; simp
    have h2 : isInf (f64Of (f32Neg y) infMag64) = true := by
      rw [isInf, f64Mag_f64Of _ infMag64_lt]; simp
    rw [e, toF32, if_neg (by simp [h1]), if_pos h2, f64Neg_f64Of _ infMag64_lt, ← hi', f32Of_fields]
  · have h1 : isNaN (fromF32 y) = false := by rcases f64_classes (fromF32 y) with h | h | h <;> simp_all
    have h2 : isInf (fromF32 y) = false := by rcases f64_classes (fromF32 y) with h | h | h <;> simp_all
    rw [toF32, if_neg (by simp [h1]), if_neg (by simp [h2]), hs, hu, roundMag_magUnits 23 _ unit32_pos,
      Nat.min_eq_left (Nat.le_of_lt hlt), f32Of_fields]

end Sys2Proof.Machine
end

