-- ==== Sys2Proof/Laws/Arithmetic.lean ====
section
/-! SUPPORT. What the binary64 operations give on finite values, and their order on non-negative ones (R13). -/

namespace Sys2Proof.Machine

/-! ### Operations on non-negative values -/

/-- The number of units of the magnitude. -/
theorem f64Units_nonneg {x : F64} (h : 0 ≤ f64Key x) : f64Units x = (magUnits 52 (f64Mag x) : Int) := by
  unfold f64Key at h
  unfold f64Units
  split at h
  · have h0 : f64Mag x = 0 := by omega
    rw [h0]; simp [magUnits]
  · rename_i hn; rw [if_neg hn]

theorem f64Key_f64Of (neg : Bool) {mag : Nat} (h : mag < 2 ^ 63) (h0 : neg = true → mag = 0) :
    f64Key (f64Of neg mag) = (mag : Int) := by
  rw [f64Key, f64Neg_f64Of neg h, f64Mag_f64Of neg h]
  cases neg
  · simp
  · simp [h0 rfl]

theorem roundMag_zero (fb : Nat) {d : Nat} (hd : 0 < d) : roundMag fb 0 d = 0 := by
  have := roundMag_magUnits fb 0 hd
  simpa [magUnits] using this

theorem min_infMag64_lt (m : Nat) : min m infMag64 < 2 ^ 63 :=
  Nat.lt_of_le_of_lt (Nat.min_le_right _ _) infMag64_lt

theorem f64Key_round64 (neg : Bool) (n : Nat) {d : Nat} (hd : 0 < d) (h0 : neg = true → n = 0) :
    f64Key (round64 neg n d) = (min (roundMag 52 n d) infMag64 : Nat) := by
  rw [round64, f64Key_f64Of neg (min_infMag64_lt _)]
  intro h
  rw [h0 h, roundMag_zero 52 hd, Nat.zero_min]

/-- The magnitude of a non-negative result, and that it is no NaN: what the operations below give. -/
def Rounded (x : F64) (n d : Nat) : Prop := isNaN x = false ∧ f64Key x = (min (roundMag 52 n d) infMag64 : Nat)

theorem rounded_round64 (neg : Bool) (n : Nat) {d : Nat} (hd : 0 < d) (h0 : neg = true → n = 0) :
    Rounded (round64 neg n d) n d := ⟨isNaN_round64 _ _ _, f64Key_round64 neg n hd h0⟩

theorem Rounded.mag {x : F64} {n d : Nat} (h : Rounded x n d) : f64Mag x = min (roundMag 52 n d) infMag64 := by
  have := h.2
  unfold f64Key at this
  split at this <;> omega

theorem not_isNaN_of_finite {x : F64} (h : isFinite x = true) : isNaN x = false := by
  rcases f64_classes x with h1 | h1 | h1 <;> simp_all

theorem not_isInf_of_finite {x : F64} (h : isFinite x = true) : isInf x = false := by
  rcases f64_classes x with h1 | h1 | h1 <;> simp_all

theorem f64Mag_f64Negate (x : F64) : f64Mag (f64Negate x) = f64Mag x := f64Mag_f64Of _ (f64Mag_lt x)

theorem f64Neg_f64Negate (x : F64) : f64Neg (f64Negate x) = !f64Neg x := f64Neg_f64Of _ (f64Mag_lt x)

theorem isFinite_f64Negate (x : F64) : isFinite (f64Negate x) = isFinite x := by
  rw [isFinite, isFinite, f64Mag_f64Negate]

theorem f64Units_f64Negate (x : F64) : f64Units (f64Negate x) = -f64Units x := by
  rw [f64Units, f64Units, f64Mag_f64Negate, f64Neg_f64Negate]
  cases f64Neg x <;> simp

/-- The sum of finite values, at once (R13). -/
theorem f64Add_finite {x y : F64} (hx : isFinite x = true) (hy : isFinite y = true) : f64Add x y = addFinite x y := by
  rw [f64Add, not_isNaN_of_finite hx, not_isNaN_of_finite hy, addNonNaN, not_isInf_of_finite hx,
    not_isInf_of_finite hy]
  rfl

/-- The difference of finite values, at once (R13). -/
theorem f64Sub_finite {x y : F64} (hx : isFinite x = true) (hy : isFinite y = true) :
    f64Sub x y = addFinite x (f64Negate y) := by
  have hy' : isFinite (f64Negate y) = true := by rw [isFinite_f64Negate, hy]
  rw [f64Sub, not_isNaN_of_finite hx, not_isNaN_of_finite hy, addNonNaN, not_isInf_of_finite hx,
    not_isInf_of_finite hy']
  rfl

/-- A difference that is not negative. -/
theorem rounded_sub {x y : F64} (hx : isFinite x = true) (hy : isFinite y = true) (h : f64Units y ≤ f64Units x) :
    Rounded (f64Sub x y) (f64Units x - f64Units y).toNat 1 := by
  rw [f64Sub_finite hx hy]
  simp only [addFinite, f64Units_f64Negate]
  rw [← Int.sub_eq_add_neg]
  split
  · rename_i h0
    rw [h0]
    refine ⟨?_, ?_⟩
    · rw [isNaN, f64Mag_f64Of _ (by decide)]; rfl
    · rw [Int.toNat_zero, roundMag_zero 52 (by decide), f64Key_f64Of _ (by decide) (fun _ => rfl), Nat.zero_min]
  · rename_i h0
    have e : (f64Units x - f64Units y).natAbs = (f64Units x - f64Units y).toNat := by omega
    rw [e]
    refine rounded_round64 _ _ (by decide) ?_
    intro hneg
    rw [decide_eq_true_iff] at hneg
    omega

/-- A quotient of a non-negative and a positive value. -/
theorem rounded_div {x y : F64} (hx : isFinite x = true) (hy : isFinite y = true) (h : 0 ≤ f64Key x)
    (h0 : 0 < f64Key y) :
    Rounded (f64Div x y) (magUnits 52 (f64Mag x) * one64) (magUnits 52 (f64Mag y)) := by
  have hyn : f64Neg y = false := by
    unfold f64Key at h0
    split at h0
    · omega
    · rename_i hn; simpa using hn
  have hy0 : 0 < f64Mag y := by
    unfold f64Key at h0
    split at h0 <;> omega
  have hyu : 0 < magUnits 52 (f64Mag y) := (magUnits_lt (fb := 52) (a := 0)).2 hy0
  have e : f64Div x y = round64 (f64Neg x != f64Neg y) (magUnits 52 (f64Mag x) * one64) (magUnits 52 (f64Mag y)) := by
    simp only [f64Div, not_isNaN_of_finite hx, not_isNaN_of_finite hy, not_isInf_of_finite hx,
      not_isInf_of_finite hy]
    simp [Nat.ne_of_gt hy0]
  rw [e]
  refine rounded_round64 _ _ hyu ?_
  intro hneg
  rw [hyn] at hneg
  unfold f64Key at h
  split at h
  · have : f64Mag x = 0 := by omega
    rw [this]; simp [magUnits]
  · rename_i hn; simp [hn] at hneg

/-- A product of non-negative values. -/
theorem rounded_mul {x y : F64} (hx : isFinite x = true) (hy : isFinite y = true) (h : 0 ≤ f64Key x)
    (h0 : 0 ≤ f64Key y) :
    Rounded (f64Mul x y) (magUnits 52 (f64Mag x) * magUnits 52 (f64Mag y)) one64 := by
  have e : f64Mul x y = round64 (f64Neg x != f64Neg y) (magUnits 52 (f64Mag x) * magUnits 52 (f64Mag y)) one64 := by
    simp only [f64Mul, not_isNaN_of_finite hx, not_isNaN_of_finite hy, not_isInf_of_finite hx,
      not_isInf_of_finite hy]
    simp
  rw [e]
  refine rounded_round64 _ _ one64_pos ?_
  intro hneg
  have hz : f64Mag x = 0 ∨ f64Mag y = 0 := by
    unfold f64Key at h h0
    split at h
    · left; omega
    · split at h0
      · right; omega
      · rename_i h1 h2
        simp [h1, h2] at hneg
  rcases hz with hz | hz <;> rw [hz] <;> simp [magUnits]

/-- A rounded value that is at most a finite one is finite. -/
theorem Rounded.finite {x : F64} {n d : Nat} (h : Rounded x n d) (hlt : roundMag 52 n d < infMag64) :
    isFinite x = true := by
  rw [isFinite, h.mag, Nat.min_eq_left (Nat.le_of_lt hlt)]
  simpa using hlt

theorem Rounded.nonneg {x : F64} {n d : Nat} (h : Rounded x n d) : 0 ≤ f64Key x := by
  rw [h.2]; exact Int.natCast_nonneg _

/-- Rounding keeps the order. -/
theorem Rounded.mono {x y : F64} {n d n' d' : Nat} (hx : Rounded x n d) (hy : Rounded y n' d') (hd : 0 < d)
    (hd' : 0 < d') (h : n * d' ≤ n' * d) : f64Mag x ≤ f64Mag y := by
  rw [hx.mag, hy.mag]
  have := roundMag_mono (fb := 52) hd hd' h
  omega

/-- Rounding keeps a bound that is itself representable. -/
theorem Rounded.le_mag {x : F64} {n d mag : Nat} (hx : Rounded x n d) (hd : 0 < d) (h : n ≤ magUnits 52 mag * d) :
    f64Mag x ≤ mag := by
  rw [hx.mag]
  have := roundMag_mono (fb := 52) (n := n) (n' := magUnits 52 mag * d) hd hd (Nat.mul_le_mul_right _ h)
  rw [roundMag_magUnits 52 mag hd] at this
  omega

theorem Rounded.mag_le {x : F64} {n d mag : Nat} (hx : Rounded x n d) (hd : 0 < d) (hm : mag ≤ infMag64)
    (h : magUnits 52 mag * d ≤ n) : mag ≤ f64Mag x := by
  rw [hx.mag]
  have := roundMag_mono (fb := 52) (n := magUnits 52 mag * d) (n' := n) hd hd (Nat.mul_le_mul_right _ h)
  rw [roundMag_magUnits 52 mag hd] at this
  omega

end Sys2Proof.Machine
end

