-- ==== Sys2Proof/Laws/Operands.lean ====
section
/-! SUPPORT. What the byte-order primitives, the bit range and the operand checks give, as numbers (R10, R12, R125,
R190). -/

namespace Sys2Proof.Machine

theorem le16_toNat (b0 b1 : Byte) : (le16 b0 b1).toNat = b0.toNat + 256 * b1.toNat := by
  have h0 := b0.isLt
  rw [le16, BitVec.toNat_append, ← Nat.shiftLeft_add_eq_or_of_lt h0, Nat.shiftLeft_eq]
  omega

theorem le32_toNat (b0 b1 b2 b3 : Byte) :
    (le32 b0 b1 b2 b3).toNat = b0.toNat + 256 * b1.toNat + 65536 * b2.toNat + 16777216 * b3.toNat := by
  have h0 := b0.isLt
  have h1 := b1.isLt
  have h2 := b2.isLt
  rw [le32, BitVec.toNat_append, ← Nat.shiftLeft_add_eq_or_of_lt h0, BitVec.toNat_append,
    ← Nat.shiftLeft_add_eq_or_of_lt h1, BitVec.toNat_append, ← Nat.shiftLeft_add_eq_or_of_lt h2]
  simp only [Nat.shiftLeft_eq]
  omega

theorem be32_eq_le32 (b0 b1 b2 b3 : Byte) : be32 b0 b1 b2 b3 = le32 b3 b2 b1 b0 := rfl

theorem byteOf16_eq (v : U16) (i : Nat) : byteOf16 v i = BitVec.ofNat 8 (v.toNat / 2 ^ (8 * i)) := by
  apply BitVec.eq_of_toNat_eq
  simp [byteOf16, Nat.shiftRight_eq_div_pow]

theorem byteOf32_eq (v : U32) (i : Nat) : byteOf32 v i = BitVec.ofNat 8 (v.toNat / 2 ^ (8 * i)) := by
  apply BitVec.eq_of_toNat_eq
  simp [byteOf32, Nat.shiftRight_eq_div_pow]

/-- A bit range is a quotient and a remainder (R10). -/
theorem bitRange_toNat (v : U32) (lo hi : Nat) (h : lo ≤ hi) (hi31 : hi ≤ 31) :
    (bitRange v lo hi).toNat = v.toNat / 2 ^ lo % 2 ^ (hi - lo + 1) := by
  have hlt : (2 ^ (hi - lo + 1) - 1) * 2 ^ lo < 2 ^ 32 := by
    have h1 : 2 ^ (hi - lo + 1) * 2 ^ lo ≤ 2 ^ 32 := by
      rw [← Nat.pow_add]
      exact Nat.pow_le_pow_right (by decide) (by omega)
    have h2 : (2 ^ (hi - lo + 1) - 1) * 2 ^ lo < 2 ^ (hi - lo + 1) * 2 ^ lo :=
      Nat.mul_lt_mul_of_pos_right (by have := Nat.two_pow_pos (hi - lo + 1); omega) (Nat.two_pow_pos lo)
    omega
  rw [bitRange, BitVec.toNat_ushiftRight, BitVec.toNat_and, BitVec.toNat_ofNat, Nat.mod_eq_of_lt hlt,
    ← Nat.shiftLeft_eq, Nat.shiftRight_and_distrib, Nat.shiftLeft_shiftRight, Nat.and_two_pow_sub_one_eq_mod,
    Nat.shiftRight_eq_div_pow]

/-- A flag is its bit (R126, R236). -/
theorem bitIsSet_eq (v : U32) (b : Nat) (h : b ≤ 31) : bitIsSet v b = v.getLsbD b := by
  have hb := bitRange_toNat v b b (Nat.le_refl b) h
  have h2 : b - b + 1 = 1 := by omega
  rw [h2, Nat.pow_one] at hb
  have hbit : v.getLsbD b = decide (v.toNat / 2 ^ b % 2 = 1) := by
    rw [← BitVec.testBit_toNat, Nat.testBit_eq_decide_div_mod_eq]
  rw [hbit, bitIsSet, Bool.eq_iff_iff, beq_iff_eq, decide_eq_true_iff, ← hb]
  constructor
  · intro he
    rw [he]
    rfl
  · intro he
    exact BitVec.eq_of_toNat_eq (by rw [he]; rfl)

/-! ### Splitting and joining -/

theorem toBE32_be32 (b3 b2 b1 b0 : Byte) : toBE32 (be32 b3 b2 b1 b0) = [b3, b2, b1, b0] := by
  have h0 := b0.isLt
  have h1 := b1.isLt
  have h2 := b2.isLt
  have h3 := b3.isLt
  simp only [toBE32, byteOf32_eq, be32_eq_le32, le32_toNat]
  congr 1
  · exact BitVec.eq_of_toNat_eq (by simp; omega)
  congr 1
  · exact BitVec.eq_of_toNat_eq (by simp; omega)
  congr 1
  · exact BitVec.eq_of_toNat_eq (by simp; omega)
  congr 1
  · exact BitVec.eq_of_toNat_eq (by simp; omega)

theorem be32_bytes (v : U32) : be32 (byteOf32 v 3) (byteOf32 v 2) (byteOf32 v 1) (byteOf32 v 0) = v := by
  apply BitVec.eq_of_toNat_eq
  have := v.isLt
  rw [be32_eq_le32, le32_toNat]
  simp only [byteOf32_eq, BitVec.toNat_ofNat]
  omega

theorem le32_bytes (v : U32) : le32 (byteOf32 v 0) (byteOf32 v 1) (byteOf32 v 2) (byteOf32 v 3) = v := be32_bytes v

theorem le16_bytes (v : U16) : le16 (byteOf16 v 0) (byteOf16 v 1) = v := by
  apply BitVec.eq_of_toNat_eq
  have := v.isLt
  rw [le16_toNat]
  simp only [byteOf16_eq, BitVec.toNat_ofNat]
  omega

theorem toLE32_le32 (b0 b1 b2 b3 : Byte) : toLE32 (le32 b0 b1 b2 b3) = ⟨b0, b1, b2, b3⟩ := by
  have h := toBE32_be32 b3 b2 b1 b0
  simp only [toBE32, List.cons.injEq, and_true, be32_eq_le32] at h
  simp [toLE32, h]

/-! ### Operand checks -/

theorem checkTarget_ok {t : U32} {n : U8} :
    checkTarget t = .ok n ↔ t.toNat ≤ 255 ∧ n = BitVec.ofNat 8 t.toNat := by
  unfold checkTarget
  split
  · simp; omega
  · rw [Except.ok.injEq]
    refine ⟨fun h => ⟨by omega, ?_⟩, fun h => ?_⟩
    · rw [← h]; exact BitVec.eq_of_toNat_eq (by simp)
    · rw [h.2]; exact BitVec.eq_of_toNat_eq (by simp)

theorem checkTarget_error {t : U32} {f : Failure} : checkTarget t = .error f ↔ 255 < t.toNat ∧ f = .fieldRange := by
  unfold checkTarget
  split
  · rename_i h
    simp [h, eq_comm]
  · rename_i h
    simp [h]

theorem maskHost_toNat (rom : Rom) (h : Nat) : (maskHost rom h).toNat = h % 2 ^ rom.hostIdW % 256 := by
  rw [maskHost, BitVec.toNat_ofNat]
  omega

/-- The low byte of a 16-bit aux field is the host id, whatever `HOST_ID_W` of at least 8 (R190). -/
theorem maskHost_aux {rom : Rom} (h : 8 ≤ rom.hostIdW) (aux : U16) :
    maskHost rom aux.toNat = BitVec.ofNat 16 (aux.toNat % 256) := by
  rw [maskHost, Nat.mod_mod_of_dvd _ (Nat.pow_dvd_pow 2 h)]

end Sys2Proof.Machine
end

