-- ==== Sys2Proof/Laws/Identifier.lean ====
section
/-! SUPPORT. What PACK, UNPACK and XBITS give under the standard tables, as numbers (R120 to R126). -/

namespace Sys2Proof.Machine

/-! ### PACK (R120, R121) -/

@[simp] theorem packId_standard (mode : U8) (aux : U16) (node : U8) :
    packId standardRom mode aux node =
      if 31 < mode.toNat then .error .fieldRange else .ok (identifierWord standardRom mode aux node) := rfl

/-- The word PACK writes is the encoder's (R60). -/
theorem identifierWord_eq (mode : U8) (aux : U16) (node : U8) :
    identifierWord standardRom mode aux node = canidOf (mode.setWidth 5) aux node := by
  apply BitVec.eq_of_getLsbD_eq
  intro i hi
  simp only [identifierWord, standardRom, idConst, canidOf, BitVec.getLsbD_or, BitVec.getLsbD_shiftLeft,
    BitVec.getLsbD_setWidth, BitVec.getLsbD_append]
  interval_cases i <;> simp

/-- The identifier word as a number (R60). -/
theorem canidOf_toNat (mode : BitVec 5) (aux : U16) (node : U8) :
    (canidOf mode aux node).toNat = (mode.toNat * 2 ^ 24 + aux.toNat * 2 ^ 8 + node.toNat) * 8 + 4 := by
  have ha := aux.isLt
  have hn := node.isLt
  rw [canidOf, BitVec.toNat_append, ← Nat.shiftLeft_add_eq_or_of_lt (by decide), BitVec.toNat_append,
    ← Nat.shiftLeft_add_eq_or_of_lt hn, BitVec.toNat_append, ← Nat.shiftLeft_add_eq_or_of_lt ha]
  simp only [Nat.shiftLeft_eq]
  have : (0b100 : BitVec 3).toNat = 4 := rfl
  omega

/-! ### UNPACK (R122) -/

theorem canOf_toNat (id : U32) : (canOf standardRom id).toNat = id.toNat / 8 := by
  simp [canOf, standardRom, idConst, Nat.shiftRight_eq_div_pow]

theorem unpackMode_toNat (id : U32) : (unpackMode standardRom id).toNat = id.toNat / 2 ^ 27 := by
  have := id.isLt
  rw [unpackMode, BitVec.toNat_setWidth, BitVec.toNat_ushiftRight, canOf_toNat]
  simp only [standardRom, idConst, Nat.shiftRight_eq_div_pow]
  omega

theorem unpackAux_toNat (id : U32) : (unpackAux standardRom id).toNat = id.toNat / 2 ^ 11 % 2 ^ 16 := by
  rw [unpackAux, BitVec.toNat_setWidth, BitVec.toNat_ushiftRight, canOf_toNat]
  simp only [standardRom, idConst, Nat.shiftRight_eq_div_pow]
  omega

theorem unpackNode_toNat (id : U32) : (unpackNode standardRom id).toNat = id.toNat / 2 ^ 3 % 2 ^ 8 := by
  rw [unpackNode, BitVec.toNat_setWidth, BitVec.toNat_ushiftRight, canOf_toNat]
  simp only [standardRom, idConst, Nat.shiftRight_eq_div_pow]
  omega

/-! ### XBITS (R125) -/

theorem extractBits_ok {v : U32} {lo hi : U8} {f : U32} :
    extractBits v lo hi = .ok f ↔ (lo.toNat ≤ hi.toNat ∧ hi.toNat ≤ 31) ∧ f = bitRange v lo.toNat hi.toNat := by
  unfold extractBits
  split
  · rename_i h; simp [h, eq_comm]
  · rename_i h; simp [h]

theorem extractBits_error {v : U32} {lo hi : U8} {f : Failure} :
    extractBits v lo hi = .error f ↔ ¬ (lo.toNat ≤ hi.toNat ∧ hi.toNat ≤ 31) ∧ f = .badBitRange := by
  unfold extractBits
  split
  · rename_i h; simp [h]
  · rename_i h; simp [h, eq_comm]

end Sys2Proof.Machine
end

