-- ==== Sys2Proof/Laws/State.lean ====
section
/-! SUPPORT. One lemma per field per update of the state, and the state of the two channels around a transaction. -/

namespace Sys2Proof.Machine

@[simp] theorem answer_rom (s : State) (r : Response) : (answer s r).rom = s.rom := rfl
@[simp] theorem answer_requests (s : State) (r : Response) : (answer s r).requests = s.requests.tail := rfl
@[simp] theorem answer_responses (s : State) (r : Response) : (answer s r).responses = s.responses ++ [r] := rfl

@[simp] theorem complete_rom (s : State) (r : Result) : (complete s r).rom = s.rom := rfl
@[simp] theorem complete_requests (s : State) (r : Result) : (complete s r).requests = s.requests.tail := rfl
@[simp] theorem complete_responses (s : State) (r : Result) :
    (complete s r).responses = s.responses ++ [.ok r] := rfl

@[simp] theorem takeFailure_rom (s : State) (f : Failure) : (takeFailure s f).rom = s.rom := rfl
@[simp] theorem takeFailure_requests (s : State) (f : Failure) : (takeFailure s f).requests = s.requests.tail := rfl
@[simp] theorem takeFailure_responses (s : State) (f : Failure) :
    (takeFailure s f).responses = s.responses ++ [.fail f] := rfl

@[simp] theorem conclude_rom (s : State) (e : Except Failure Result) : (conclude s e).rom = s.rom := by
  cases e <;> rfl
@[simp] theorem conclude_requests (s : State) (e : Except Failure Result) :
    (conclude s e).requests = s.requests.tail := by
  cases e <;> rfl

@[simp] theorem present_rom (s : State) (r : Request) : (present s r).rom = s.rom := rfl
@[simp] theorem present_requests (s : State) (r : Request) : (present s r).requests = s.requests ++ [r] := rfl
@[simp] theorem present_responses (s : State) (r : Request) : (present s r).responses = s.responses := rfl

@[simp] theorem applyReset_rom (s : State) : (applyReset s).rom = s.rom := rfl
@[simp] theorem applyReset_requests (s : State) : (applyReset s).requests = [] := rfl
@[simp] theorem applyReset_responses (s : State) : (applyReset s).responses = s.responses := rfl

@[simp] theorem inFlight_nil (rom : Rom) (rs : List Response) :
    inFlight { rom := rom, requests := [], responses := rs } = none := rfl
@[simp] theorem inFlight_cons (rom : Rom) (a : Request) (rest : List Request) (rs : List Response) :
    inFlight { rom := rom, requests := a :: rest, responses := rs } = some a := rfl

theorem inFlight_eq_none {s : State} : inFlight s = none ↔ s.requests = [] := by
  simp [inFlight]

theorem inFlight_of_requests {s : State} {a : Request} {rest : List Request} (h : s.requests = a :: rest) :
    inFlight s = some a := by
  simp [inFlight, h]

end Sys2Proof.Machine
end

