-- ==== Sys2Proof/Laws/Ops.lean ====
section
/-!
SUPPORT. What a transaction can do, said once (`transact_cases`), and that every instruction is one transaction
(`exec_eq_transact`), from which each invariant of `step` follows.
-/

namespace Sys2Proof.Machine

/-! ### Chaining checks -/

@[simp] theorem ok_bind {ε α β : Type} (a : α) (f : α → Except ε β) : (Except.ok a >>= f) = f a := rfl
@[simp] theorem error_bind {ε α β : Type} (e : ε) (f : α → Except ε β) : (Except.error e >>= f) = .error e := rfl

theorem bind_eq_ok {ε α β : Type} {x : Except ε α} {f : α → Except ε β} {b : β} :
    (x >>= f) = .ok b ↔ ∃ a, x = .ok a ∧ f a = .ok b := by
  cases x <;> simp

theorem bind_eq_error {ε α β : Type} {x : Except ε α} {f : α → Except ε β} {e : ε} :
    (x >>= f) = .error e ↔ x = .error e ∨ ∃ a, x = .ok a ∧ f a = .error e := by
  cases x <;> simp

@[simp] theorem placed_ok {α : Type} (place : α → Result) (a : α) : placed place (.ok a) = .ok (place a) := rfl
@[simp] theorem placed_error {α : Type} (place : α → Result) (f : Failure) : placed place (.error f) = .error f := rfl

theorem placed_eq_ok {α : Type} {place : α → Result} {e : Except Failure α} {r : Result} :
    placed place e = .ok r ↔ ∃ a, e = .ok a ∧ place a = r := by
  cases e <;> simp

theorem placed_eq_error {α : Type} {place : α → Result} {e : Except Failure α} {f : Failure} :
    placed place e = .error f ↔ e = .error f := by
  cases e <;> simp

/-! ### The transaction -/

@[simp] theorem conclude_ok (s : State) (r : Result) : conclude s (.ok r) = complete s r := rfl
@[simp] theorem conclude_error (s : State) (f : Failure) : conclude s (.error f) = takeFailure s f := rfl

theorem transact_idle {s : State} (op : Operands → Except Failure Result) (h : s.requests = []) :
    transact s op = .next s := by
  simp [transact, inFlight, h]

theorem transact_cons {s : State} {a : Request} {rest : List Request} (op : Operands → Except Failure Result)
    (h : s.requests = a :: rest) : transact s op = .next (conclude s (op a.operands)) := by
  simp [transact, inFlight, h]

/-- Everything a transaction can do: stay idle, complete with a result, or take a failure; it never stops. -/
theorem transact_cases (s : State) (op : Operands → Except Failure Result) :
    (s.requests = [] ∧ transact s op = .next s) ∨
    (∃ a rest r, s.requests = a :: rest ∧ op a.operands = .ok r ∧
      transact s op = .next { rom := s.rom, requests := rest, responses := s.responses ++ [.ok r] }) ∨
    (∃ a rest f, s.requests = a :: rest ∧ op a.operands = .error f ∧
      transact s op = .next { rom := s.rom, requests := rest, responses := s.responses ++ [.fail f] }) := by
  cases h : s.requests with
  | nil => exact .inl ⟨rfl, transact_idle op h⟩
  | cons a rest =>
    refine .inr ?_
    rw [transact_cons op h]
    cases hop : op a.operands with
    | ok r => exact .inl ⟨a, rest, r, rfl, hop, by simp [complete, answer, h]⟩
    | error f => exact .inr ⟨a, rest, f, rfl, hop, by simp [takeFailure, answer, h]⟩

/-- The operation of an instruction on ROM and the operands, the body of its meaning. -/
def operation (i : Instr) (rom : Rom) (o : Operands) : Except Failure Result :=
  match i with
  | .qenc1 => placed (fun raw => .raw8 (BitVec.ofNat 8 raw)) (quantEncode rom 1 o.value o.lo o.hi)
  | .qenc2 => placed (fun raw => .raw16 (BitVec.ofNat 16 raw)) (quantEncode rom 2 o.value o.lo o.hi)
  | .qdec1 => placed .quantity (quantDecode rom 1 o.raw.toNat o.lo o.hi)
  | .qdec2 => placed .quantity (quantDecode rom 2 o.raw.toNat o.lo o.hi)
  | .qtemp => .ok (.temperature (temperature rom o.rawTemp))
  | .pack => placed .identifier (packId rom o.commandMode o.auxField o.nodeId)
  | .unpack => .ok (.fields (unpackMode rom o.identifier) (unpackAux rom o.identifier) (unpackNode rom o.identifier))
  | .xbits => placed .bits (extractBits o.bits o.bitLo o.bitHi)
  | .wrap => placed .frame (wrapFrame rom o.commandMode o.auxField o.nodeId o.wrapPayload)
  | .unwrap => placed .message (unwrapFrame rom o.data)
  | .rlook => placed .entry (lookupIndex rom o.index)
  | .rlookn => placed .entry (lookupName rom o.name)
  | .renc => placed .regField (regEncode rom o.index o.value)
  | .rdec => placed .regValue (regDecode rom o.index o.field)
  | .build0 => placed .message (buildIdQuery rom o)
  | .build1 => placed .message (buildControl rom o)
  | .build3 => placed .message (buildEnable rom o)
  | .build4 => placed .message (buildDisable rom o)
  | .build6 => placed .message (buildSetZero rom o)
  | .build7 => placed .message (buildSetId rom o)
  | .build17 => placed .message (buildReadParam rom o)
  | .build18 => placed .message (buildWriteParam rom o)
  | .tx0 => placed .frame (wrapBuilt rom (buildIdQuery rom o))
  | .tx1 => placed .frame (wrapBuilt rom (buildControl rom o))
  | .tx3 => placed .frame (wrapBuilt rom (buildEnable rom o))
  | .tx4 => placed .frame (wrapBuilt rom (buildDisable rom o))
  | .tx6 => placed .frame (wrapBuilt rom (buildSetZero rom o))
  | .tx7 => placed .frame (wrapBuilt rom (buildSetId rom o))
  | .tx17 => placed .frame (wrapBuilt rom (buildReadParam rom o))
  | .tx18 => placed .frame (wrapBuilt rom (buildWriteParam rom o))
  | .parse => placed .typed (parseMessage rom (operandMessage o))
  | .rx => placed .typed (receive rom o.data)
  | .msgIdQuery aux node => placed .message (buildIdQuery rom (wordOperands aux node o))
  | .msgControlCommand aux node => placed .message (wordControl rom aux node o)
  | .msgStatusResponse aux node => placed .typed (parseMessage rom (wordMessage 2 aux node o))
  | .msgEnable aux node => placed .message (buildEnable rom (wordOperands aux node o))
  | .msgDisable aux node => placed .message (buildDisable rom (wordOperands aux node o))
  | .msgSetZero aux node => placed .message (buildSetZero rom (wordOperands aux node o))
  | .msgSetId aux node => placed .message (buildSetId rom (setIdOperands aux node o))
  | .msgReadParam aux node => placed .message (buildReadParam rom (wordOperands aux node o))
  | .msgWriteParam aux node => placed .message (buildWriteParam rom (wordOperands aux node o))
  | .msgIdResponse aux node => placed .typed (parseMessage rom (wordMessage 0 aux node o))
  | .msgParamReadResponse aux node => placed .typed (parseMessage rom (wordMessage 17 aux node o))
  | .msgFaultResponse aux node => placed .typed (parseMessage rom (wordMessage 21 aux node o))
  | .regRunMode => placed .regField (regEncode rom 0x7005 o.value)
  | .regIqRef => placed .regField (regEncode rom 0x7006 o.value)
  | .regSpdRef => placed .regField (regEncode rom rom.regIndex.spdRef o.value)
  | .regLimitTorque => placed .regField (regEncode rom rom.regIndex.limitTorque o.value)
  | .regCurKp => placed .regField (regEncode rom rom.regIndex.curKp o.value)
  | .regCurKi => placed .regField (regEncode rom rom.regIndex.curKi o.value)
  | .regCurFiltGain => placed .regField (regEncode rom rom.regIndex.curFiltGain o.value)
  | .regLocRef => placed .regField (regEncode rom rom.regIndex.locRef o.value)
  | .regLimitSpd => placed .regField (regEncode rom rom.regIndex.limitSpd o.value)
  | .regLimitCur => placed .regField (regEncode rom rom.regIndex.limitCur o.value)
  | .regMechPos => placed .regField (regEncode rom rom.regIndex.mechPos o.value)
  | .regIqf => placed .regField (regEncode rom rom.regIndex.iqf o.value)
  | .regMechVel => placed .regField (regEncode rom rom.regIndex.mechVel o.value)
  | .regVbus => placed .regField (regEncode rom 0x701C o.value)
  | .regRotationCount => placed .regField (regEncode rom 0x701D o.value)

/-- Every instruction is one transaction, whose operation depends on ROM and the operands alone (R30). -/
theorem exec_eq_transact (i : Instr) (s : State) : exec i s = transact s (operation i s.rom) := by
  cases i <;> rfl

/-- What `exec` answers when a request is in flight. -/
theorem exec_cons {s : State} {a : Request} {rest : List Request} (i : Instr) (h : s.requests = a :: rest) :
    exec i s = .next (conclude s (operation i s.rom a.operands)) := by
  rw [exec_eq_transact, transact_cons _ h]

/-- An instruction whose operation succeeds completes with that result. -/
theorem exec_completes {s : State} {a : Request} {rest : List Request} {i : Instr} {r : Result}
    (h : s.requests = a :: rest) (hop : operation i s.rom a.operands = .ok r) :
    exec i s = .next { rom := s.rom, requests := rest, responses := s.responses ++ [.ok r] } := by
  rw [exec_cons i h, hop]
  simp [complete, answer, h]

/-- An instruction whose operation fails takes the failure: the status and no result (R252). -/
theorem exec_fails {s : State} {a : Request} {rest : List Request} {i : Instr} {f : Failure}
    (h : s.requests = a :: rest) (hop : operation i s.rom a.operands = .error f) :
    exec i s = .next { rom := s.rom, requests := rest, responses := s.responses ++ [.fail f] } := by
  rw [exec_cons i h, hop]
  simp [takeFailure, answer, h]

/-- With no request in flight nothing happens. -/
theorem exec_idle {s : State} (i : Instr) (h : s.requests = []) : exec i s = .next s := by
  rw [exec_eq_transact, transact_idle _ h]

/-- The operation a word names, on ROM and the operands (R81, R83). -/
def wordOperation (op : Operation) (rom : Rom) (o : Operands) : Except Failure Result :=
  match op with
  | .row i => operation i rom o
  | .qencWidth w => placed (.raw w.toNat) (quantEncode rom w.toNat o.value o.lo o.hi)
  | .qdecWidth w => placed .quantity (quantDecode rom w.toNat o.raw.toNat o.lo o.hi)

/-- What an operation named by a word does is one transaction, as for an instruction (R30). -/
theorem perform_eq_transact (op : Operation) (s : State) : perform op s = transact s (wordOperation op s.rom) := by
  cases op with
  | row i => exact exec_eq_transact i s
  | qencWidth w => rfl
  | qdecWidth w => rfl

/-- A step with something in flight: what its word names is one transaction on its operands, and a word that names
nothing is answered with the decoder's failure (R30, R83). -/
theorem step_cons {s : State} {a : Request} {rest : List Request} (h : s.requests = a :: rest) :
    step s = .next (conclude s (decodeOpword s.rom a.opword >>= fun op => wordOperation op s.rom a.operands)) := by
  rw [step, inFlight_of_requests h]
  dsimp only
  cases hd : decodeOpword s.rom a.opword with
  | ok op => rw [ok_bind]; exact (perform_eq_transact op s).trans (transact_cons _ h)
  | error f => rfl

/-- The response of an illegal word (R83, R253). -/
theorem step_illegal {s : State} {a : Request} {rest : List Request} {f : Failure}
    (h : s.requests = a :: rest) (hd : decodeOpword s.rom a.opword = .error f) :
    step s = .next { rom := s.rom, requests := rest, responses := s.responses ++ [.fail f] } := by
  simp [step, inFlight_of_requests h, hd, takeFailure, answer, h]

end Sys2Proof.Machine
end

