-- ==== Sys2Proof/Laws/Framer.lean ====
section
/-! SUPPORT. Everything WRAP and UNWRAP can do under the standard tables (R140 to R145). -/

namespace Sys2Proof.Machine

theorem wrapFrame_standard (mode : U8) (aux : U16) (node : U8) (p : List Byte) :
    wrapFrame standardRom mode aux node p =
      if 31 < mode.toNat then .error .fieldRange
      else if 8 < p.length then .error .badPayloadLength
      else .ok (frameBytes standardRom (identifierWord standardRom mode aux node) (padPayload standardRom p)) := by
  have hk : packId standardRom mode aux node =
      if 31 < mode.toNat then .error .fieldRange else .ok (identifierWord standardRom mode aux node) := rfl
  unfold wrapFrame
  rw [hk]
  split <;> rfl

theorem wrapFrame_ok {mode : U8} {aux : U16} {node : U8} {p frame : List Byte} :
    wrapFrame standardRom mode aux node p = .ok frame ↔
      mode.toNat ≤ 31 ∧ p.length ≤ 8 ∧
        frame = frameBytes standardRom (identifierWord standardRom mode aux node) (padPayload standardRom p) := by
  rw [wrapFrame_standard]
  by_cases hm : 31 < mode.toNat
  · simp [hm]
  · by_cases hl : 8 < p.length
    · simp [hm, hl]
    · simp [hm, hl, Nat.le_of_not_lt hm, Nat.le_of_not_lt hl, eq_comm]

theorem wrapFrame_error {mode : U8} {aux : U16} {node : U8} {p : List Byte} {f : Failure} :
    wrapFrame standardRom mode aux node p = .error f ↔
      (31 < mode.toNat ∧ f = .fieldRange) ∨ (mode.toNat ≤ 31 ∧ 8 < p.length ∧ f = .badPayloadLength) := by
  rw [wrapFrame_standard]
  by_cases hm : 31 < mode.toNat
  · simp [hm, eq_comm]
  · by_cases hl : 8 < p.length
    · simp [hm, hl, Nat.le_of_not_lt hm, eq_comm]
    · simp [hm, hl]

/-- The fixed bytes of a frame that UNWRAP compares first (R141). -/
theorem headerOk_standard (b : List Byte) :
    headerOk standardRom b = true ↔ byteAt b 0 = 0x41 ∧ byteAt b 1 = 0x54 ∧ byteAt b 15 = 0x0D ∧ byteAt b 16 = 0x0A := by
  have hh : headerOk standardRom b = (byteAt b 0 == 0x41 && byteAt b 1 == 0x54 && byteAt b 15 == 0x0D &&
      byteAt b 16 == 0x0A) := rfl
  rw [hh]
  simp [and_assoc]

/-- Everything UNWRAP can do: refuse by length, header or length byte, in that order, or give the message (R142). -/
theorem unwrapFrame_cases (b : List Byte) :
    (b.length ≠ 17 ∧ unwrapFrame standardRom b = .error .wrongLength) ∨
    (b.length = 17 ∧ headerOk standardRom b = false ∧ unwrapFrame standardRom b = .error .badHeader) ∨
    (b.length = 17 ∧ headerOk standardRom b = true ∧ byteAt b 6 ≠ 0x08 ∧
      unwrapFrame standardRom b = .error .badLength) ∨
    (b.length = 17 ∧ headerOk standardRom b = true ∧ byteAt b 6 = 0x08 ∧
      unwrapFrame standardRom b = .ok (frameMessage standardRom b)) := by
  have e : unwrapFrame standardRom b = if b.length ≠ 17 then .error .wrongLength
      else if !headerOk standardRom b then .error .badHeader
      else if byteAt b 6 ≠ 0x08 then .error .badLength else .ok (frameMessage standardRom b) := rfl
  rw [e]
  by_cases h1 : b.length = 17
  · cases h2 : headerOk standardRom b
    · exact .inr (.inl ⟨h1, rfl, by simp [h1]⟩)
    · by_cases h3 : byteAt b 6 = 0x08
      · exact .inr (.inr (.inr ⟨h1, rfl, h3, by simp [h1, h3]⟩))
      · exact .inr (.inr (.inl ⟨h1, rfl, h3, by simpa [h1] using h3⟩))
  · exact .inl ⟨h1, by simp [h1]⟩

/-- A byte string of 17 bytes, byte by byte. -/
theorem seventeen {b : List Byte} (h : b.length = 17) :
    b = [byteAt b 0, byteAt b 1, byteAt b 2, byteAt b 3, byteAt b 4, byteAt b 5, byteAt b 6] ++
      payloadBytes (payloadAt b 7) ++ [byteAt b 15, byteAt b 16] := by
  match b, h with
  | [_, _, _, _, _, _, _, _, _, _, _, _, _, _, _, _, _], _ => rfl

/-- The message of a frame given byte by byte. -/
theorem unwrapFrame_frame (i3 i2 i1 i0 : Byte) (p : Bytes8) :
    unwrapFrame standardRom ([0x41, 0x54, i3, i2, i1, i0, 0x08] ++ payloadBytes p ++ [0x0D, 0x0A]) =
      .ok { commandMode := unpackMode standardRom (be32 i3 i2 i1 i0)
            auxField := unpackAux standardRom (be32 i3 i2 i1 i0)
            nodeId := unpackNode standardRom (be32 i3 i2 i1 i0), payload := p } := rfl

theorem unwrapFrame_ok {b : List Byte} {m : RawMessage} (h : unwrapFrame standardRom b = .ok m) :
    b = [0x41, 0x54, byteAt b 2, byteAt b 3, byteAt b 4, byteAt b 5, 0x08] ++ payloadBytes m.payload ++ [0x0D, 0x0A] ∧
      m = frameMessage standardRom b := by
  rcases unwrapFrame_cases b with ⟨_, e⟩ | ⟨_, _, e⟩ | ⟨_, _, _, e⟩ | ⟨h1, h2, h3, e⟩ <;> rw [e] at h
  · simp at h
  · simp at h
  · simp at h
  · rw [Except.ok.injEq] at h
    obtain ⟨h4, h5, h6, h7⟩ := (headerOk_standard b).1 h2
    refine ⟨?_, h.symm⟩
    have hp : m.payload = payloadAt b 7 := by rw [← h]; rfl
    conv => lhs; rw [seventeen h1]
    rw [hp, h4, h5, h6, h7, h3]

end Sys2Proof.Machine
end

