-- ==== Sys2Proof/Laws/Quantizer.lean ====
section
/-! SUPPORT. What QENC computes step by step, and everything QENC and QDEC can do under the standard parameters
(R100 to R109). -/

namespace Sys2Proof.Machine

/-! ### The product (R102) -/

/-- The value a magnitude of one stands for. -/
def oneMag : Nat := 0x3FF0000000000000

theorem magUnits_oneMag : magUnits 52 oneMag = one64 := by decide +kernel

/-- A value that is no NaN is brought to a finite value of the range (R102). -/
theorem clamp_spec {value lo hi : F64} (hv : isNaN value = false) (hl : isFinite lo = true) (hh : isFinite hi = true)
    (h : f64Lt lo hi = true) :
    isFinite (clamp value lo hi) = true ∧ f64Units lo ≤ f64Units (clamp value lo hi) ∧
      f64Units (clamp value lo hi) ≤ f64Units hi := by
  have hlh := (f64Lt_finite hl hh).1 h
  unfold clamp
  split
  · exact ⟨hl, Int.le_refl _, Int.le_of_lt hlh⟩
  · rename_i h1
    split
    · exact ⟨hh, Int.le_of_lt hlh, Int.le_refl _⟩
    · rename_i h2
      have hf : isFinite value = true := by
        rcases f64_classes value with ⟨a, b, c⟩ | ⟨a, b, c⟩ | ⟨a, b, c⟩
        · simp [a] at hv
        · exfalso
          have hb : f64Mag value = infMag64 := by simpa [isInf] using b
          have hl' : f64Mag lo < infMag64 := by simpa [isFinite] using hl
          have hh' : f64Mag hi < infMag64 := by simpa [isFinite] using hh
          simp only [f64Lt, hv, not_isNaN_of_finite hl, not_isNaN_of_finite hh, Bool.not_false, Bool.true_and,
            decide_eq_true_eq] at h1 h2
          unfold f64Key at h1 h2
          split at h1 <;> split at h1 <;> split at h2 <;> omega
        · exact c
      have a1 : ¬ (f64Units value < f64Units lo) := fun hc => h1 ((f64Lt_finite hf hl).2 hc)
      have a2 : ¬ (f64Units hi < f64Units value) := fun hc => h2 ((f64Lt_finite hh hf).2 hc)
      exact ⟨hf, by omega, by omega⟩

/-- The steps of QENC's product over a range whose width is finite (R102): the width is positive, the ratio is a rounded
quotient of at most one, the product is at most `M`, and every step keeps the order of the values. -/
theorem encode_ratio {value lo hi : F64} (hv : isNaN value = false) (hl : isFinite lo = true)
    (hh : isFinite hi = true) (h : f64Lt lo hi = true) (hw : isFinite (f64Sub hi lo) = true) :
    Rounded (f64Sub (clamp value lo hi) lo) (f64Units (clamp value lo hi) - f64Units lo).toNat 1 ∧
    isFinite (f64Sub (clamp value lo hi) lo) = true ∧ 0 < f64Mag (f64Sub hi lo) ∧
    f64Mag (f64Sub (clamp value lo hi) lo) ≤ f64Mag (f64Sub hi lo) ∧
    Rounded (f64Div (f64Sub (clamp value lo hi) lo) (f64Sub hi lo))
      (magUnits 52 (f64Mag (f64Sub (clamp value lo hi) lo)) * one64) (magUnits 52 (f64Mag (f64Sub hi lo))) ∧
    f64Mag (f64Div (f64Sub (clamp value lo hi) lo) (f64Sub hi lo)) ≤ oneMag := by
  obtain ⟨hc, h1, h2⟩ := clamp_spec hv hl hh h
  have hlh := (f64Lt_finite hl hh).1 h
  have r1 := rounded_sub hc hl h1
  have r2 := rounded_sub hh hl (Int.le_of_lt hlh)
  have hle : f64Mag (f64Sub (clamp value lo hi) lo) ≤ f64Mag (f64Sub hi lo) :=
    r1.mono r2 (by decide) (by decide) (by omega)
  have hwf : f64Mag (f64Sub hi lo) < infMag64 := by simpa [isFinite] using hw
  have hsf : isFinite (f64Sub (clamp value lo hi) lo) = true := by simp [isFinite]; omega
  have hpos : 0 < f64Mag (f64Sub hi lo) :=
    r2.mag_le (mag := 1) (by decide) (by decide) (by simp [magUnits]; omega)
  have hkey : 0 < f64Key (f64Sub hi lo) := by
    rw [r2.2, ← r2.mag]; omega
  have r3 := rounded_div hsf hw r1.nonneg hkey
  refine ⟨r1, hsf, hpos, hle, r3, r3.le_mag ?_ ?_⟩
  · exact (magUnits_lt (fb := 52) (a := 0)).2 hpos
  · rw [magUnits_oneMag, Nat.mul_comm]
    refine Nat.mul_le_mul_left _ ?_
    have := @magUnits_lt 52 (f64Mag (f64Sub hi lo)) (f64Mag (f64Sub (clamp value lo hi) lo))
    omega

theorem isFinite_of_mag_le {x : F64} {mag : Nat} (h : f64Mag x ≤ mag) (hm : mag < infMag64) : isFinite x = true := by
  simp [isFinite]; omega

/-- The product of QENC (R102): finite, not negative and at most `M`. -/
theorem encodeProduct_spec {w : Nat} (hw2 : maxCode w < 2 ^ 53) {value lo hi : F64} (hv : isNaN value = false)
    (hl : isFinite lo = true) (hh : isFinite hi = true) (h : f64Lt lo hi = true)
    (hw : isFinite (f64Sub hi lo) = true) :
    Rounded (encodeProduct w value lo hi)
      (magUnits 52 (f64Mag (f64Div (f64Sub (clamp value lo hi) lo) (f64Sub hi lo))) * (maxCode w * one64)) one64 ∧
    isFinite (encodeProduct w value lo hi) = true ∧
    f64Mag (encodeProduct w value lo hi) ≤ f64Mag (f64OfNat (maxCode w)) := by
  obtain ⟨_, _, _, _, r3, hle⟩ := encode_ratio hv hl hh h hw
  obtain ⟨m1, m2, m3⟩ := f64OfNat_exact hw2
  have hk : 0 ≤ f64Key (f64OfNat (maxCode w)) := by rw [f64Key, m2]; simp
  have hMu : magUnits 52 (f64Mag (f64OfNat (maxCode w))) = maxCode w * one64 := by
    rw [f64Units_nonneg hk, ← Int.natCast_mul] at m3
    exact Int.natCast_inj.1 m3
  have hf := isFinite_of_mag_le hle (by decide)
  have r4 := rounded_mul hf m1 r3.nonneg hk
  rw [hMu] at r4
  have hM : f64Mag (f64OfNat (maxCode w)) < infMag64 := by simpa [isFinite] using m1
  have hle2 : f64Mag (encodeProduct w value lo hi) ≤ f64Mag (f64OfNat (maxCode w)) := by
    refine r4.le_mag one64_pos ?_
    rw [hMu, Nat.mul_comm]
    refine Nat.mul_le_mul_left _ ?_
    rw [← magUnits_oneMag]
    have := @magUnits_lt 52 oneMag (f64Mag (f64Div (f64Sub (clamp value lo hi) lo) (f64Sub hi lo)))
    omega
  exact ⟨r4, isFinite_of_mag_le hle2 hM, hle2⟩

/-- The code of QENC over a range whose width is finite is the floor of the product, and at most `M` (R102). -/
theorem encodeBinary64_spec {w : Nat} (hw2 : maxCode w < 2 ^ 53) {value lo hi : F64} (hv : isNaN value = false)
    (hl : isFinite lo = true) (hh : isFinite hi = true) (h : f64Lt lo hi = true)
    (hw : isFinite (f64Sub hi lo) = true) :
    (encodeBinary64 w value lo hi : Int) = f64Floor (encodeProduct w value lo hi) ∧
      encodeBinary64 w value lo hi ≤ maxCode w := by
  obtain ⟨r, hf, hle⟩ := encodeProduct_spec hw2 hv hl hh h hw
  obtain ⟨m1, m2, m3⟩ := f64OfNat_exact hw2
  have hk : 0 ≤ f64Key (f64OfNat (maxCode w)) := by rw [f64Key, m2]; simp
  rw [f64Units_nonneg hk] at m3
  have hu := f64Units_nonneg r.nonneg
  have h1 := @magUnits_lt 52 (f64Mag (f64OfNat (maxCode w))) (f64Mag (encodeProduct w value lo hi))
  have hpos : (0 : Int) < (one64 : Int) := Int.natCast_pos.2 one64_pos
  have hfl : f64Floor (encodeProduct w value lo hi) ≤ (maxCode w : Int) := by
    rw [f64Floor]
    refine Int.le_trans (Int.ediv_le_ediv hpos (b := (maxCode w : Int) * (one64 : Int)) (by omega)) ?_
    rw [Int.mul_ediv_cancel _ (Int.ne_of_gt hpos)]
  have hfl0 : 0 ≤ f64Floor (encodeProduct w value lo hi) := by
    rw [f64Floor]
    exact Int.ediv_nonneg (by omega) (Int.le_of_lt hpos)
  simp only [encodeBinary64, hf, if_true]
  omega

/-! ### The free code (R104; log entry 9) -/

/-- The free code is at most `M(w)`. -/
theorem freeCode_le (w : Nat) (c lo hi : F64) : freeCode w c lo hi ≤ maxCode w :=
  List.countP_le_length.trans_eq List.length_range

/-- The free code does not fall where the clamped value rises. -/
theorem freeCode_mono (w : Nat) {c c' : F64} (lo hi : F64) (h : f64Le c c' = true) :
    freeCode w c lo hi ≤ freeCode w c' lo hi :=
  List.countP_mono_left fun _ _ hk => f64Le_trans hk h

/-! ### The checks (R101) -/

/-- A width outside `QWIDTHS` is refused first (R101). -/
theorem quantEncode_width {rom : Rom} {w : Nat} (hw : w ∉ rom.qwidths) (value lo hi : F64) :
    quantEncode rom w value lo hi = .error .widthUnsupported := by
  rw [quantEncode, checkWidthRange, if_pos (by simp [hw])]
  rfl

theorem quantDecode_width {rom : Rom} {w : Nat} (hw : w ∉ rom.qwidths) (raw : Nat) (lo hi : F64) :
    quantDecode rom w raw lo hi = .error .widthUnsupported := by
  rw [quantDecode, checkWidthRange, if_pos (by simp [hw])]
  rfl

/-- QENC of an admitted width (R101, R108). -/
theorem quantEncode_admitted {rom : Rom} {w : Nat} (hw : w ∈ rom.qwidths) (value lo hi : F64) :
    quantEncode rom w value lo hi =
      if badRange lo hi then .error .badRange
      else if isNaN value then .error .notANumber
      else match rom.quantArith with
        | .binary64 => .ok (encodeBinary64 w value lo hi)
        | .exactReal => .ok (encodeExact w value lo hi) := by
  rw [quantEncode, checkWidthRange, if_neg (by simp [hw])]
  split <;> rfl

/-- QDEC of an admitted width (R101, R108). -/
theorem quantDecode_admitted {rom : Rom} {w : Nat} (hw : w ∈ rom.qwidths) (raw : Nat) (lo hi : F64) :
    quantDecode rom w raw lo hi =
      if badRange lo hi then .error .badRange
      else if maxCode w < raw then .error .fieldRange
      else match rom.quantArith with
        | .binary64 => .ok (.num (decodeBinary64 w raw lo hi))
        | .exactReal => .ok (.exact (decodeExact w raw lo hi)) := by
  rw [quantDecode, checkWidthRange, if_neg (by simp [hw])]
  split <;> rfl

/-- QENC under the standard parameters. -/
theorem quantEncode_standard {w : Nat} (hw : w = 1 ∨ w = 2) (value lo hi : F64) :
    quantEncode standardRom w value lo hi =
      if badRange lo hi then .error .badRange
      else if isNaN value then .error .notANumber
      else .ok (encodeBinary64 w value lo hi) :=
  quantEncode_admitted (rom := standardRom) (by rcases hw with rfl | rfl <;> decide) value lo hi

/-- QDEC under the standard parameters. -/
theorem quantDecode_standard {w : Nat} (hw : w = 1 ∨ w = 2) (raw : Nat) (lo hi : F64) :
    quantDecode standardRom w raw lo hi =
      if badRange lo hi then .error .badRange
      else if maxCode w < raw then .error .fieldRange
      else .ok (.num (decodeBinary64 w raw lo hi)) :=
  quantDecode_admitted (rom := standardRom) (by rcases hw with rfl | rfl <;> decide) raw lo hi

theorem badRange_eq_false {lo hi : F64} :
    badRange lo hi = false ↔ isFinite lo = true ∧ isFinite hi = true ∧ f64Lt lo hi = true := by
  simp [badRange, and_assoc]

/-- The ranges of the operations are admitted (R23, R101). -/
theorem badRange_rom : ∀ r ∈ [pRange, vRange, tRange, kpRange, kdRange, iRange], badRange r.lo r.hi = false := by
  decide +kernel

/-- QENC over a range of ROM (R109). -/
theorem encodeOver_standard {r : Range} (h : r ∈ [pRange, vRange, tRange, kpRange, kdRange, iRange]) (value : F64) :
    encodeOver standardRom r value =
      if isNaN value then .error .notANumber else .ok (BitVec.ofNat 16 (encodeBinary64 2 value r.lo r.hi)) := by
  rw [encodeOver, quantEncode_standard (.inr rfl), badRange_rom r h]
  cases isNaN value <;> rfl

/-- QDEC over a range of ROM (R109). -/
theorem decodeOver_standard {r : Range} (h : r ∈ [pRange, vRange, tRange, kpRange, kdRange, iRange]) (raw : U16) :
    decodeOver standardRom r raw = .ok (.num (decodeBinary64 2 raw.toNat r.lo r.hi)) := by
  have hr : ¬ maxCode 2 < raw.toNat := by
    have := raw.isLt
    have : maxCode 2 = 65535 := rfl
    omega
  rw [decodeOver, quantDecode_standard (.inr rfl), badRange_rom r h, if_neg hr]
  rfl

end Sys2Proof.Machine
end

