-- ==== Sys2Proof/Laws/Register.lean ====
section
/-! SUPPORT. Everything the lookups and the register transcoder can do (R160 to R173). -/

namespace Sys2Proof.Machine

/-! ### Lookup (R163, R164) -/

theorem lookupIndex_ok {rom : Rom} {index : U16} {e : RegEntry} (h : lookupIndex rom index = .ok e) :
    e ∈ rom.regcat ∧ e.index = index := by
  unfold lookupIndex at h
  split at h
  · rename_i e' he
    rw [Except.ok.injEq] at h
    subst h
    exact ⟨List.mem_of_find?_eq_some he, by simpa using List.find?_some he⟩
  · cases h

theorem lookupIndex_error {rom : Rom} {index : U16} {f : Failure} :
    lookupIndex rom index = .error f ↔ (∀ e ∈ rom.regcat, e.index ≠ index) ∧ f = .unknownRegister := by
  unfold lookupIndex
  split
  · rename_i e' he
    have h1 := List.mem_of_find?_eq_some he
    have h2 : e'.index = index := by simpa using List.find?_some he
    simp only [reduceCtorEq, false_iff, not_and]
    intro h
    exact absurd h2 (h e' h1)
  · rename_i he
    have h1 : ∀ e ∈ rom.regcat, e.index ≠ index := by simpa using he
    exact ⟨fun h => ⟨h1, (Except.error.inj h).symm⟩, fun h => by rw [h.2]⟩

/-- The only entry with that index is the one found. -/
theorem lookupIndex_unique {rom : Rom} {index : U16} {e : RegEntry} (hm : e ∈ rom.regcat) (hi : e.index = index)
    (hu : ∀ e' ∈ rom.regcat, e'.index = index → e' = e) : lookupIndex rom index = .ok e := by
  cases h : lookupIndex rom index with
  | ok e' =>
    obtain ⟨h1, h2⟩ := lookupIndex_ok h
    rw [hu e' h1 h2]
  | error f => exact absurd hi ((lookupIndex_error.1 h).1 e hm)

theorem lookupName_ok {rom : Rom} {name : String} {e : RegEntry} (h : lookupName rom name = .ok e) :
    e ∈ rom.regcat ∧ e.name = name := by
  unfold lookupName at h
  split at h
  · rename_i e' he
    rw [Except.ok.injEq] at h
    subst h
    exact ⟨List.mem_of_find?_eq_some he, by simpa using List.find?_some he⟩
  · cases h

theorem lookupName_error {rom : Rom} {name : String} {f : Failure} :
    lookupName rom name = .error f ↔ (∀ e ∈ rom.regcat, e.name ≠ name) ∧ f = .unknownRegister := by
  unfold lookupName
  split
  · rename_i e' he
    have h1 := List.mem_of_find?_eq_some he
    have h2 : e'.name = name := by simpa using List.find?_some he
    simp only [reduceCtorEq, false_iff, not_and]
    intro h
    exact absurd h2 (h e' h1)
  · rename_i he
    have h1 : ∀ e ∈ rom.regcat, e.name ≠ name := by simpa using he
    exact ⟨fun h => ⟨h1, (Except.error.inj h).symm⟩, fun h => by rw [h.2]⟩

/-- The indices of a lawful catalogue rise (R161). -/
theorem catalogueOf_sorted {r : RegIndex} (h : r.lawful = true) :
    ((catalogueOf r).map fun e => e.index.toNat).Pairwise (· < ·) := by
  simp only [RegIndex.lawful, decide_eq_true_eq, BitVec.lt_def, BitVec.reduceToNat] at h
  simp only [catalogueOf, List.map_cons, List.map_nil, List.pairwise_cons, List.mem_cons, List.not_mem_nil, or_false,
    forall_eq_or_imp, forall_eq, BitVec.reduceToNat, List.Pairwise.nil, and_true, false_imp_iff, implies_true]
  omega

/-- No two entries of a lawful catalogue share an index (R160, R161). -/
theorem catalogueOf_index_unique {r : RegIndex} (h : r.lawful = true) :
    ∀ e ∈ catalogueOf r, ∀ e' ∈ catalogueOf r, e'.index = e.index → e' = e := fun _ he _ he' hi =>
  List.inj_on_of_nodup_map ((catalogueOf_sorted h).imp fun hlt => Nat.ne_of_lt hlt) he' he (congrArg BitVec.toNat hi)

/-- No two entries of a catalogue share a name (R160). -/
theorem catalogueOf_name_unique (r : RegIndex) :
    ∀ e ∈ catalogueOf r, ∀ e' ∈ catalogueOf r, e'.name = e.name → e' = e := fun _ he _ he' hn =>
  List.inj_on_of_nodup_map (f := RegEntry.name)
    (by simp only [catalogueOf, List.map_cons, List.map_nil]; decide) he' he hn

theorem regIndex_lawful : regIndex.lawful = true := by decide

theorem lookupIndex_lawful {rom : Rom} (hr : rom.regIndex.lawful = true) {e : RegEntry} (h : e ∈ rom.regcat) :
    lookupIndex rom e.index = .ok e :=
  lookupIndex_unique h rfl (catalogueOf_index_unique hr e h)

theorem lookupName_catalogue {rom : Rom} {e : RegEntry} (h : e ∈ rom.regcat) : lookupName rom e.name = .ok e := by
  cases hl : lookupName rom e.name with
  | ok e' =>
    obtain ⟨h1, h2⟩ := lookupName_ok hl
    rw [catalogueOf_name_unique _ e h e' h1 h2]
  | error f => exact absurd rfl ((lookupName_error.1 hl).1 e h)

theorem lookupIndex_standard {e : RegEntry} (h : e ∈ regcat) : lookupIndex standardRom e.index = .ok e :=
  lookupIndex_lawful (rom := standardRom) regIndex_lawful h

/-! ### The value fields (R166 to R172) -/

/-- Everything `smallInteger` can do (R166, R168). -/
theorem smallInteger_cases (top : Nat) (value : F64) :
    (isNaN value = true ∧ smallInteger top value = .error .notANumber) ∨
    (isFinite value = true ∧ ∃ n : Nat, n ≤ top ∧ f64Units value = (n : Int) * (one64 : Int) ∧
      smallInteger top value = .ok n) ∨
    (isNaN value = false ∧
      ¬ (isFinite value = true ∧ ∃ n : Nat, n ≤ top ∧ f64Units value = (n : Int) * (one64 : Int)) ∧
      smallInteger top value = .error .unrepresentable) := by
  have hpos : (0 : Int) < (one64 : Int) := Int.natCast_pos.2 one64_pos
  generalize hu : f64Units value = u
  cases hn : isNaN value
  · have e : smallInteger top value = if f64IsInteger value ∧ 0 ≤ f64Floor value ∧ f64Floor value ≤ top
        then .ok (f64Floor value).toNat else .error .unrepresentable := by
      rw [smallInteger, if_neg (by simp [hn])]
    rw [e]
    unfold f64IsInteger f64Floor
    rw [hu]
    by_cases hc : isFinite value = true ∧ ∃ n : Nat, n ≤ top ∧ u = (n : Int) * (one64 : Int)
    · obtain ⟨hf, n, hle, hv⟩ := hc
      have hd : u / (one64 : Int) = n := by rw [hv]; exact Int.mul_ediv_cancel _ (Int.ne_of_gt hpos)
      have hm : u % (one64 : Int) = 0 := by rw [hv]; exact Int.mul_emod_left _ _
      refine .inr (.inl ⟨hf, n, hle, hv, ?_⟩)
      rw [hd, hm, if_pos ⟨by simp [hf], by omega, by omega⟩, Int.toNat_natCast]
    · refine .inr (.inr ⟨rfl, hc, if_neg ?_⟩)
      rintro ⟨h1, h2, h3⟩
      rw [Bool.and_eq_true, beq_iff_eq] at h1
      refine hc ⟨h1.1, (u / (one64 : Int)).toNat, by omega, ?_⟩
      rw [Int.toNat_of_nonneg h2, Int.ediv_mul_cancel (Int.dvd_of_emod_eq_zero h1.2)]
  · exact .inl ⟨rfl, by rw [smallInteger, if_pos hn]⟩

theorem encodeF32_cases (value : F64) :
    (isNaN value = true ∧ encodeF32 value = .error .notANumber) ∨
    (isNaN value = false ∧ isInf32 (toF32 value) = true ∧ isFinite value = true ∧
      encodeF32 value = .error .unrepresentable) ∨
    (isNaN value = false ∧ (isInf32 (toF32 value) = true → isInf value = true) ∧
      encodeF32 value = .ok (toLE32 (toF32 value))) := by
  unfold encodeF32
  rcases f64_classes value with ⟨h1, h2, h3⟩ | ⟨h1, h2, h3⟩ | ⟨h1, h2, h3⟩
  · exact .inl ⟨h1, if_pos h1⟩
  · exact .inr (.inr ⟨h1, fun _ => h2, by simp [h1, h3]⟩)
  · cases h4 : isInf32 (toF32 value)
    · exact .inr (.inr ⟨h1, by simp, by simp [h1]⟩)
    · exact .inr (.inl ⟨h1, rfl, h3, by simp [h1, h3]⟩)

/-- RENC of a catalogued index is the encode function of its kind (R165). -/
theorem regEncode_lawful {rom : Rom} (hr : rom.regIndex.lawful = true) {e : RegEntry} (h : e ∈ rom.regcat)
    (value : F64) : regEncode rom e.index value = encodeKind e.kind value := by
  rw [regEncode, lookupIndex_lawful hr h, ok_bind]

theorem regEncode_standard {e : RegEntry} (h : e ∈ regcat) (value : F64) :
    regEncode standardRom e.index value = encodeKind e.kind value :=
  regEncode_lawful (rom := standardRom) regIndex_lawful h value

/-- RDEC of a catalogued index is the decode function of its kind (R169). -/
theorem regDecode_standard {e : RegEntry} (h : e ∈ regcat) (f : Bytes4) :
    regDecode standardRom e.index f = .ok (decodeKind e.kind f) := by
  rw [regDecode, lookupIndex_standard h, ok_bind]

theorem regEncode_unknown {rom : Rom} {index : U16} (h : ∀ e ∈ rom.regcat, e.index ≠ index) (value : F64) :
    regEncode rom index value = .error .unknownRegister := by
  rw [regEncode, lookupIndex_error.2 ⟨h, rfl⟩, error_bind]

theorem regDecode_unknown {rom : Rom} {index : U16} (h : ∀ e ∈ rom.regcat, e.index ≠ index) (f : Bytes4) :
    regDecode rom index f = .error .unknownRegister := by
  rw [regDecode, lookupIndex_error.2 ⟨h, rfl⟩, error_bind]

end Sys2Proof.Machine
end

