-- ==== Sys2Proof/Laws/Build.lean ====
section
/-! SUPPORT. What the builders' shared parts and the transmit composites give (R190 to R200). -/

namespace Sys2Proof.Machine

/-- The aux field of a SetId request as a number (R71). -/
theorem setIdAux_toNat (rom : Rom) (n h : Nat) :
    (setIdAux rom n h).toNat = n % 2 ^ rom.hostIdW % 256 * 256 + h % 2 ^ rom.hostIdW % 256 := by
  have h1 := maskHost_toNat rom n
  have h2 := maskHost_toNat rom h
  rw [setIdAux, BitVec.toNat_or, BitVec.toNat_shiftLeft, h1, h2, Nat.shiftLeft_eq]
  generalize n % 2 ^ rom.hostIdW = n
  generalize h % 2 ^ rom.hostIdW = h
  have h3 : n % 256 * 2 ^ 8 % 2 ^ 16 = (n % 256) <<< 8 := by rw [Nat.shiftLeft_eq]; omega
  rw [h3, ← Nat.shiftLeft_add_eq_or_of_lt (by omega), Nat.shiftLeft_eq]

/-- The four payload values of a ControlCommand (R67, R192). -/
theorem controlEncode_standard (o : Operands) :
    controlEncode standardRom o =
      if isNaN o.angle || isNaN o.speed || isNaN o.kp || isNaN o.kd then .error .notANumber
      else .ok (controlPayload (BitVec.ofNat 16 (encodeBinary64 2 o.angle pRange.lo pRange.hi))
        (BitVec.ofNat 16 (encodeBinary64 2 o.speed vRange.lo vRange.hi))
        (BitVec.ofNat 16 (encodeBinary64 2 o.kp kpRange.lo kpRange.hi))
        (BitVec.ofNat 16 (encodeBinary64 2 o.kd kdRange.lo kdRange.hi))) := by
  have e : controlEncode standardRom o = (do
      let a ← encodeOver standardRom pRange o.angle
      let sp ← encodeOver standardRom vRange o.speed
      let p ← encodeOver standardRom kpRange o.kp
      let d ← encodeOver standardRom kdRange o.kd
      .ok (controlPayload a sp p d)) := rfl
  rw [e, encodeOver_standard (by simp), encodeOver_standard (by simp), encodeOver_standard (by simp),
    encodeOver_standard (by simp)]
  cases isNaN o.angle <;> cases isNaN o.speed <;> cases isNaN o.kp <;> cases isNaN o.kd <;> rfl

/-- A composite fails as its builder (R200, R254). -/
theorem wrapBuilt_error (rom : Rom) (f : Failure) : wrapBuilt rom (.error f) = .error f := rfl

/-- The frame of a built message, whose mode an identifier can carry (R200). -/
theorem wrapBuilt_ok {m : RawMessage} (h : m.commandMode.toNat ≤ 31) :
    wrapBuilt standardRom (.ok m) =
      .ok (frameBytes standardRom (identifierWord standardRom m.commandMode m.auxField m.nodeId)
        (payloadBytes m.payload)) := by
  rw [wrapBuilt, ok_bind, wrapFrame_standard, if_neg (by omega), if_neg (by simp [payloadBytes])]
  rfl

end Sys2Proof.Machine
end

