-- ==== Sys2Proof/Laws/Decode.lean ====
section
/-! SUPPORT. What the decoder's field accessors and arms give (R60, R80 to R83). -/

namespace Sys2Proof.Machine

/-! ### The fields (R60, R80) -/

/-- The two fields of an OPWORD make it up (R80). -/
theorem opwordOf_fields (w : U16) : opwordOf (opwordFunc w) (opwordSel w) = w := by
  have := w.isLt
  apply BitVec.eq_of_toNat_eq
  rw [opwordOf, BitVec.toNat_append, ← Nat.shiftLeft_add_eq_or_of_lt (opwordSel w).isLt]
  simp only [opwordFunc, opwordSel, BitVec.extractLsb'_toNat, Nat.shiftRight_eq_div_pow, Nat.shiftLeft_eq]
  omega

@[simp] theorem canidMode_canidOf (mode : BitVec 5) (aux : U16) (node : U8) :
    canidMode (canidOf mode aux node) = mode := by
  have := mode.isLt
  have := aux.isLt
  have := node.isLt
  apply BitVec.eq_of_toNat_eq
  simp only [canidMode, BitVec.extractLsb'_toNat, canidOf_toNat, Nat.shiftRight_eq_div_pow]
  omega

@[simp] theorem canidAux_canidOf (mode : BitVec 5) (aux : U16) (node : U8) :
    canidAux (canidOf mode aux node) = aux := by
  have := mode.isLt
  have := aux.isLt
  have := node.isLt
  apply BitVec.eq_of_toNat_eq
  simp only [canidAux, BitVec.extractLsb'_toNat, canidOf_toNat, Nat.shiftRight_eq_div_pow]
  omega

@[simp] theorem canidNode_canidOf (mode : BitVec 5) (aux : U16) (node : U8) :
    canidNode (canidOf mode aux node) = node := by
  have := mode.isLt
  have := aux.isLt
  have := node.isLt
  apply BitVec.eq_of_toNat_eq
  simp only [canidNode, BitVec.extractLsb'_toNat, canidOf_toNat, Nat.shiftRight_eq_div_pow]
  omega

/-- The fields of an identifier word with the marker PACK writes are that word but for its marker bits (R60, R123). -/
theorem canidOf_fields (w : U32) :
    (canidOf (canidMode w) (canidAux w) (canidNode w)).toNat = w.toNat / 8 * 8 + 4 := by
  have := w.isLt
  simp only [canidMode, canidAux, canidNode, BitVec.extractLsb'_toNat, canidOf_toNat, Nat.shiftRight_eq_div_pow]
  omega

/-! ### The arms (R81, R83) -/

/-- A FUNC without an argument (R82). -/
theorem selZero_ok {sel : U8} {op : Operation} {j : Instr} : selZero sel j = .ok op ↔ sel = 0 ∧ op = .row j := by
  unfold selZero
  split
  · rename_i h; simp [h, eq_comm]
  · rename_i h; exact ⟨nofun, fun ⟨a, _⟩ => absurd a h⟩

/-- QENC and QDEC of a width outside `QWIDTHS` (R83). -/
theorem selWidth_error {rom : Rom} {sel : U8} {one two : Instr} {other : U8 → Operation}
    (h : sel.toNat ∉ rom.qwidths) : selWidth rom sel one two other = .error .widthUnsupported := by
  simp [selWidth, h]

/-- QENC and QDEC of an admitted width are the operation of that width (R81, R82). -/
theorem selWidth_ok {rom : Rom} {sel : U8} {one two : Instr} {other : U8 → Operation}
    (h : sel.toNat ∈ rom.qwidths) :
    selWidth rom sel one two other =
      .ok (if sel = 1 then .row one else if sel = 2 then .row two else other sel) := by
  unfold selWidth
  rw [if_neg (by simp [h])]
  split
  · rfl
  · split <;> rfl

/-- A BUILD is the instruction of its SEL. -/
theorem selBuild_ok {sel : U8} {op : Operation} (h : selBuild sel = .ok op) :
    ∃ i, op = .row i ∧ ∀ r, encode r i = .opword (opwordOf 0x40 sel) := by
  unfold selBuild at h
  repeat' split at h
  all_goals first
    | cases h; subst_vars; exact ⟨_, rfl, fun _ => rfl⟩
    | cases h

/-- A TX is the instruction of its SEL. -/
theorem selTx_ok {sel : U8} {op : Operation} (h : selTx sel = .ok op) :
    ∃ i, op = .row i ∧ ∀ r, encode r i = .opword (opwordOf 0x50 sel) := by
  unfold selTx at h
  repeat' split at h
  all_goals first
    | cases h; subst_vars; exact ⟨_, rfl, fun _ => rfl⟩
    | cases h

theorem asRow_ok {e : Except Failure Instr} {op : Operation} : asRow e = .ok op ↔ ∃ i, e = .ok i ∧ op = .row i := by
  cases e <;> simp [asRow, eq_comm]

theorem asRow_error {e : Except Failure Instr} {f : Failure} : asRow e = .error f ↔ e = .error f := by
  cases e <;> simp [asRow]

end Sys2Proof.Machine
end

