-- ==== Sys2Proof/Laws/Parse.lean ====
section
/-! SUPPORT. Everything PARSE and RX can do under the standard tables (R220 to R236). -/

namespace Sys2Proof.Machine

/-- The target id of a response is the low byte of aux_field (R224). -/
theorem auxTarget_eq (aux : U16) : auxTarget aux = BitVec.ofNat 8 aux.toNat := by
  have := aux.isLt
  apply BitVec.eq_of_toNat_eq
  rw [auxTarget, BitVec.toNat_setWidth, bitRange_toNat _ _ _ (by decide) (by decide), BitVec.toNat_ofNat, auxWord,
    BitVec.toNat_setWidth]
  omega

/-- A flag of aux_field is its bit (R226, R236). -/
theorem auxFlag_eq (aux : U16) {b : Nat} (h : b < 16) : bitIsSet (auxWord aux) b = aux.getLsbD b := by
  rw [bitIsSet_eq _ _ (by omega), auxWord, BitVec.getLsbD_setWidth]
  simp
  omega

/-- The run phase is the two high bits of aux_field (R225). -/
theorem runPhase_eq (aux : U16) :
    runPhase standardRom aux =
      if aux.toNat / 2 ^ 14 = 0 then .reset else if aux.toNat / 2 ^ 14 = 1 then .calibrating
      else if aux.toNat / 2 ^ 14 = 2 then .running else .unknown := by
  have hlt := aux.isLt
  have hn : (bitRange (auxWord aux) 14 15).toNat = aux.toNat / 2 ^ 14 := by
    rw [bitRange_toNat _ _ _ (by decide) (by decide), auxWord, BitVec.toNat_setWidth]
    omega
  have hk : ∀ k : Nat, k < 2 ^ 32 → (bitRange (auxWord aux) 14 15 = BitVec.ofNat 32 k ↔ aux.toNat / 2 ^ 14 = k) := by
    intro k hk
    rw [← BitVec.toNat_inj, hn, BitVec.toNat_ofNat, Nat.mod_eq_of_lt hk]
  have h0 := hk 0 (by decide)
  have h1 := hk 1 (by decide)
  have h2 := hk 2 (by decide)
  unfold runPhase
  simp only [← h0, ← h1, ← h2]
  rfl

/-- Overload is any of the bits 13..8 (R234). -/
theorem overload_eq (ec : U32) : overload ec = decide (ec.toNat / 2 ^ 8 % 2 ^ 6 ≠ 0) := by
  have h := bitRange_toNat ec 8 13 (by decide) (by decide)
  have h0 : bitRange ec 8 13 = 0 ↔ (bitRange ec 8 13).toNat = 0 := by
    rw [← BitVec.toNat_inj]; rfl
  rw [overload, Bool.eq_iff_iff, bne_iff_ne, decide_eq_true_iff]
  exact not_congr (by rw [h0, h])

/-- Every message of mode 2 parses (R223 to R228). -/
theorem parseStatus_standard (m : RawMessage) :
    parseStatus standardRom m = .ok
      { hostId := m.nodeId, targetId := auxTarget m.auxField, runPhase := runPhase standardRom m.auxField
        errorFlags := statusFlags standardRom m.auxField
        angle := .num (decodeBinary64 2 (le16 m.payload.b0 m.payload.b1).toNat pRange.lo pRange.hi)
        speed := .num (decodeBinary64 2 (le16 m.payload.b2 m.payload.b3).toNat vRange.lo vRange.hi)
        torque := .num (decodeBinary64 2 (le16 m.payload.b4 m.payload.b5).toNat tRange.lo tRange.hi)
        temperatureC := temperature standardRom (le16 m.payload.b6 m.payload.b7) } := by
  have e1 := decodeOver_standard (r := pRange) (by simp) (le16 m.payload.b0 m.payload.b1)
  have e2 := decodeOver_standard (r := vRange) (by simp) (le16 m.payload.b2 m.payload.b3)
  have e3 := decodeOver_standard (r := tRange) (by simp) (le16 m.payload.b4 m.payload.b5)
  unfold parseStatus
  rw [show standardRom.pRange = pRange from rfl, show standardRom.vRange = vRange from rfl,
    show standardRom.tRange = tRange from rfl, e1, e2, e3]
  rfl

/-- Everything PARSE of mode 17 can do (R229). -/
theorem parseParam_cases (m : RawMessage) :
    (∃ e ∈ regcat, e.index = le16 m.payload.b0 m.payload.b1 ∧
      parseParam standardRom m = .ok
        { hostId := m.nodeId, targetId := auxTarget m.auxField, register := e
          value := decodeKind e.kind (valueField m.payload) }) ∨
    ((∀ e ∈ regcat, e.index ≠ le16 m.payload.b0 m.payload.b1) ∧
      parseParam standardRom m = .error .unknownRegister) := by
  unfold parseParam
  cases h : lookupIndex standardRom (le16 m.payload.b0 m.payload.b1) with
  | ok e =>
    obtain ⟨h1, h2⟩ := lookupIndex_ok h
    refine .inl ⟨e, h1, h2, ?_⟩
    rw [ok_bind, ← h2, regDecode_standard h1]
    rfl
  | error f =>
    obtain ⟨h1, h2⟩ := lookupIndex_error.1 h
    exact .inr ⟨h1, by rw [h2]; rfl⟩

/-- Everything PARSE can do under the standard tables (R220, R221). -/
theorem parseMessage_cases (m : RawMessage) :
    (m.commandMode = 0 ∧ m.nodeId = 0xFE ∧
      parseMessage standardRom m = .ok (.id { id := m.auxField, mcuUid := m.payload })) ∨
    (m.commandMode = 0 ∧ m.nodeId ≠ 0xFE ∧ parseMessage standardRom m = .error .modeMismatch) ∨
    (m.commandMode = 2 ∧ ∃ r, parseStatus standardRom m = .ok r ∧ parseMessage standardRom m = .ok (.status r)) ∨
    (m.commandMode = 17 ∧ ∃ r, parseParam standardRom m = .ok r ∧ parseMessage standardRom m = .ok (.paramRead r)) ∨
    (m.commandMode = 17 ∧ (∀ e ∈ regcat, e.index ≠ le16 m.payload.b0 m.payload.b1) ∧
      parseMessage standardRom m = .error .unknownRegister) ∨
    (m.commandMode = 21 ∧ parseMessage standardRom m = .ok (.fault (parseFault standardRom m))) ∨
    ((m.commandMode ≠ 0 ∧ m.commandMode ≠ 2 ∧ m.commandMode ≠ 17 ∧ m.commandMode ≠ 21) ∧
      parseMessage standardRom m = .error .unsupportedMode) := by
  unfold parseMessage
  by_cases h0 : m.commandMode = 0
  · by_cases hn : m.nodeId = 0xFE
    · refine .inl ⟨h0, hn, ?_⟩
      rw [if_pos h0, parseId, if_neg (by rw [hn]; decide)]
      rfl
    · refine .inr (.inl ⟨h0, hn, ?_⟩)
      have hn' : m.nodeId ≠ standardRom.parseConst.idSentinel := hn
      rw [if_pos h0, parseId, if_pos hn']
      rfl
  · rw [if_neg h0]
    by_cases h2 : m.commandMode = 2
    · refine .inr (.inr (.inl ⟨h2, _, parseStatus_standard m, ?_⟩))
      rw [if_pos h2, parseStatus_standard]
      rfl
    · rw [if_neg h2]
      by_cases h17 : m.commandMode = 17
      · rw [if_pos h17]
        rcases parseParam_cases m with ⟨e, _, _, hp⟩ | ⟨he, hp⟩
        · exact .inr (.inr (.inr (.inl ⟨h17, _, hp, by rw [hp]; rfl⟩)))
        · exact .inr (.inr (.inr (.inr (.inl ⟨h17, he, by rw [hp]; rfl⟩))))
      · rw [if_neg h17]
        by_cases h21 : m.commandMode = 21
        · exact .inr (.inr (.inr (.inr (.inr (.inl ⟨h21, if_pos h21⟩)))))
        · exact .inr (.inr (.inr (.inr (.inr (.inr ⟨⟨h0, h2, h17, h21⟩, if_neg h21⟩)))))

/-- A frame error hides any parse error (R235, R254). -/
theorem receive_error {data : List Byte} {f : Failure} (rom : Rom) (h : unwrapFrame rom data = .error f) :
    receive rom data = .error f := by
  rw [receive, h, error_bind]

/-- RX of an accepted frame is PARSE of its message (R235). -/
theorem receive_ok {data : List Byte} {m : RawMessage} (rom : Rom) (h : unwrapFrame rom data = .ok m) :
    receive rom data = parseMessage rom m := by
  rw [receive, h, ok_bind]

end Sys2Proof.Machine
end

