-- ==== Sys2Proof/Laws/PerInstr.lean ====
section
/-!
SUPPORT. The family `RowWord`: the word the encoder gives an instruction fits the instruction's row of
spec/opcode_table.json, whose mask and match stand here as the table writes them.
-/

namespace Sys2Proof.Laws

open Sys2Proof.Machine

/-- The mask and the match of a row. -/
structure RowBits where
  mask : Nat
  value : Nat

/-- The row of each instruction. -/
def rowBits : Instr → RowBits
  | .qenc1 => ⟨0xFFFF, 0x0101⟩
  | .qenc2 => ⟨0xFFFF, 0x0102⟩
  | .qdec1 => ⟨0xFFFF, 0x0201⟩
  | .qdec2 => ⟨0xFFFF, 0x0202⟩
  | .qtemp => ⟨0xFFFF, 0x0300⟩
  | .pack => ⟨0xFFFF, 0x1000⟩
  | .unpack => ⟨0xFFFF, 0x1100⟩
  | .xbits => ⟨0xFFFF, 0x1200⟩
  | .wrap => ⟨0xFFFF, 0x2000⟩
  | .unwrap => ⟨0xFFFF, 0x2100⟩
  | .rlook => ⟨0xFFFF, 0x3000⟩
  | .rlookn => ⟨0xFFFF, 0x3100⟩
  | .renc => ⟨0xFFFF, 0x3200⟩
  | .rdec => ⟨0xFFFF, 0x3300⟩
  | .build0 => ⟨0xFFFF, 0x4000⟩
  | .build1 => ⟨0xFFFF, 0x4001⟩
  | .build3 => ⟨0xFFFF, 0x4003⟩
  | .build4 => ⟨0xFFFF, 0x4004⟩
  | .build6 => ⟨0xFFFF, 0x4006⟩
  | .build7 => ⟨0xFFFF, 0x4007⟩
  | .build17 => ⟨0xFFFF, 0x4011⟩
  | .build18 => ⟨0xFFFF, 0x4012⟩
  | .parse => ⟨0xFFFF, 0x4100⟩
  | .tx0 => ⟨0xFFFF, 0x5000⟩
  | .tx1 => ⟨0xFFFF, 0x5001⟩
  | .tx3 => ⟨0xFFFF, 0x5003⟩
  | .tx4 => ⟨0xFFFF, 0x5004⟩
  | .tx6 => ⟨0xFFFF, 0x5006⟩
  | .tx7 => ⟨0xFFFF, 0x5007⟩
  | .tx17 => ⟨0xFFFF, 0x5011⟩
  | .tx18 => ⟨0xFFFF, 0x5012⟩
  | .rx => ⟨0xFFFF, 0x5100⟩
  | .msgIdQuery _ _ => ⟨0xF8000000, 0x00000000⟩
  | .msgControlCommand _ _ => ⟨0xF8000000, 0x08000000⟩
  | .msgStatusResponse _ _ => ⟨0xF8000000, 0x10000000⟩
  | .msgEnable _ _ => ⟨0xF8000000, 0x18000000⟩
  | .msgDisable _ _ => ⟨0xF8000000, 0x20000000⟩
  | .msgSetZero _ _ => ⟨0xF8000000, 0x30000000⟩
  | .msgSetId _ _ => ⟨0xF8000000, 0x38000000⟩
  | .msgReadParam _ _ => ⟨0xF8000000, 0x88000000⟩
  | .msgWriteParam _ _ => ⟨0xF8000000, 0x90000000⟩
  | .msgIdResponse _ _ => ⟨0xF8000000, 0x00000000⟩
  | .msgParamReadResponse _ _ => ⟨0xF8000000, 0x88000000⟩
  | .msgFaultResponse _ _ => ⟨0xF8000000, 0xA8000000⟩
  | .regRunMode => ⟨0xFFFF, 0x7005⟩
  | .regIqRef => ⟨0xFFFF, 0x7006⟩
  | .regSpdRef => ⟨0xFFFF, 0x700A⟩
  | .regLimitTorque => ⟨0xFFFF, 0x700B⟩
  | .regCurKp => ⟨0xFFFF, 0x7010⟩
  | .regCurKi => ⟨0xFFFF, 0x7011⟩
  | .regCurFiltGain => ⟨0xFFFF, 0x7014⟩
  | .regLocRef => ⟨0xFFFF, 0x7016⟩
  | .regLimitSpd => ⟨0xFFFF, 0x7017⟩
  | .regLimitCur => ⟨0xFFFF, 0x7018⟩
  | .regMechPos => ⟨0xFFFF, 0x7019⟩
  | .regIqf => ⟨0xFFFF, 0x701A⟩
  | .regMechVel => ⟨0xFFFF, 0x701B⟩
  | .regVbus => ⟨0xFFFF, 0x701C⟩
  | .regRotationCount => ⟨0xFFFF, 0x701D⟩

/-- The bits of a word of the table. -/
def wordBits : TableWord → Nat
  | .opword w => w.toNat
  | .canid _ w => w.toNat
  | .regidx w => w.toNat

/-- The word of the instruction, under the row's mask, is the row's match. -/
def RowWord.Statement (i : Instr) : Prop :=
  wordBits (encode regIndex i) &&& (rowBits i).mask = (rowBits i).value

/-- The top five bits of an identifier word are its mode, whatever the other fields hold. -/
theorem canidOf_masked (mode : BitVec 5) (aux : U16) (node : U8) :
    (canidOf mode aux node).toNat &&& 0xF8000000 = mode.toNat * 2 ^ 27 := by
  have hm := mode.isLt
  have ha := aux.isLt
  have hn := node.isLt
  have h1 : ((canidOf mode aux node).toNat &&& 0xF8000000) / 2 ^ 27 = mode.toNat := by
    rw [← Nat.shiftRight_eq_div_pow, Nat.shiftRight_and_distrib, canidOf_toNat, Nat.shiftRight_eq_div_pow]
    rw [show (0xF8000000 : Nat) >>> 27 = 2 ^ 5 - 1 by decide, Nat.and_two_pow_sub_one_eq_mod]
    omega
  have h2 : ((canidOf mode aux node).toNat &&& 0xF8000000) % 2 ^ 27 = 0 := by
    rw [Nat.and_mod_two_pow, show (0xF8000000 : Nat) % 2 ^ 27 = 0 by decide, Nat.and_zero]
  omega

theorem RowWord.qenc1 : RowWord.Statement .qenc1 := rfl

theorem RowWord.qenc2 : RowWord.Statement .qenc2 := rfl

theorem RowWord.qdec1 : RowWord.Statement .qdec1 := rfl

theorem RowWord.qdec2 : RowWord.Statement .qdec2 := rfl

theorem RowWord.qtemp : RowWord.Statement .qtemp := rfl

theorem RowWord.pack : RowWord.Statement .pack := rfl

theorem RowWord.unpack : RowWord.Statement .unpack := rfl

theorem RowWord.xbits : RowWord.Statement .xbits := rfl

theorem RowWord.wrap : RowWord.Statement .wrap := rfl

theorem RowWord.unwrap : RowWord.Statement .unwrap := rfl

theorem RowWord.rlook : RowWord.Statement .rlook := rfl

theorem RowWord.rlookn : RowWord.Statement .rlookn := rfl

theorem RowWord.renc : RowWord.Statement .renc := rfl

theorem RowWord.rdec : RowWord.Statement .rdec := rfl

theorem RowWord.build0 : RowWord.Statement .build0 := rfl

theorem RowWord.build1 : RowWord.Statement .build1 := rfl

theorem RowWord.build3 : RowWord.Statement .build3 := rfl

theorem RowWord.build4 : RowWord.Statement .build4 := rfl

theorem RowWord.build6 : RowWord.Statement .build6 := rfl

theorem RowWord.build7 : RowWord.Statement .build7 := rfl

theorem RowWord.build17 : RowWord.Statement .build17 := rfl

theorem RowWord.build18 : RowWord.Statement .build18 := rfl

theorem RowWord.parse : RowWord.Statement .parse := rfl

theorem RowWord.tx0 : RowWord.Statement .tx0 := rfl

theorem RowWord.tx1 : RowWord.Statement .tx1 := rfl

theorem RowWord.tx3 : RowWord.Statement .tx3 := rfl

theorem RowWord.tx4 : RowWord.Statement .tx4 := rfl

theorem RowWord.tx6 : RowWord.Statement .tx6 := rfl

theorem RowWord.tx7 : RowWord.Statement .tx7 := rfl

theorem RowWord.tx17 : RowWord.Statement .tx17 := rfl

theorem RowWord.tx18 : RowWord.Statement .tx18 := rfl

theorem RowWord.rx : RowWord.Statement .rx := rfl

theorem RowWord.msgIdQuery (aux : U16) (node : U8) : RowWord.Statement (.msgIdQuery aux node) :=
  canidOf_masked 0 aux node

theorem RowWord.msgControlCommand (aux : U16) (node : U8) : RowWord.Statement (.msgControlCommand aux node) :=
  canidOf_masked 1 aux node

theorem RowWord.msgStatusResponse (aux : U16) (node : U8) : RowWord.Statement (.msgStatusResponse aux node) :=
  canidOf_masked 2 aux node

theorem RowWord.msgEnable (aux : U16) (node : U8) : RowWord.Statement (.msgEnable aux node) :=
  canidOf_masked 3 aux node

theorem RowWord.msgDisable (aux : U16) (node : U8) : RowWord.Statement (.msgDisable aux node) :=
  canidOf_masked 4 aux node

theorem RowWord.msgSetZero (aux : U16) (node : U8) : RowWord.Statement (.msgSetZero aux node) :=
  canidOf_masked 6 aux node

theorem RowWord.msgSetId (aux : U16) (node : U8) : RowWord.Statement (.msgSetId aux node) :=
  canidOf_masked 7 aux node

theorem RowWord.msgReadParam (aux : U16) (node : U8) : RowWord.Statement (.msgReadParam aux node) :=
  canidOf_masked 17 aux node

theorem RowWord.msgWriteParam (aux : U16) (node : U8) : RowWord.Statement (.msgWriteParam aux node) :=
  canidOf_masked 18 aux node

theorem RowWord.msgIdResponse (aux : U16) (node : U8) : RowWord.Statement (.msgIdResponse aux node) :=
  canidOf_masked 0 aux node

theorem RowWord.msgParamReadResponse (aux : U16) (node : U8) : RowWord.Statement (.msgParamReadResponse aux node) :=
  canidOf_masked 17 aux node

theorem RowWord.msgFaultResponse (aux : U16) (node : U8) : RowWord.Statement (.msgFaultResponse aux node) :=
  canidOf_masked 21 aux node

theorem RowWord.regRunMode : RowWord.Statement .regRunMode := rfl

theorem RowWord.regIqRef : RowWord.Statement .regIqRef := rfl

theorem RowWord.regSpdRef : RowWord.Statement .regSpdRef := rfl

theorem RowWord.regLimitTorque : RowWord.Statement .regLimitTorque := rfl

theorem RowWord.regCurKp : RowWord.Statement .regCurKp := rfl

theorem RowWord.regCurKi : RowWord.Statement .regCurKi := rfl

theorem RowWord.regCurFiltGain : RowWord.Statement .regCurFiltGain := rfl

theorem RowWord.regLocRef : RowWord.Statement .regLocRef := rfl

theorem RowWord.regLimitSpd : RowWord.Statement .regLimitSpd := rfl

theorem RowWord.regLimitCur : RowWord.Statement .regLimitCur := rfl

theorem RowWord.regMechPos : RowWord.Statement .regMechPos := rfl

theorem RowWord.regIqf : RowWord.Statement .regIqf := rfl

theorem RowWord.regMechVel : RowWord.Statement .regMechVel := rfl

theorem RowWord.regVbus : RowWord.Statement .regVbus := rfl

theorem RowWord.regRotationCount : RowWord.Statement .regRotationCount := rfl

end Sys2Proof.Laws
end

