-- ==== Sys2Proof/Laws/Run.lean ====
section
/-! SUPPORT. One step of a run of the machine the host sees. -/

namespace Sys2Proof.Machine

/-- A run goes on from the next state of its first step. -/
theorem run_next {M : Host.Core} {s t : M.State} {k : Nat} (h : M.step s = .next t) : M.run (k + 1) s = M.run k t := by
  simp [Host.Core.run, h]

end Sys2Proof.Machine
end

