-- ==== Sys2Proof/Laws/WireWord.lean ====
section
/-! SUPPORT. The request by which a table word runs, field by field, and that the torque operand it gives a ControlCommand
word is encoded as the word's aux_field (R67, R102). -/

namespace Sys2Proof.Machine

/-! ### The fields of the request -/

@[simp] theorem requestOf_opword (rom : Rom) (w : U16) (o : Operands) :
    requestOf rom (.opword w) o = { opword := w, operands := o } := rfl
@[simp] theorem requestOf_toDevice_opword (rom : Rom) (w : U32) (o : Operands) :
    (requestOf rom (.canid .toDevice w) o).opword = opwordOf 0x40 ((canidMode w).setWidth 8) := rfl
@[simp] theorem requestOf_toDevice_operands (rom : Rom) (w : U32) (o : Operands) :
    (requestOf rom (.canid .toDevice w) o).operands =
      buildOperands rom (canidMode w) (canidAux w) (canidNode w) o := rfl
@[simp] theorem requestOf_toHost_opword (rom : Rom) (w : U32) (o : Operands) :
    (requestOf rom (.canid .toHost w) o).opword = opwordOf 0x41 0 := rfl
@[simp] theorem requestOf_toHost_operands (rom : Rom) (w : U32) (o : Operands) :
    (requestOf rom (.canid .toHost w) o).operands =
      parseOperands (canidMode w) (canidAux w) (canidNode w) o := rfl
@[simp] theorem requestOf_regidx_opword (rom : Rom) (w : U16) (o : Operands) :
    (requestOf rom (.regidx w) o).opword = opwordOf 0x32 0 := rfl
@[simp] theorem requestOf_regidx_operands (rom : Rom) (w : U16) (o : Operands) :
    (requestOf rom (.regidx w) o).operands = { o with index := w } := rfl

/-! ### The middle of a torque code -/

/-- A number with at most 53 bits times a power of two bounds what it bounds before rounding. -/
theorem round_grid {n d m k : Nat} (hd : 0 < d) (hm : m < 2 ^ 53) (hk : k ≤ 2044) :
    (n ≤ m * 2 ^ k * d → magUnits 52 (min (roundMag 52 n d) infMag64) ≤ m * 2 ^ k) ∧
    (m * 2 ^ k * d ≤ n → m * 2 ^ k ≤ magUnits 52 (min (roundMag 52 n d) infMag64)) := by
  obtain ⟨mag, h1, h2⟩ := exists_mag 52 m k hm
  have h3 : mag < infMag64 := by unfold infMag64; omega
  have e := roundMag_magUnits 52 mag hd
  have mono : ∀ {a b : Nat}, a ≤ b → magUnits 52 a ≤ magUnits 52 b := fun {a b} h => by
    have := @magUnits_lt 52 b a; omega
  rw [← h1]
  refine ⟨fun h => mono ?_, fun h => mono ?_⟩
  · have := roundMag_mono (fb := 52) hd hd (Nat.mul_le_mul_right d h)
    rw [e] at this
    exact Nat.le_trans (Nat.min_le_left _ _) this
  · have := roundMag_mono (fb := 52) hd hd (Nat.mul_le_mul_right d h)
    rw [e] at this
    exact Nat.le_min.2 ⟨this, Nat.le_of_lt h3⟩

/-- The same of a value with a sign. -/
theorem round64_grid {n m : Int} {d k : Nat} (hd : 0 < d) (hm : m.natAbs < 2 ^ 53) (hk : k ≤ 2044) :
    (n ≤ m * (2 ^ k : Nat) * d → f64Units (round64 (n < 0) n.natAbs d) ≤ m * (2 ^ k : Nat)) ∧
    (m * (2 ^ k : Nat) * d ≤ n → m * (2 ^ k : Nat) ≤ f64Units (round64 (n < 0) n.natAbs d)) := by
  obtain ⟨a, b⟩ := round_grid (n := n.natAbs) (m := m.natAbs) hd hm hk
  have hlt : min (roundMag 52 n.natAbs d) infMag64 < 2 ^ 63 := Nat.lt_of_le_of_lt (Nat.min_le_right _ _) infMag64_lt
  rw [round64, f64Units_f64Of _ hlt]
  generalize magUnits 52 (min (roundMag 52 n.natAbs d) infMag64) = U at *
  have hp : 0 < 2 ^ k := Nat.two_pow_pos k
  generalize 2 ^ k = P at *
  have hPd : 0 < P * d := Nat.mul_pos hp hd
  rw [Int.mul_assoc, ← Int.natCast_mul]
  rw [Nat.mul_assoc] at a b
  have key : ∀ Q : Nat, ((m.natAbs * Q : Nat) : Int) = if m < 0 then -(m * Q) else m * Q := fun Q => by
    rw [Int.natCast_mul, Int.natCast_natAbs]
    split
    · rw [abs_of_neg (by assumption), Int.neg_mul]
    · rw [abs_of_nonneg (by omega)]
  have k1 := key P
  have k2 := key (P * d)
  have s1 : m < 0 → m * P < 0 := fun h => Int.mul_neg_of_neg_of_pos h (by omega)
  have s2 : m < 0 → m * (P * d : Nat) < 0 := fun h => Int.mul_neg_of_neg_of_pos h (by omega)
  have s3 : ¬ m < 0 → 0 ≤ m * P := fun h => Int.mul_nonneg (by omega) (by omega)
  have s4 : ¬ m < 0 → 0 ≤ m * (P * d : Nat) := fun h => Int.mul_nonneg (by omega) (by omega)
  generalize m * (P : Int) = X at *
  generalize m * ((P * d : Nat) : Int) = Y at *
  generalize m.natAbs * P = X' at *
  generalize m.natAbs * (P * d) = Y' at *
  clear key hlt hm hk hp hPd
  by_cases hn : n < 0 <;> by_cases hm0 : m < 0 <;>
    simp only [hn, hm0, decide_true, decide_false, if_true, if_false, Bool.false_eq_true, true_implies, not_true,
      false_implies, not_false_eq_true] at k1 k2 s1 s2 s3 s4 ⊢ <;>
    constructor <;> intro h <;> omega

/-- The spacing in which the middle of a torque code is followed through QENC, in binary64 units: `2^-30`. -/
def grid : Nat := 2 ^ 1044

theorem grid_pos : 0 < grid := by decide +kernel
theorem one64_grid : one64 = 1073741824 * grid := by decide +kernel
theorem pow1044_grid : 2 ^ 1044 = grid := by decide +kernel
theorem pow1048_grid : 2 ^ 1048 = 16 * grid := by decide +kernel
theorem pow1064_grid : 2 ^ 1064 = 1048576 * grid := by decide +kernel
theorem pow1074_grid : 2 ^ 1074 = 1073741824 * grid := by decide +kernel

theorem tRange_units :
    f64Units tRange.lo = -(12 * (one64 : Int)) ∧ f64Units tRange.hi = 12 * (one64 : Int) ∧
      magUnits 52 (f64Mag (f64Sub tRange.hi tRange.lo)) = 24 * one64 ∧
      isFinite (f64Sub tRange.hi tRange.lo) = true := by decide +kernel

theorem magUnits_eq_natAbs (x : F64) : magUnits 52 (f64Mag x) = (f64Units x).natAbs := by
  unfold f64Units; split <;> omega

theorem infMag64_units : 2 ^ 60 * grid < magUnits 52 infMag64 := by decide +kernel

/-- The middle of a torque code: a number of the range, within a step of `2^-26` of the exact middle. -/
theorem centreOf_torque {code : U16} (h : code.toNat < 65535) :
    ∃ m : Int, m = (48 * (code.toNat : Int) - 1572816) * 67108864 / 131070 ∧
      m * (16 * grid : Nat) ≤ f64Units (centreOf tRange code) ∧
      f64Units (centreOf tRange code) ≤ (m + 1) * (16 * grid : Nat) := by
  obtain ⟨u1, u2, _, _⟩ := tRange_units
  refine ⟨_, rfl, ?_⟩
  simp only [centreOf, u1, u2]
  have hn : -(12 * (one64 : Int)) * (2 * ((65535 : Nat) : Int)) +
        (2 * (code.toNat : Int) + 1) * (12 * (one64 : Int) - -(12 * (one64 : Int))) =
      (48 * (code.toNat : Int) - 1572816) * 67108864 * (16 * grid : Nat) := by
    rw [one64_grid]; push_cast; ring
  rw [hn]
  generalize hA : (48 * (code.toNat : Int) - 1572816) * 67108864 = A
  have hm1 : A / 131070 * 131070 ≤ A := by omega
  have hm2 : A ≤ (A / 131070 + 1) * 131070 := by omega
  have hG : (0 : Int) ≤ (16 * grid : Nat) := by omega
  constructor
  · have := (round64_grid (n := A * (16 * grid : Nat)) (m := A / 131070) (d := 2 * 65535) (k := 1048)
      (by decide) (by omega) (by decide)).2
    rw [pow1048_grid] at this
    refine this ?_
    rw [Int.mul_right_comm]
    exact Int.mul_le_mul_of_nonneg_right hm1 hG
  · have := (round64_grid (n := A * (16 * grid : Nat)) (m := A / 131070 + 1) (d := 2 * 65535) (k := 1048)
      (by decide) (by omega) (by decide)).1
    rw [pow1048_grid] at this
    refine this ?_
    rw [Int.mul_right_comm]
    exact Int.mul_le_mul_of_nonneg_right hm2 hG


/-- QENC over `T_RANGE` of the middle of a code's interval gives the code (R102). -/
theorem encodeOver_centreOf (code : U16) : encodeOver standardRom tRange (centreOf tRange code) = .ok code := by
  have hnan : isNaN (centreOf tRange code) = false := isNaN_round64 _ _ _
  rw [encodeOver_standard (by decide), hnan, if_neg Bool.false_ne_true]
  by_cases hc : code.toNat < 65535
  case neg =>
    have hlt := code.isLt
    have : code = 65535 := BitVec.eq_of_toNat_eq (by simp; omega)
    subst this
    decide +kernel
  refine congrArg Except.ok ?_
  apply BitVec.eq_of_toNat_eq
  obtain ⟨u1, u2, u3, u4⟩ := tRange_units
  obtain ⟨m, hm, v1, v2⟩ := centreOf_torque hc
  obtain ⟨g1, g2, g3⟩ := badRange_eq_false.1 (badRange_rom tRange (by decide))
  have hm0 : -(12 * 67108864) ≤ m := by omega
  have hm1 : m + 1 ≤ 12 * 67108864 := by omega
  generalize hv : centreOf tRange code = v at *
  have hgp := grid_pos
  have hone := one64_grid
  have p1 : -(12 * 67108864) * ((16 * grid : Nat) : Int) ≤ m * (16 * grid : Nat) :=
    Int.mul_le_mul_of_nonneg_right hm0 (by omega)
  have p2 : (m + 1) * ((16 * grid : Nat) : Int) ≤ 12 * 67108864 * (16 * grid : Nat) :=
    Int.mul_le_mul_of_nonneg_right hm1 (by omega)
  have hfin : isFinite v = true := by
    have h1 := magUnits_eq_natAbs v
    have h2 := @magUnits_lt 52 (f64Mag v) infMag64
    have h3 := infMag64_units
    simp only [isFinite, decide_eq_true_eq]
    exact h2.1 (by omega)
  have hcl : clamp v tRange.lo tRange.hi = v := by
    have a1 : ¬ f64Lt v tRange.lo = true := by rw [f64Lt_finite hfin g1]; omega
    have a2 : ¬ f64Lt tRange.hi v = true := by rw [f64Lt_finite g2 hfin]; omega
    rw [clamp, if_neg a1, if_neg a2]
  obtain ⟨r1, _, _, _, r3, _⟩ := encode_ratio hnan g1 g2 g3 u4
  obtain ⟨r4, hpf, _⟩ := encodeProduct_spec (w := 2) (by decide) hnan g1 g2 g3 u4
  obtain ⟨hfl, hle⟩ := encodeBinary64_spec (w := 2) (by decide) hnan g1 g2 g3 u4
  rw [hcl, u1] at r1
  rw [hcl, u3] at r3
  rw [hcl] at r4
  -- the difference, in steps of `2^-26`
  obtain ⟨j, hj⟩ := Int.eq_ofNat_of_zero_le (a := m + 12 * 67108864) (by omega)
  have q1 : (j : Int) * (16 * grid : Nat) = m * (16 * grid : Nat) + 12 * (one64 : Int) := by
    rw [← hj, hone]; push_cast; ring
  have q2 : ((j : Int) + 1) * (16 * grid : Nat) = (m + 1) * (16 * grid : Nat) + 12 * (one64 : Int) := by
    rw [← hj, hone]; push_cast; ring
  have s1 := (round_grid (n := (f64Units v - -(12 * (one64 : Int))).toNat) (m := j) (d := 1) (k := 1048)
    (by decide) (by omega) (by decide)).2
  have s2 := (round_grid (n := (f64Units v - -(12 * (one64 : Int))).toNat) (m := j + 1) (d := 1) (k := 1048)
    (by decide) (by omega) (by decide)).1
  rw [← r1.mag, pow1048_grid] at s1 s2
  have q1' : ((j * (16 * grid) : Nat) : Int) = (j : Int) * (16 * grid : Nat) := by push_cast; ring
  have q2' : (((j + 1) * (16 * grid) : Nat) : Int) = ((j : Int) + 1) * (16 * grid : Nat) := by push_cast; ring
  have s1 := s1 (by omega)
  have s2 := s2 (by omega)
  generalize magUnits 52 (f64Mag (f64Sub v tRange.lo)) = S at *
  -- the ratio, in steps of `2^-30`
  have hd : 0 < 24 * one64 := by omega
  have t1 := (round_grid (n := S * one64) (m := j * 2 / 3) (k := 1044) hd (by omega) (by decide)).2
  have t2 := (round_grid (n := S * one64) (m := (j + 1) * 2 / 3 + 1) (k := 1044) hd (by omega) (by decide)).1
  rw [← r3.mag, pow1044_grid] at t1 t2
  have t1 := t1 (by
    have : j * 2 / 3 * grid * (24 * one64) = j * 2 / 3 * 24 * (grid * one64) := by ring
    rw [this]
    have : j * 2 / 3 * 24 ≤ j * 16 := by omega
    calc _ ≤ j * 16 * (grid * one64) := Nat.mul_le_mul_right _ this
      _ = j * (16 * grid) * one64 := by ring
      _ ≤ S * one64 := Nat.mul_le_mul_right _ s1)
  have t2 := t2 (by
    have : ((j + 1) * 2 / 3 + 1) * grid * (24 * one64) = ((j + 1) * 2 / 3 + 1) * 24 * (grid * one64) := by ring
    rw [this]
    have : (j + 1) * 16 ≤ ((j + 1) * 2 / 3 + 1) * 24 := by omega
    calc S * one64 ≤ (j + 1) * (16 * grid) * one64 := Nat.mul_le_mul_right _ s2
      _ = (j + 1) * 16 * (grid * one64) := by ring
      _ ≤ _ := Nat.mul_le_mul_right _ this)
  generalize magUnits 52 (f64Mag (f64Div (f64Sub v tRange.lo) (f64Sub tRange.hi tRange.lo))) = R at *
  -- the product, in units of 1
  have hM : maxCode 2 = 65535 := rfl
  rw [hM] at r4
  generalize code.toNat = c at *
  have w1 := (round_grid (n := R * (65535 * one64)) (m := c) (k := 1074) one64_pos (by omega) (by decide)).2
  have w2 := (round_grid (n := R * (65535 * one64)) (m := c * 1024 + 1023) (k := 1064) one64_pos (by omega) (by decide)).1
  rw [← r4.mag, pow1074_grid] at w1
  rw [← r4.mag, pow1064_grid] at w2
  have w1 := w1 (by
    have : c * 1073741824 ≤ j * 2 / 3 * 65535 := by omega
    calc c * (1073741824 * grid) * one64 = c * 1073741824 * (grid * one64) := by ring
      _ ≤ j * 2 / 3 * 65535 * (grid * one64) := Nat.mul_le_mul_right _ this
      _ = j * 2 / 3 * grid * (65535 * one64) := by ring
      _ ≤ _ := Nat.mul_le_mul_right _ t1)
  have w2 := w2 (by
    have : ((j + 1) * 2 / 3 + 1) * 65535 ≤ (c * 1024 + 1023) * 1048576 := by omega
    calc R * (65535 * one64) ≤ ((j + 1) * 2 / 3 + 1) * grid * (65535 * one64) := Nat.mul_le_mul_right _ t2
      _ = ((j + 1) * 2 / 3 + 1) * 65535 * (grid * one64) := by ring
      _ ≤ (c * 1024 + 1023) * 1048576 * (grid * one64) := Nat.mul_le_mul_right _ this
      _ = _ := by ring)
  have hu := f64Units_nonneg r4.nonneg
  rw [f64Floor, hu] at hfl
  generalize magUnits 52 (f64Mag (encodeProduct 2 v tRange.lo tRange.hi)) = U at *
  have f1 : (U : Int) / (one64 : Int) = c := by
    have y1 : c * one64 ≤ U := by rw [hone]; exact w1
    have y2 : U < (c + 1) * one64 := by
      rw [hone]
      refine Nat.lt_of_le_of_lt w2 ?_
      have : (c * 1024 + 1023) * 1048576 < (c + 1) * 1073741824 := by omega
      calc _ = (c * 1024 + 1023) * 1048576 * grid := by ring
        _ < (c + 1) * 1073741824 * grid := Nat.mul_lt_mul_of_pos_right this hgp
        _ = _ := by ring
    rw [← Int.natCast_ediv, Nat.div_eq_of_lt_le y1 y2]
  rw [f1] at hfl
  rw [BitVec.toNat_ofNat]
  omega
end Sys2Proof.Machine
end

