-- ==== Sys2Proof/Tests/Slice0.lean ====
section
/-!
SUPPORT. The row's own tests: a smoke test of every well-formedness check, one written-out word for every instruction,
at most two one-step tests for an instruction (expected values from spec/95_test_vectors.md, whose ids the comments
name), and for every statement with hypotheses a witness that meets them. Numbers are binary64 patterns; the comment
beside a test says which.
-/

namespace Sys2Proof.Tests

open Sys2Proof.Machine

set_option Elab.async false

/-! ### Well-formedness: one ill-formed term for each check -/

theorem test_wf_refuses_msgIdQuery : (Instr.msgIdQuery 0x0100 1).wf = false := by decide
theorem test_wf_refuses_msgEnable : (Instr.msgEnable 0x0100 1).wf = false := by decide
theorem test_wf_refuses_msgDisable : (Instr.msgDisable 0x0100 1).wf = false := by decide
theorem test_wf_refuses_msgSetZero : (Instr.msgSetZero 0x0100 1).wf = false := by decide
theorem test_wf_refuses_msgReadParam : (Instr.msgReadParam 0x0100 1).wf = false := by decide
theorem test_wf_refuses_msgWriteParam : (Instr.msgWriteParam 0x0100 1).wf = false := by decide
theorem test_wf_refuses_msgIdResponse : (Instr.msgIdResponse 0x007F 0xFD).wf = false := by decide
theorem test_wf_admits_the_boundary :
    (Instr.msgIdQuery 0x00FF 255).wf = true ∧ (Instr.msgIdResponse 0xFFFF 0xFE).wf = true := by decide

/-! ### Decoding: one word of every row, written out from R81, R60 and R161 -/

theorem test_decode_qenc1 : decode standardRom (.opword 0b00000001_00000001) = .ok (.row .qenc1) := by decide
theorem test_decode_qenc2 : decode standardRom (.opword 0b00000001_00000010) = .ok (.row .qenc2) := by decide
theorem test_decode_qdec1 : decode standardRom (.opword 0b00000010_00000001) = .ok (.row .qdec1) := by decide
theorem test_decode_qdec2 : decode standardRom (.opword 0b00000010_00000010) = .ok (.row .qdec2) := by decide
theorem test_decode_qtemp : decode standardRom (.opword 0b00000011_00000000) = .ok (.row .qtemp) := by decide
theorem test_decode_pack : decode standardRom (.opword 0b00010000_00000000) = .ok (.row .pack) := by decide
theorem test_decode_unpack : decode standardRom (.opword 0b00010001_00000000) = .ok (.row .unpack) := by decide
theorem test_decode_xbits : decode standardRom (.opword 0b00010010_00000000) = .ok (.row .xbits) := by decide
theorem test_decode_wrap : decode standardRom (.opword 0b00100000_00000000) = .ok (.row .wrap) := by decide
theorem test_decode_unwrap : decode standardRom (.opword 0b00100001_00000000) = .ok (.row .unwrap) := by decide
theorem test_decode_rlook : decode standardRom (.opword 0b00110000_00000000) = .ok (.row .rlook) := by decide
theorem test_decode_rlookn : decode standardRom (.opword 0b00110001_00000000) = .ok (.row .rlookn) := by decide
theorem test_decode_renc : decode standardRom (.opword 0b00110010_00000000) = .ok (.row .renc) := by decide
theorem test_decode_rdec : decode standardRom (.opword 0b00110011_00000000) = .ok (.row .rdec) := by decide
theorem test_decode_build0 : decode standardRom (.opword 0b01000000_00000000) = .ok (.row .build0) := by decide
theorem test_decode_build1 : decode standardRom (.opword 0b01000000_00000001) = .ok (.row .build1) := by decide
theorem test_decode_build3 : decode standardRom (.opword 0b01000000_00000011) = .ok (.row .build3) := by decide
theorem test_decode_build4 : decode standardRom (.opword 0b01000000_00000100) = .ok (.row .build4) := by decide
theorem test_decode_build6 : decode standardRom (.opword 0b01000000_00000110) = .ok (.row .build6) := by decide
theorem test_decode_build7 : decode standardRom (.opword 0b01000000_00000111) = .ok (.row .build7) := by decide
theorem test_decode_build17 : decode standardRom (.opword 0b01000000_00010001) = .ok (.row .build17) := by decide
theorem test_decode_build18 : decode standardRom (.opword 0b01000000_00010010) = .ok (.row .build18) := by decide
theorem test_decode_parse : decode standardRom (.opword 0b01000001_00000000) = .ok (.row .parse) := by decide
theorem test_decode_tx0 : decode standardRom (.opword 0b01010000_00000000) = .ok (.row .tx0) := by decide
theorem test_decode_tx1 : decode standardRom (.opword 0b01010000_00000001) = .ok (.row .tx1) := by decide
theorem test_decode_tx3 : decode standardRom (.opword 0b01010000_00000011) = .ok (.row .tx3) := by decide
theorem test_decode_tx4 : decode standardRom (.opword 0b01010000_00000100) = .ok (.row .tx4) := by decide
theorem test_decode_tx6 : decode standardRom (.opword 0b01010000_00000110) = .ok (.row .tx6) := by decide
theorem test_decode_tx7 : decode standardRom (.opword 0b01010000_00000111) = .ok (.row .tx7) := by decide
theorem test_decode_tx17 : decode standardRom (.opword 0b01010000_00010001) = .ok (.row .tx17) := by decide
theorem test_decode_tx18 : decode standardRom (.opword 0b01010000_00010010) = .ok (.row .tx18) := by decide
theorem test_decode_rx : decode standardRom (.opword 0b01010001_00000000) = .ok (.row .rx) := by decide
theorem test_decode_regRunMode : decode standardRom (.regidx 0b01110000_00000101) = .ok (.row .regRunMode) := by decide
theorem test_decode_regIqRef : decode standardRom (.regidx 0b01110000_00000110) = .ok (.row .regIqRef) := by decide
theorem test_decode_regSpdRef : decode standardRom (.regidx 0b01110000_00001010) = .ok (.row .regSpdRef) := by decide
theorem test_decode_regLimitTorque : decode standardRom (.regidx 0b01110000_00001011) = .ok (.row .regLimitTorque) := by decide
theorem test_decode_regCurKp : decode standardRom (.regidx 0b01110000_00010000) = .ok (.row .regCurKp) := by decide
theorem test_decode_regCurKi : decode standardRom (.regidx 0b01110000_00010001) = .ok (.row .regCurKi) := by decide
theorem test_decode_regCurFiltGain : decode standardRom (.regidx 0b01110000_00010100) = .ok (.row .regCurFiltGain) := by decide
theorem test_decode_regLocRef : decode standardRom (.regidx 0b01110000_00010110) = .ok (.row .regLocRef) := by decide
theorem test_decode_regLimitSpd : decode standardRom (.regidx 0b01110000_00010111) = .ok (.row .regLimitSpd) := by decide
theorem test_decode_regLimitCur : decode standardRom (.regidx 0b01110000_00011000) = .ok (.row .regLimitCur) := by decide
theorem test_decode_regMechPos : decode standardRom (.regidx 0b01110000_00011001) = .ok (.row .regMechPos) := by decide
theorem test_decode_regIqf : decode standardRom (.regidx 0b01110000_00011010) = .ok (.row .regIqf) := by decide
theorem test_decode_regMechVel : decode standardRom (.regidx 0b01110000_00011011) = .ok (.row .regMechVel) := by decide
theorem test_decode_regVbus : decode standardRom (.regidx 0b01110000_00011100) = .ok (.row .regVbus) := by decide
theorem test_decode_regRotationCount : decode standardRom (.regidx 0b01110000_00011101) = .ok (.row .regRotationCount) := by decide
-- L2-I4: 0x0007E80C
theorem test_decode_msgIdQuery :
    decode standardRom (.canid .toDevice 0b00000_0000000011111101_00000001_100) = .ok (.row (.msgIdQuery 0x00FD 1)) := by decide
-- L2-I4: 0x0BFFF80C
theorem test_decode_msgControlCommand :
    decode standardRom (.canid .toDevice 0b00001_0111111111111111_00000001_100) = .ok (.row (.msgControlCommand 0x7FFF 1)) := by decide
-- L2-I5: 0x1407F7EC
theorem test_decode_msgStatusResponse :
    decode standardRom (.canid .toHost 0b00010_1000000011111110_11111101_100) = .ok (.row (.msgStatusResponse 0x80FE 253)) := by decide
-- L2-I4: 0x1807E80C
theorem test_decode_msgEnable :
    decode standardRom (.canid .toDevice 0b00011_0000000011111101_00000001_100) = .ok (.row (.msgEnable 0x00FD 1)) := by decide
-- L2-I4: 0x2007E80C
theorem test_decode_msgDisable :
    decode standardRom (.canid .toDevice 0b00100_0000000011111101_00000001_100) = .ok (.row (.msgDisable 0x00FD 1)) := by decide
-- L2-I4: 0x3007E80C
theorem test_decode_msgSetZero :
    decode standardRom (.canid .toDevice 0b00110_0000000011111101_00000001_100) = .ok (.row (.msgSetZero 0x00FD 1)) := by decide
-- L2-I4: 0x382FE80C
theorem test_decode_msgSetId :
    decode standardRom (.canid .toDevice 0b00111_0000010111111101_00000001_100) = .ok (.row (.msgSetId 0x05FD 1)) := by decide
-- L2-I4: 0x8807EBFC
theorem test_decode_msgReadParam :
    decode standardRom (.canid .toDevice 0b10001_0000000011111101_01111111_100) = .ok (.row (.msgReadParam 0x00FD 127)) := by decide
-- L2-I3: 0x9007EBFC
theorem test_decode_msgWriteParam :
    decode standardRom (.canid .toDevice 0b10010_0000000011111101_01111111_100) = .ok (.row (.msgWriteParam 0x00FD 127)) := by decide
-- L2-I5: 0x0003FFF4
theorem test_decode_msgIdResponse :
    decode standardRom (.canid .toHost 0b00000_0000000001111111_11111110_100) = .ok (.row (.msgIdResponse 0x007F 254)) := by decide
-- L2-I5: 0x8803FFEC
theorem test_decode_msgParamReadResponse :
    decode standardRom (.canid .toHost 0b10001_0000000001111111_11111101_100) = .ok (.row (.msgParamReadResponse 0x007F 253)) := by decide
-- L2-I5: 0xA803FFEC
theorem test_decode_msgFaultResponse :
    decode standardRom (.canid .toHost 0b10101_0000000001111111_11111101_100) = .ok (.row (.msgFaultResponse 0x007F 253)) := by decide

-- L2-O2, L2-O3, L2-O4, L2-O6, L2-O8: the illegal OPWORDs
theorem test_decode_illegal :
    decode standardRom (.opword 0x0100) = .error .widthUnsupported ∧ decode standardRom (.opword 0x01FF) = .error .widthUnsupported ∧
    decode standardRom (.opword 0x0301) = .error .illegalOperation ∧ decode standardRom (.opword 0x1300) = .error .illegalOperation ∧
    decode standardRom (.opword 0xFFFF) = .error .illegalOperation ∧ decode standardRom (.opword 0x4002) = .error .illegalOperation ∧
    decode standardRom (.opword 0x4015) = .error .illegalOperation ∧ decode standardRom (.opword 0x5102) = .error .illegalOperation := by decide

-- R85, R78: an index of no entry, and modes of no builder and of no parser
theorem test_decode_unknown :
    decode standardRom (.regidx 0x7007) = .error .unknownRegister ∧ decode standardRom (.canid .toDevice 0x1407F7EC) = .error .illegalOperation ∧
    decode standardRom (.canid .toHost 0x9007EBFC) = .error .unsupportedMode := by decide

-- the two rows that share a match with a request row (log entry 4)
theorem test_table_ties :
    decodeTableWord 32 0x0003FFF4 = some (.msgIdResponse 0x007F 0xFE) ∧
    decodeTableWord 32 0x00000000 = some (.msgIdQuery 0 0) ∧
    decodeTableWord 32 0x8803FFEC = some (.msgReadParam 0x007F 0xFD) ∧
    decodeTableWord 32 0x880BFFEC = some (.msgParamReadResponse 0x017F 0xFD) := by decide

-- R88: the OPWORDs of the pseudo-instructions
theorem test_pseudo :
    pseudoInstructions.map (fun e => encode regIndex e.2) =
      [.opword 0x4000, .opword 0x4001, .opword 0x4003, .opword 0x4004, .opword 0x4006, .opword 0x4007, .opword 0x4011,
        .opword 0x4012, .opword 0x5000, .opword 0x5001, .opword 0x5003, .opword 0x5004, .opword 0x5006, .opword 0x5007,
        .opword 0x5011, .opword 0x5012] := by decide

/-! ### One step -/

/-- The response of one transaction of an OPWORD at the standard tables. -/
def answerOf (w : U16) (o : Operands) : Option Response :=
  respond standardRom { opword := w, operands := o }

/-- The response of the request by which a table word runs; where the word names a row, only if `exec` of the row gives
the same. -/
def answerOfTable (word : TableWord) (o : Operands) : Option Response :=
  let a := requestOf standardRom word o
  match decode standardRom word with
  | .ok (.row i) =>
    match exec i { rom := standardRom, requests := [a], responses := [] } with
    | .next t => if t.responses.head? = respond standardRom a then t.responses.head? else none
    | _ => none
  | _ => respond standardRom a

/-- The response of a message row. -/
def answerOfWord (dir : Direction) (w : U32) (o : Operands) : Option Response := answerOfTable (.canid dir w) o

/-- The response of a register row. -/
def answerOfIndex (w : U16) (value : F64) : Option Response :=
  answerOfTable (.regidx w) { Operands.zero with value := value }

/-- The operands of QENC. -/
def quant (value lo hi : F64) : Operands := { Operands.zero with value := value, lo := lo, hi := hi }

/-- The operands of QDEC. -/
def code (raw : U32) (lo hi : F64) : Operands := { Operands.zero with raw := raw, lo := lo, hi := hi }

/-- The operands of PACK, WRAP and PARSE. -/
def fields (mode : U8) (aux : U16) (node : U8) : Operands :=
  { Operands.zero with commandMode := mode, auxField := aux, nodeId := node }

/-- The operands of the builders. -/
def target (t : U32) (h : Nat) : Operands := { Operands.zero with targetId := t, hostId := h }

/-- The operands of ReadParam and WriteParam. -/
def param (t : U32) (index : U16) (value : F64) : Operands :=
  { target t 0xFD with index := index, value := value }

/-- The operands of ControlCommand. -/
def control (t : U32) (torque angle speed kp kd : F64) : Operands :=
  { target t 0 with torque := torque, angle := angle, speed := speed, kp := kp, kd := kd }

/-- The operands of PARSE. -/
def received (mode : U8) (aux : U16) (node : U8) (p : Bytes8) : Operands := { fields mode aux node with payload := p }

/-- The operands of UNWRAP and RX. -/
def bytes (b : List Byte) : Operands := { Operands.zero with data := b }

/-- The operands of a message row that reads a payload. -/
def payloadOf (p : Bytes8) : Operands := { Operands.zero with payload := p }

-- L2-Q11: 0 over P
theorem test_qenc1_midpoint :
    answerOf 0x0101 (quant 0x0000000000000000 0xC029000000000000 0x4029000000000000) = some (.ok (.raw8 127)) := by decide +kernel
-- L2-Q12: -4.46078431372549 over P, the value of raw 82
theorem test_qenc1_after_qdec :
    answerOf 0x0101 (quant 0xC011D7D7D7D7D7D8 0xC029000000000000 0x4029000000000000) = some (.ok (.raw8 81)) := by decide +kernel
-- L2-Q1: 0 over P; L1-2 needs the same floor
theorem test_qenc2_floors :
    answerOf 0x0102 (quant 0x0000000000000000 0xC029000000000000 0x4029000000000000) = some (.ok (.raw16 0x7FFF)) := by decide +kernel
-- L2-Q14: 2.4 over T, where exact arithmetic gives 39320
theorem test_qenc2_binary64 :
    answerOf 0x0102 (quant 0x4003333333333333 0xC028000000000000 0x4028000000000000) = some (.ok (.raw16 39321)) := by decide +kernel
-- L2-Q18: raw 127 over P is -0.04901960784313708
theorem test_qdec1_end :
    answerOf 0x0201 (code 127 0xC029000000000000 0x4029000000000000) = some (.ok (.quantity (.num 0xBFA9191919191900))) := by decide +kernel
-- L2-Q24: raw 256
theorem test_qdec1_too_large :
    answerOf 0x0201 (code 256 0xC029000000000000 0x4029000000000000) = some (.fail .fieldRange) := by decide +kernel
-- L2-Q15: raw 32767 over P is -0.0001907377737087046
theorem test_qdec2_midpoint :
    answerOf 0x0202 (code 32767 0xC029000000000000 0x4029000000000000) = some (.ok (.quantity (.num 0xBF29001900190000))) := by decide +kernel
-- L2-E3: raw 70000 over [0, 0]
theorem test_qdec2_range_before_raw : answerOf 0x0202 (code 70000 0 0) = some (.fail .badRange) := by decide +kernel
-- L2-Q20: raw 256 is 25.6
theorem test_qtemp :
    answerOf 0x0300 { Operands.zero with rawTemp := 256 } = some (.ok (.temperature 0x403999999999999A)) := by decide +kernel
-- L2-I3
theorem test_pack : answerOf 0x1000 (fields 18 0x00FD 127) = some (.ok (.identifier 0x9007EBFC)) := by decide +kernel
-- L2-I10
theorem test_pack_wide_mode : answerOf 0x1000 (fields 32 0 0) = some (.fail .fieldRange) := by decide +kernel
-- L2-I6
theorem test_unpack_ignores_the_marker :
    answerOf 0x1100 { Operands.zero with identifier := 0x9007EBFF } = some (.ok (.fields 18 0x00FD 127)) := by decide +kernel
-- L2-I7
theorem test_unpack_full :
    answerOf 0x1100 { Operands.zero with identifier := 0xFFFFFFFF } = some (.ok (.fields 31 0xFFFF 0xFF)) := by decide +kernel
-- L1-4
theorem test_xbits :
    answerOf 0x1200 { Operands.zero with bits := 0x12345678, bitLo := 8, bitHi := 15 } = some (.ok (.bits 0x56)) := by decide +kernel
-- L2-X6
theorem test_xbits_bad_range :
    answerOf 0x1200 { Operands.zero with bits := 1, bitLo := 0, bitHi := 32 } = some (.fail .badBitRange) := by decide +kernel
-- L2-F1
theorem test_wrap_pads :
    answerOf 0x2000 { fields 18 0x00FD 127 with wrapPayload := [1, 2] } = some (.ok (.frame
      [0x41, 0x54, 0x90, 0x07, 0xEB, 0xFC, 0x08, 0x01, 0x02, 0x00, 0x00, 0x00, 0x00, 0x00, 0x00, 0x0D, 0x0A])) := by decide +kernel
-- L2-F5
theorem test_wrap_mode_before_payload :
    answerOf 0x2000 { fields 32 0 0 with wrapPayload := [0, 0, 0, 0, 0, 0, 0, 0, 0] } = some (.fail .fieldRange) := by decide +kernel
-- L1-1
theorem test_unwrap :
    answerOf 0x2100 (bytes [0x41, 0x54, 0x90, 0x07, 0xEB, 0xFC, 0x08, 0x05, 0x70, 0x00, 0x00, 0x07, 0x01, 0x95, 0x54, 0x0D, 0x0A]) =
      some (.ok (.message ⟨18, 0x00FD, 127, ⟨0x05, 0x70, 0x00, 0x00, 0x07, 0x01, 0x95, 0x54⟩⟩)) := by decide +kernel
-- L2-F13
theorem test_unwrap_header_before_length :
    answerOf 0x2100 (bytes [0x61, 0x74, 0x90, 0x07, 0xEB, 0xFC, 0x09, 0x05, 0x70, 0x00, 0x00, 0x07, 0x01, 0x95, 0x54, 0x0D, 0x0A]) =
      some (.fail .badHeader) := by decide +kernel
-- L2-R1
theorem test_rlook :
    answerOf 0x3000 { Operands.zero with index := 0x701D } = some (.ok (.entry ⟨"rotation_count", 0x701D, .u16pad⟩)) := by decide +kernel
-- L2-R2
theorem test_rlook_swapped :
    answerOf 0x3000 { Operands.zero with index := 0x0570 } = some (.fail .unknownRegister) := by decide +kernel
-- L2-R3
theorem test_rlookn :
    answerOf 0x3100 { Operands.zero with name := "limit_spd" } = some (.ok (.entry ⟨"limit_spd", 0x7017, .f32le⟩)) := by decide +kernel
-- L2-R4
theorem test_rlookn_case :
    answerOf 0x3100 { Operands.zero with name := "RUN_MODE" } = some (.fail .unknownRegister) := by decide +kernel
-- L2-R9: 3.14159
theorem test_renc_rounds :
    answerOf 0x3200 (param 0 0x7019 0x400921F9F01B866E) = some (.ok (.regField ⟨0xD0, 0x0F, 0x49, 0x40⟩)) := by decide +kernel
-- L2-R11: 3.4028235677973366e38
theorem test_renc_tie_to_infinity :
    answerOf 0x3200 (param 0 0x701C 0x47EFFFFFF0000000) = some (.fail .unrepresentable) := by decide +kernel
-- L2-R16: 1.401298464324817e-45
theorem test_rdec_subnormal :
    answerOf 0x3300 { param 0 0x7006 0 with field := ⟨1, 0, 0, 0⟩ } = some (.ok (.regValue 0x36A0000000000000)) := by decide +kernel
-- L2-R18
theorem test_rdec_reads_two_bytes :
    answerOf 0x3300 { param 0 0x701D 0 with field := ⟨0xFF, 0xFF, 0x12, 0x34⟩ } = some (.ok (.regValue 0x40EFFFE000000000)) := by decide +kernel
-- L2-B2
theorem test_build0_masks_the_host :
    answerOf 0x4000 (target 1 0x1FD) =
      some (.ok (.message ⟨0, 0x00FD, 1, ⟨0x00, 0x00, 0x00, 0x00, 0x00, 0x00, 0x00, 0x00⟩⟩)) := by decide +kernel
-- L2-B2
theorem test_tx0 :
    answerOf 0x5000 (target 1 0x1FD) = some (.ok (.frame
      [0x41, 0x54, 0x00, 0x07, 0xE8, 0x0C, 0x08, 0x00, 0x00, 0x00, 0x00, 0x00, 0x00, 0x00, 0x00, 0x0D, 0x0A])) := by decide +kernel
-- L2-B3: torque 1, angle 1, speed -1, kp 10, kd 0.5
theorem test_build1 :
    answerOf 0x4001 (control 1 0x3FF0000000000000 0x3FF0000000000000 0xBFF0000000000000
      0x4024000000000000 0x3FE0000000000000) =
      some (.ok (.message ⟨1, 0x8AAA, 1, ⟨0x3C, 0x8A, 0xBB, 0x7B, 0x1E, 0x05, 0x99, 0x19⟩⟩)) := by decide +kernel
-- L2-B3: torque 1, angle 1, speed -1, kp 10, kd 0.5
theorem test_tx1 :
    answerOf 0x5001 (control 1 0x3FF0000000000000 0x3FF0000000000000 0xBFF0000000000000
      0x4024000000000000 0x3FE0000000000000) = some (.ok (.frame
      [0x41, 0x54, 0x0C, 0x55, 0x50, 0x0C, 0x08, 0x3C, 0x8A, 0xBB, 0x7B, 0x1E, 0x05, 0x99, 0x19, 0x0D, 0x0A])) := by decide +kernel
-- L1-2
theorem test_build1_all_zero :
    answerOf 0x4001 (control 1 0 0 0 0 0) =
      some (.ok (.message ⟨1, 0x7FFF, 1, ⟨0xFF, 0x7F, 0xFF, 0x7F, 0x00, 0x00, 0x00, 0x00⟩⟩)) := by decide +kernel
-- L2-B6
theorem test_build3 :
    answerOf 0x4003 (target 1 0xFD) =
      some (.ok (.message ⟨3, 0x00FD, 1, ⟨0x00, 0x00, 0x00, 0x00, 0x00, 0x00, 0x00, 0x00⟩⟩)) := by decide +kernel
-- L2-B6
theorem test_tx3 :
    answerOf 0x5003 (target 1 0xFD) = some (.ok (.frame
      [0x41, 0x54, 0x18, 0x07, 0xE8, 0x0C, 0x08, 0x00, 0x00, 0x00, 0x00, 0x00, 0x00, 0x00, 0x00, 0x0D, 0x0A])) := by decide +kernel
-- L2-B7
theorem test_build4 :
    answerOf 0x4004 { target 1 0xFD with faultClear := true } =
      some (.ok (.message ⟨4, 0x00FD, 1, ⟨0x01, 0x00, 0x00, 0x00, 0x00, 0x00, 0x00, 0x00⟩⟩)) := by decide +kernel
-- L2-B7
theorem test_tx4 :
    answerOf 0x5004 { target 1 0xFD with faultClear := true } = some (.ok (.frame
      [0x41, 0x54, 0x20, 0x07, 0xE8, 0x0C, 0x08, 0x01, 0x00, 0x00, 0x00, 0x00, 0x00, 0x00, 0x00, 0x0D, 0x0A])) := by decide +kernel
-- L2-B9
theorem test_build6 :
    answerOf 0x4006 (target 1 0xFD) =
      some (.ok (.message ⟨6, 0x00FD, 1, ⟨0x01, 0x00, 0x00, 0x00, 0x00, 0x00, 0x00, 0x00⟩⟩)) := by decide +kernel
-- L2-B9
theorem test_tx6 :
    answerOf 0x5006 (target 1 0xFD) = some (.ok (.frame
      [0x41, 0x54, 0x30, 0x07, 0xE8, 0x0C, 0x08, 0x01, 0x00, 0x00, 0x00, 0x00, 0x00, 0x00, 0x00, 0x0D, 0x0A])) := by decide +kernel
-- L2-B10: new_target_id 0x105
theorem test_build7 :
    answerOf 0x4007 { target 1 0xFD with newTargetId := 0x105 } =
      some (.ok (.message ⟨7, 0x05FD, 1, ⟨0x00, 0x00, 0x00, 0x00, 0x00, 0x00, 0x00, 0x00⟩⟩)) := by decide +kernel
-- L2-B10: new_target_id 0x105
theorem test_tx7 :
    answerOf 0x5007 { target 1 0xFD with newTargetId := 0x105 } = some (.ok (.frame
      [0x41, 0x54, 0x38, 0x2F, 0xE8, 0x0C, 0x08, 0x00, 0x00, 0x00, 0x00, 0x00, 0x00, 0x00, 0x00, 0x0D, 0x0A])) := by decide +kernel
-- L2-B11
theorem test_build17 :
    answerOf 0x4011 (param 127 0x7019 0) =
      some (.ok (.message ⟨17, 0x00FD, 127, ⟨0x19, 0x70, 0x00, 0x00, 0x00, 0x00, 0x00, 0x00⟩⟩)) := by decide +kernel
-- L2-B11
theorem test_tx17 :
    answerOf 0x5011 (param 127 0x7019 0) = some (.ok (.frame
      [0x41, 0x54, 0x88, 0x07, 0xEB, 0xFC, 0x08, 0x19, 0x70, 0x00, 0x00, 0x00, 0x00, 0x00, 0x00, 0x0D, 0x0A])) := by decide +kernel
-- L2-B13: 2.0
theorem test_build18 :
    answerOf 0x4012 (param 127 0x7017 0x4000000000000000) =
      some (.ok (.message ⟨18, 0x00FD, 127, ⟨0x17, 0x70, 0x00, 0x00, 0x00, 0x00, 0x00, 0x40⟩⟩)) := by decide +kernel
-- L2-B13: 2.0
theorem test_tx18 :
    answerOf 0x5012 (param 127 0x7017 0x4000000000000000) = some (.ok (.frame
      [0x41, 0x54, 0x90, 0x07, 0xEB, 0xFC, 0x08, 0x17, 0x70, 0x00, 0x00, 0x00, 0x00, 0x00, 0x40, 0x0D, 0x0A])) := by decide +kernel
-- L2-E5: NaN
theorem test_build18_lookup_before_value :
    answerOf 0x4012 (param 1 0x7007 0x7FF8000000000000) = some (.fail .unknownRegister) := by decide +kernel
-- L2-E9
theorem test_tx18_target_first :
    answerOf 0x5012 (param 256 0x7005 0x3FF0000000000000) = some (.fail .fieldRange) := by decide +kernel
-- L2-P6
theorem test_parse_status :
    answerOf 0x4100 (received 2 0x417F 0xFD ⟨0x3C, 0x8A, 0x42, 0x3B, 0xFF, 0xFF, 0x00, 0x00⟩) = some (.ok (.typed (.status
      { hostId := 0xFD, targetId := 0x7F, runPhase := .calibrating
        errorFlags := ⟨true, false, false, false, false, false⟩
        angle := .num 0x3FEFFD2FFD2FFD30, speed := .num 0xC0301C7A1C7A1C7A
        torque := .num 0x4028000000000000, temperatureC := 0x0000000000000000 }))) := by decide +kernel
-- L2-P20
theorem test_parse_no_parser :
    answerOf 0x4100 (received 18 0x00FD 127 ⟨0x05, 0x70, 0x00, 0x00, 0x07, 0x01, 0x95, 0x54⟩) = some (.fail .unsupportedMode) := by decide +kernel
-- L2-P14
theorem test_rx_fault :
    answerOf 0x5100 (bytes [0x41, 0x54, 0xA8, 0x03, 0xFF, 0xEC, 0x08, 0x01, 0x01, 0x01, 0x00, 0x00, 0x00, 0x00, 0x00, 0x0D, 0x0A]) = some (.ok (.typed (.fault
      { targetId := 0x7F, hostId := 0xFD, hasFault := true, errorCode := 0x00010101, warningCode := 0
        faultFlags := some ⟨true, false, false, false, true, false, false, false, true⟩ }))) := by decide +kernel
-- L2-E8
theorem test_rx_frame_error_hides_parse :
    answerOf 0x5100 (bytes [0x61, 0x74, 0x00, 0x03, 0xF8, 0x0C, 0x09, 0x00, 0x00, 0x00, 0x00, 0x00, 0x00, 0x00, 0x00, 0x0D, 0x0A]) =
      some (.fail .badHeader) := by decide +kernel

/-! ### The message rows and the register rows (log entry 3); the expected values are those of the rule each row names -/

-- L2-B1
theorem test_msgIdQuery :
    answerOfWord .toDevice 0x0007E80C Operands.zero =
      some (.ok (.message ⟨0, 0x00FD, 1, ⟨0x00, 0x00, 0x00, 0x00, 0x00, 0x00, 0x00, 0x00⟩⟩)) := by decide +kernel
-- L1-3: clamped values, kp 1; the aux field stays the word's
theorem test_msgControlCommand :
    answerOfWord .toDevice 0x0BFFF80C (control 0 0 0xC08F400000000000 0xC08F400000000000 0x3FF0000000000000 0) =
      some (.ok (.message ⟨1, 0x7FFF, 1, ⟨0x00, 0x00, 0x00, 0x00, 0x83, 0x00, 0x00, 0x00⟩⟩)) := by decide +kernel
-- R67, R102: the first and the last torque code come back
theorem test_msgControlCommand_ends :
    encodeOver standardRom tRange (centreOf tRange 0) = .ok 0 ∧
    encodeOver standardRom tRange (centreOf tRange 0xFFFF) = .ok 0xFFFF := by decide +kernel
-- L2-P5: the six flags, the ends of the ranges
theorem test_msgStatusResponse :
    answerOfWord .toHost 0x11FBFFEC (payloadOf ⟨0x00, 0x00, 0xFF, 0xFF, 0x00, 0x00, 0xFF, 0xFF⟩) = some (.ok (.typed (.status
      { hostId := 0xFD, targetId := 0x7F, runPhase := .reset, errorFlags := ⟨true, true, true, true, true, true⟩
        angle := .num 0xC029000000000000, speed := .num 0x403E000000000000
        torque := .num 0xC028000000000000, temperatureC := 0x40B9998000000000 }))) := by decide +kernel
-- L2-B6
theorem test_msgEnable :
    answerOfWord .toDevice 0x1807E80C Operands.zero =
      some (.ok (.message ⟨3, 0x00FD, 1, ⟨0x00, 0x00, 0x00, 0x00, 0x00, 0x00, 0x00, 0x00⟩⟩)) := by decide +kernel
-- L2-B7
theorem test_msgDisable :
    answerOfWord .toDevice 0x2007E80C { Operands.zero with faultClear := true } =
      some (.ok (.message ⟨4, 0x00FD, 1, ⟨0x01, 0x00, 0x00, 0x00, 0x00, 0x00, 0x00, 0x00⟩⟩)) := by decide +kernel
-- L2-B9
theorem test_msgSetZero :
    answerOfWord .toDevice 0x3007E80C Operands.zero =
      some (.ok (.message ⟨6, 0x00FD, 1, ⟨0x01, 0x00, 0x00, 0x00, 0x00, 0x00, 0x00, 0x00⟩⟩)) := by decide +kernel
-- L2-B10
theorem test_msgSetId :
    answerOfWord .toDevice 0x382FE80C Operands.zero =
      some (.ok (.message ⟨7, 0x05FD, 1, ⟨0x00, 0x00, 0x00, 0x00, 0x00, 0x00, 0x00, 0x00⟩⟩)) := by decide +kernel
-- L2-B11
theorem test_msgReadParam :
    answerOfWord .toDevice 0x8807EBFC { Operands.zero with index := 0x7019 } =
      some (.ok (.message ⟨17, 0x00FD, 127, ⟨0x19, 0x70, 0x00, 0x00, 0x00, 0x00, 0x00, 0x00⟩⟩)) := by decide +kernel
-- L2-B14: 300.0
theorem test_msgWriteParam :
    answerOfWord .toDevice 0x9007EBFC { Operands.zero with index := 0x701D, value := 0x4072C00000000000 } =
      some (.ok (.message ⟨18, 0x00FD, 127, ⟨0x1D, 0x70, 0x00, 0x00, 0x2C, 0x01, 0x00, 0x00⟩⟩)) := by decide +kernel
-- L2-P1
theorem test_msgIdResponse :
    answerOfWord .toHost 0x0003FFF4 (payloadOf ⟨0x11, 0x22, 0x33, 0x44, 0x55, 0x66, 0x77, 0x88⟩) =
      some (.ok (.typed (.id ⟨0x007F, ⟨0x11, 0x22, 0x33, 0x44, 0x55, 0x66, 0x77, 0x88⟩⟩))) := by decide +kernel
-- L2-P12: 3.141590118408203
theorem test_msgParamReadResponse :
    answerOfWord .toHost 0x8803FFEC (payloadOf ⟨0x19, 0x70, 0x00, 0x00, 0xD0, 0x0F, 0x49, 0x40⟩) =
      some (.ok (.typed (.paramRead ⟨0xFD, 0x7F, ⟨"mech_pos", 0x7019, .f32le⟩, 0x400921FA00000000⟩))) := by decide +kernel
-- L2-P15
theorem test_msgFaultResponse :
    answerOfWord .toHost 0xA803FFEC (payloadOf ⟨0x00, 0x00, 0x00, 0x00, 0x05, 0x00, 0x00, 0x00⟩) =
      some (.ok (.typed (.fault ⟨0x7F, 0xFD, false, 0, 5, none⟩))) := by decide +kernel
-- L2-R5: 255.0
theorem test_regRunMode :
    answerOfIndex 0x7005 0x406FE00000000000 = some (.ok (.regField ⟨0xFF, 0, 0, 0⟩)) := by decide +kernel
-- L2-R6: 1.5
theorem test_regRunMode_fraction :
    answerOfIndex 0x7005 0x3FF8000000000000 = some (.fail .unrepresentable) := by decide +kernel
-- L2-R8, L2-R9, L2-R10: 1.0
theorem test_regIqRef :
    answerOfIndex 0x7006 0x3FF0000000000000 = some (.ok (.regField ⟨0x00, 0x00, 0x80, 0x3F⟩)) := by decide +kernel
-- L2-R8, L2-R9, L2-R10: -1.0
theorem test_regSpdRef :
    answerOfIndex 0x700A 0xBFF0000000000000 = some (.ok (.regField ⟨0x00, 0x00, 0x80, 0xBF⟩)) := by decide +kernel
-- L2-R8, L2-R9, L2-R10: 0.5
theorem test_regLimitTorque :
    answerOfIndex 0x700B 0x3FE0000000000000 = some (.ok (.regField ⟨0x00, 0x00, 0x00, 0x3F⟩)) := by decide +kernel
-- L2-R8, L2-R9, L2-R10: 2.0
theorem test_regCurKp :
    answerOfIndex 0x7010 0x4000000000000000 = some (.ok (.regField ⟨0x00, 0x00, 0x00, 0x40⟩)) := by decide +kernel
-- L2-R8, L2-R9, L2-R10: -2.5
theorem test_regCurKi :
    answerOfIndex 0x7011 0xC004000000000000 = some (.ok (.regField ⟨0x00, 0x00, 0x20, 0xC0⟩)) := by decide +kernel
-- L2-R8, L2-R9, L2-R10: 12.5
theorem test_regCurFiltGain :
    answerOfIndex 0x7014 0x4029000000000000 = some (.ok (.regField ⟨0x00, 0x00, 0x48, 0x41⟩)) := by decide +kernel
-- L2-R8, L2-R9, L2-R10: 0.1
theorem test_regLocRef :
    answerOfIndex 0x7016 0x3FB999999999999A = some (.ok (.regField ⟨0xCD, 0xCC, 0xCC, 0x3D⟩)) := by decide +kernel
-- L2-R8, L2-R9, L2-R10: 3.14159
theorem test_regLimitSpd :
    answerOfIndex 0x7017 0x400921F9F01B866E = some (.ok (.regField ⟨0xD0, 0x0F, 0x49, 0x40⟩)) := by decide +kernel
-- L2-R8, L2-R9, L2-R10: 1e-45
theorem test_regLimitCur :
    answerOfIndex 0x7018 0x3696D601AD376AB9 = some (.ok (.regField ⟨0x01, 0x00, 0x00, 0x00⟩)) := by decide +kernel
-- L2-R8, L2-R9, L2-R10: 3.4028235e+38
theorem test_regMechPos :
    answerOfIndex 0x7019 0x47EFFFFFE54DAFF8 = some (.ok (.regField ⟨0xFF, 0xFF, 0x7F, 0x7F⟩)) := by decide +kernel
-- L2-R8, L2-R9, L2-R10: -0.0
theorem test_regIqf :
    answerOfIndex 0x701A 0x8000000000000000 = some (.ok (.regField ⟨0x00, 0x00, 0x00, 0x80⟩)) := by decide +kernel
-- L2-R8, L2-R9, L2-R10: inf
theorem test_regMechVel :
    answerOfIndex 0x701B 0x7FF0000000000000 = some (.ok (.regField ⟨0x00, 0x00, 0x80, 0x7F⟩)) := by decide +kernel
-- L2-R8, L2-R9, L2-R10: -inf
theorem test_regVbus :
    answerOfIndex 0x701C 0xFFF0000000000000 = some (.ok (.regField ⟨0x00, 0x00, 0x80, 0xFF⟩)) := by decide +kernel
-- L2-R12: 300.0
theorem test_regRotationCount :
    answerOfIndex 0x701D 0x4072C00000000000 = some (.ok (.regField ⟨0x2C, 0x01, 0, 0⟩)) := by decide +kernel
-- L2-R13: 65536.0
theorem test_regRotationCount_too_large :
    answerOfIndex 0x701D 0x40F0000000000000 = some (.fail .unrepresentable) := by decide +kernel

/-! ### The parameters of R9 at other values; the expected values are calculated by hand from the rules -/

/-- The standard tables with the width 3 admitted. -/
def widerRom : Rom := { standardRom with qwidths := [1, 2, 3] }

-- R102 with M(3) = 16777215: 0 over [-12.5, 12.5] is the midpoint, 8388607.5
theorem test_qenc_of_width_3 :
    respond widerRom ⟨0x0103, quant 0x0000000000000000 0xC029000000000000 0x4029000000000000⟩ =
      some (.ok (.raw 3 8388607)) := by decide +kernel
-- R103: raw M(3) is the upper end, 12.5
theorem test_qdec_of_width_3 :
    respond widerRom ⟨0x0203, code 0xFFFFFF 0xC029000000000000 0x4029000000000000⟩ =
      some (.ok (.quantity (.num 0x4029000000000000))) := by decide +kernel
-- R101: 3 is in the wider set, 4 is not
theorem test_width_outside :
    respond widerRom ⟨0x0104, quant 0 0xC029000000000000 0x4029000000000000⟩ =
      some (.fail .widthUnsupported) := by decide +kernel
-- R161: spd_ref at 0x7007, which the rows and the lookup follow
theorem test_reg_index :
    decode { standardRom with regIndex := { regIndex with spdRef := 0x7007 } } (.regidx 0x7007) =
      .ok (.row .regSpdRef) ∧
    respond { standardRom with regIndex := { regIndex with spdRef := 0x7007 } }
        (requestOf { standardRom with regIndex := { regIndex with spdRef := 0x7007 } } (.regidx 0x7007)
          { Operands.zero with value := 0x3FF0000000000000 }) =
      some (.ok (.regField ⟨0x00, 0x00, 0x80, 0x3F⟩)) ∧
    respond { standardRom with regIndex := { regIndex with spdRef := 0x7007 } }
        ⟨0x3000, { Operands.zero with index := 0x700A }⟩ = some (.fail .unknownRegister) := by decide +kernel
-- R161: the constraint admits the defaults, and refuses an endpoint, a repeated and a falling index
theorem test_reg_index_constraint :
    regIndex.lawful = true ∧ { regIndex with spdRef := 0x7006 }.lawful = false ∧
    { regIndex with mechVel := 0x701C }.lawful = false ∧ { regIndex with curKi := 0x7010 }.lawful = false ∧
    { regIndex with limitSpd := 0x7019 }.lawful = false := by decide
-- R190(b) with HOST_ID_W = 4: host_id 0x1FD is taken as 0xD
theorem test_host_id_width :
    respond { standardRom with hostIdW := 4 } ⟨0x4000, target 1 0x1FD⟩ =
      some (.ok (.message ⟨0, 0x000D, 1, ⟨0, 0, 0, 0, 0, 0, 0, 0⟩⟩)) := by decide +kernel

/-! ### The machine -/

-- L2-O4: an illegal OPWORD is answered with its failure, and the next request with its own response (L3-4)
theorem test_failure_leaves_nothing :
    (match Host.Core.run Sys2Proof.core 2
        { rom := standardRom, requests := [⟨0x4002, target 1 0⟩, ⟨0x5000, target 1 0xFD⟩]
          responses := [] } with
      | .next t => t.responses
      | _ => []) =
    [.fail .illegalOperation,
     .ok (.frame [0x41, 0x54, 0x00, 0x07, 0xE8, 0x0C, 0x08, 0, 0, 0, 0, 0, 0, 0, 0, 0x0D, 0x0A])] := by decide +kernel

-- the first request after reset runs the word the host places
theorem test_withFetchWord :
    (match step (State.reset.withFetchWord 16 0x7005) with
      | .next t => t.responses
      | _ => []) = [.ok (.regField ⟨0, 0, 0, 0⟩)] := by decide +kernel

/-! ### Witnesses: for every statement with hypotheses, states and operands that meet them, clause by clause -/

open Sys2Proof.Claims

/-- What waits behind the request in flight, in every witness. -/
def waiting : List Request := [⟨0x0300, Operands.zero⟩]

/-- A state with these tables and these operands in flight, one request behind them and one response in the record. -/
def stateAt (rom : Rom) (o : Operands) : State :=
  { rom := rom, requests := ⟨0, o⟩ :: waiting, responses := [.fail .wrongLength] }

/-- The same with the standard tables. -/
def loadedState (o : Operands) : State := stateAt standardRom o

/-- The same in exact real arithmetic. -/
def exactState (o : Operands) : State := stateAt { standardRom with quantArith := .exactReal } o

theorem loadedAt (rom : Rom) (o : Operands) : LoadedWith rom (stateAt rom o) o waiting := ⟨rfl, _, rfl, rfl⟩

theorem loaded (o : Operands) : Loaded (loadedState o) o waiting := loadedAt _ o

theorem loadedExact (o : Operands) : LoadedExact (exactState o) o waiting := loadedAt _ o

/-- An instruction gives the result of its operation on the operands in flight. -/
theorem gives {i : Instr} {o : Operands} {r : Result} (h : operation i standardRom o = .ok r) :
    Gives i (loadedState o) waiting r :=
  exec_completes (s := loadedState o) rfl h

/-- 1.0 over `P_RANGE`, raw 255. -/
def inRange : Operands :=
  { Operands.zero with value := 0x3FF0000000000000, lo := 0xC029000000000000, hi := 0x4029000000000000, raw := 255 }

/-- 0.0 over the widest range, whose width overflows. -/
def wideRange : Operands := { Operands.zero with lo := 0xFFEFFFFFFFFFFFFF, hi := 0x7FEFFFFFFFFFFFFF }

theorem inRange_good : GoodRange inRange.lo inRange.hi := by unfold GoodRange; decide +kernel

theorem wideRange_good : GoodRange wideRange.lo wideRange.hi := by unfold GoodRange; decide +kernel

/-- 0.0 over [0, 0]. -/
theorem zero_bad : ¬ GoodRange Operands.zero.lo Operands.zero.hi := by unfold GoodRange; decide +kernel

/-- The table's two widths, and the first and the last of the others. -/
theorem witness_QencFloorsTheProduct :
    LoadedWith { standardRom with qwidths := [1, 2, 3, 6] } (stateAt { standardRom with qwidths := [1, 2, 3, 6] } inRange)
      inRange waiting ∧ GoodRange inRange.lo inRange.hi ∧
    isFinite (f64Sub inRange.hi inRange.lo) = true ∧ isNaN inRange.value = false ∧ 1 ∈ [1, 2, 3, 6] ∧ 2 ∈ [1, 2, 3, 6] ∧
    ((3 : U8).toNat ∈ [1, 2, 3, 6] ∧ 1 ≤ (3 : U8).toNat ∧ (3 : U8).toNat ≤ 6) ∧
    ((6 : U8).toNat ∈ [1, 2, 3, 6] ∧ 1 ≤ (6 : U8).toNat ∧ (6 : U8).toNat ≤ 6) :=
  ⟨loadedAt _ _, inRange_good, by decide +kernel, by decide +kernel, by decide⟩

/-- The ends of the range, and the infinities. -/
theorem witness_QencClampsToTheRange :
    Loaded (loadedState inRange) inRange waiting ∧ GoodRange inRange.lo inRange.hi ∧
    f64Le inRange.lo inRange.lo = true ∧ f64Le 0xFFF0000000000000 inRange.lo = true ∧
    f64Le inRange.hi inRange.hi = true ∧ f64Le inRange.hi 0x7FF0000000000000 = true :=
  ⟨loaded _, inRange_good, by decide +kernel⟩

/-- 1.0 and the upper end of `P_RANGE`; 0.0 and 1.0 over the widest range. -/
theorem witness_QencIsMonotonic :
    (Loaded (loadedState inRange) inRange waiting ∧
      Loaded (loadedState { inRange with value := inRange.hi }) { inRange with value := inRange.hi } waiting ∧
      GoodRange inRange.lo inRange.hi ∧ f64Le inRange.value inRange.hi = true) ∧
    (Loaded (loadedState wideRange) wideRange waiting ∧
      Loaded (loadedState { wideRange with value := 0x3FF0000000000000 }) { wideRange with value := 0x3FF0000000000000 }
        waiting ∧
      GoodRange wideRange.lo wideRange.hi ∧ f64Le wideRange.value 0x3FF0000000000000 = true) :=
  ⟨⟨loaded _, loaded _, inRange_good, by decide +kernel⟩, loaded _, loaded _, wideRange_good, by decide +kernel⟩

/-- A missing width; an empty range; a NaN; the first raw codes that are too large. -/
theorem witness_QuantizerChecksInOrder :
    (LoadedWith { standardRom with qwidths := [2] } (stateAt { standardRom with qwidths := [2] } Operands.zero)
      Operands.zero waiting ∧ 1 ∉ [2]) ∧
    (LoadedWith { standardRom with qwidths := [1] } (stateAt { standardRom with qwidths := [1] } Operands.zero)
      Operands.zero waiting ∧ 2 ∉ [1]) ∧
    (∀ o, LoadedWith { standardRom with qwidths := [1, 2] } (loadedState o) o waiting) ∧ 1 ∈ [1, 2] ∧ 2 ∈ [1, 2] ∧
    ¬ GoodRange Operands.zero.lo Operands.zero.hi ∧ GoodRange inRange.lo inRange.hi ∧
    isNaN { inRange with value := 0x7FF8000000000000 }.value = true ∧
    255 < { inRange with raw := 256 }.raw.toNat ∧ 65535 < { inRange with raw := 65536 }.raw.toNat ∧
    (∀ o, LoadedWith widerRom (stateAt widerRom o) o waiting) ∧
    (4 : U8).toNat ∉ widerRom.qwidths ∧ (3 : U8).toNat ∈ widerRom.qwidths ∧
    topCode (3 : U8).toNat < { inRange with raw := 0x1000000 }.raw.toNat :=
  ⟨⟨loadedAt _ _, by decide⟩, ⟨loadedAt _ _, by decide⟩, loadedAt _, by decide, by decide, zero_bad, inRange_good,
    by decide +kernel, by decide +kernel, by decide +kernel, loadedAt _, by decide, by decide, by decide⟩

/-- A range whose width overflows, with a value in its middle and one near its lower end (-1e308). -/
theorem witness_QencCompletesOnEveryRange :
    (∀ o, Loaded (loadedState o) o waiting) ∧ GoodRange wideRange.lo wideRange.hi ∧
    isFinite (f64Sub wideRange.hi wideRange.lo) = false ∧ isNaN wideRange.value = false ∧
    (isNaN 0xFFE1CCF385EBC8A0 = false ∧
      isFinite (f64Sub (clamped 0xFFE1CCF385EBC8A0 wideRange.lo wideRange.hi) wideRange.lo) = true) :=
  ⟨loaded, wideRange_good, by decide +kernel⟩

/-- The largest code of every width of the table, and of the first and the last of the others. -/
theorem witness_QdecScalesTheCode :
    (∀ o, LoadedWith { standardRom with qwidths := [1, 2, 3, 6] } (stateAt { standardRom with qwidths := [1, 2, 3, 6] } o)
      o waiting) ∧ GoodRange inRange.lo inRange.hi ∧
    (1 ∈ [1, 2, 3, 6] ∧ inRange.raw.toNat ≤ 255) ∧
    (2 ∈ [1, 2, 3, 6] ∧ { inRange with raw := 65535 }.raw.toNat ≤ 65535) ∧
    ((3 : U8).toNat ∈ [1, 2, 3, 6] ∧ { inRange with raw := 16777215 }.raw.toNat ≤ topCode (3 : U8).toNat) ∧
    ((6 : U8).toNat ∈ [1, 2, 3, 6] ∧ { inRange with raw := 4294967295 }.raw.toNat ≤ topCode (6 : U8).toNat) :=
  ⟨loadedAt _, inRange_good, by decide⟩

theorem witness_QdecEndsAreExact :
    Loaded (loadedState inRange) inRange waiting ∧ GoodRange inRange.lo inRange.hi ∧
    isFinite (f64Sub inRange.hi inRange.lo) = true ∧
    f64Rat (f64Sub inRange.hi inRange.lo) = f64Rat inRange.hi - f64Rat inRange.lo ∧
    (0 : U32).toNat = 0 ∧ inRange.raw.toNat = 255 ∧ (65535 : U32).toNat = 65535 :=
  ⟨loaded _, inRange_good, by decide +kernel, by decide +kernel, by decide⟩

theorem witness_QdecStaysInTheRomRanges :
    Loaded (loadedState inRange) inRange waiting ∧
    pRange ∈ [pRange, vRange, tRange, kpRange, kdRange, iRange] ∧ inRange.lo = pRange.lo ∧ inRange.hi = pRange.hi ∧
    inRange.raw.toNat ≤ 255 ∧ inRange.raw.toNat ≤ 65535 :=
  ⟨loaded _, by decide⟩

/-- 1.0 over `P_RANGE` and its codes: 137 of one byte, 35388 of two. -/
theorem witness_ExactRealRoundTripWithinOneStep :
    LoadedExact (exactState inRange) inRange waiting ∧
    LoadedExact (exactState { inRange with raw := 137 }) { inRange with raw := 137 } waiting ∧
    LoadedExact (exactState { inRange with raw := 35388 }) { inRange with raw := 35388 } waiting ∧
    GoodRange inRange.lo inRange.hi ∧ isNaN inRange.value = false ∧ f64Le inRange.lo inRange.value = true ∧
    f64Le inRange.value inRange.hi = true ∧ (137 : U32).toNat ≤ 255 ∧ (35388 : U32).toNat ≤ 65535 ∧
    respond (exactState inRange).rom (⟨0x0101, inRange⟩) = some (.ok (.raw8 137)) ∧
    respond (exactState inRange).rom (⟨0x0102, inRange⟩) = some (.ok (.raw16 35388)) ∧
    (137 : U32).toNat = (137 : U8).toNat ∧ (35388 : U32).toNat = (35388 : U16).toNat :=
  ⟨loadedExact _, loadedExact _, loadedExact _, inRange_good, by decide +kernel⟩

/-- 1.0 and the largest finite value, whose sum rounds and whose quotient exists. -/
theorem witness_BinaryOpsRoundToNearest :
    isFinite 0x3FF0000000000000 = true ∧ isFinite 0x7FEFFFFFFFFFFFFF = true ∧ f64Rat 0x7FEFFFFFFFFFFFFF ≠ 0 := by
  decide +kernel

/-- The largest finite values of both formats. -/
theorem witness_ConversionsRoundAndWiden :
    isFinite 0x7FEFFFFFFFFFFFFF = true ∧ f32Mag 0x7F7FFFFF < infMag32 := by
  decide +kernel

/-- QTEMP, UNPACK and the other statements over every operand need a loaded state alone. -/
theorem witness_QtempIsATenthOfTheCode :
    Loaded (loadedState Operands.zero) Operands.zero waiting := loaded _

theorem witness_PackGivesTheIdentifier :
    Loaded (loadedState (fields 31 0xFFFF 0xFF)) (fields 31 0xFFFF 0xFF) waiting ∧
    (fields 31 0xFFFF 0xFF).commandMode.toNat ≤ 31 :=
  ⟨loaded _, by decide⟩

/-- The first mode that is too wide, under both settings. -/
theorem witness_PackOfAWideMode :
    31 < (fields 32 0 0).commandMode.toNat ∧ Loaded (loadedState (fields 32 0 0)) (fields 32 0 0) waiting ∧
    LoadedWith { standardRom with packOverflow := .truncate }
      (stateAt { standardRom with packOverflow := .truncate } (fields 32 0 0)) (fields 32 0 0) waiting :=
  ⟨by decide, loaded _, loadedAt _ _⟩

theorem witness_UnpackSplitsTheIdentifier :
    Loaded (loadedState Operands.zero) Operands.zero waiting := loaded _

/-- The two states of the round trips, at the largest mode and its word. -/
theorem witness_PackAndUnpackAreInverse :
    Loaded (loadedState (fields 31 0xFFFF 0xFF)) (fields 31 0xFFFF 0xFF) waiting ∧
    Loaded (loadedState { Operands.zero with identifier := 0xFFFFFFFC }) { Operands.zero with identifier := 0xFFFFFFFC }
      waiting ∧
    (fields 31 0xFFFF 0xFF).commandMode.toNat ≤ 31 ∧
    answerOf 0x1000 (fields 31 0xFFFF 0xFF) = some (.ok (.identifier 0xFFFFFFFC)) ∧
    answerOf 0x1100 { Operands.zero with identifier := 0xFFFFFFFC } = some (.ok (.fields 31 0xFFFF 0xFF)) :=
  ⟨loaded _, loaded _, by decide, by decide +kernel, by decide +kernel⟩

/-- One bit at the top; a range past the top and a reversed one. -/
theorem witness_XbitsExtractsTheRange :
    Loaded (loadedState Operands.zero) Operands.zero waiting ∧
    ((31 : U8) ≤ 31 ∧ (31 : U8).toNat ≤ 31) ∧ ¬ ((0 : U8) ≤ 32 ∧ (32 : U8).toNat ≤ 31) ∧
    ¬ ((5 : U8) ≤ 4 ∧ (4 : U8).toNat ≤ 31) :=
  ⟨loaded _, by decide⟩

/-- The largest mode with a full payload, and the first values that are refused. -/
theorem witness_WrapLaysOutTheFrame :
    Loaded (loadedState { fields 31 0 0 with wrapPayload := List.replicate 8 0 })
      { fields 31 0 0 with wrapPayload := List.replicate 8 0 }
      waiting ∧
    (31 : U8).toNat ≤ 31 ∧ (List.replicate 8 (0 : Byte)).length ≤ 8 :=
  ⟨loaded _, by decide⟩

theorem witness_WrapRefusesInOrder :
    Loaded (loadedState { fields 32 0 0 with wrapPayload := List.replicate 9 0 })
      { fields 32 0 0 with wrapPayload := List.replicate 9 0 }
      waiting ∧
    31 < (32 : U8).toNat ∧ (31 : U8).toNat ≤ 31 ∧ 8 < (List.replicate 9 (0 : Byte)).length :=
  ⟨loaded _, by decide⟩

/-- The frame of L1-1. -/
def fixture : List Byte :=
  [0x41, 0x54, 0x90, 0x07, 0xEB, 0xFC, 0x08, 0x05, 0x70, 0x00, 0x00, 0x07, 0x01, 0x95, 0x54, 0x0D, 0x0A]

theorem witness_UnwrapReadsTheMessage :
    Loaded (loadedState (bytes fixture)) (bytes fixture) waiting ∧
    (bytes fixture).data = [0x41, 0x54, 0x90, 0x07, 0xEB, 0xFC, 0x08] ++
      bytesOf ⟨0x05, 0x70, 0x00, 0x00, 0x07, 0x01, 0x95, 0x54⟩ ++ [0x0D, 0x0A] :=
  ⟨loaded _, rfl⟩

/-- One byte short and one byte long. -/
theorem witness_UnwrapRefusesEveryOtherLength :
    Loaded (loadedState (bytes (fixture.take 16))) (bytes (fixture.take 16)) waiting ∧
    (bytes (fixture.take 16)).data.length ≠ 17 ∧ (fixture ++ [0]).length ≠ 17 :=
  ⟨loaded _, by decide⟩

/-- A wrong second byte, and a wrong length byte under a right header. -/
theorem witness_UnwrapChecksInOrder :
    Loaded (loadedState (bytes (fixture.set 1 0x55))) (bytes (fixture.set 1 0x55)) waiting ∧
    (fixture.set 1 0x55).length = 17 ∧ (fixture.set 1 0x55)[1]? ≠ some 0x54 ∧ (fixture.set 6 0x07).length = 17 ∧
    (fixture.set 6 0x07)[0]? = some 0x41 ∧ (fixture.set 6 0x07)[1]? = some 0x54 ∧
    (fixture.set 6 0x07)[15]? = some 0x0D ∧ (fixture.set 6 0x07)[16]? = some 0x0A ∧
    (fixture.set 6 0x07)[6]? ≠ some 0x08 :=
  ⟨loaded _, by decide⟩

/-- The message of L1-1 and its frame, both ways. -/
theorem witness_WrapAndUnwrapAreInverse :
    Loaded (loadedState { fields 18 0x00FD 127 with wrapPayload := fixture.drop 7 |>.take 8 })
      { fields 18 0x00FD 127 with wrapPayload := fixture.drop 7 |>.take 8 }
      waiting ∧
    Loaded (loadedState (bytes fixture)) (bytes fixture) waiting ∧
    (18 : U8).toNat ≤ 31 ∧ (fixture.drop 7 |>.take 8) = bytesOf ⟨0x05, 0x70, 0x00, 0x00, 0x07, 0x01, 0x95, 0x54⟩ ∧
    answerOf 0x2100 (bytes fixture) =
      some (.ok (.message ⟨18, 0x00FD, 127, ⟨0x05, 0x70, 0x00, 0x00, 0x07, 0x01, 0x95, 0x54⟩⟩)) :=
  ⟨loaded _, loaded _, by decide, by decide, by decide +kernel⟩

/-- The last entry, and an index of none. -/
theorem witness_RlookFindsTheIndex :
    (∀ o, LoadedWith standardRom (loadedState o) o waiting) ∧
    (∃ e ∈ standardRom.regcat, e.index = (param 0 0x701D 0).index ∧
      ∀ e' ∈ standardRom.regcat, e'.index = (param 0 0x701D 0).index → e' = e) ∧
    (∀ e ∈ standardRom.regcat, e.index ≠ (param 0 0x701E 0).index) :=
  ⟨loaded, ⟨⟨"rotation_count", 0x701D, .u16pad⟩, by decide⟩, by decide⟩

/-- Another lawful `REG_INDEX`: spd_ref at the lowest place it can have. -/
def movedIndex : RegIndex := { regIndex with spdRef := 0x7007 }

theorem witness_CatalogueIsFoundByIndexAndName :
    movedIndex.lawful = true ∧
    (∀ o, LoadedWith { standardRom with regIndex := movedIndex } (stateAt { standardRom with regIndex := movedIndex } o) o
      waiting) ∧
    (∃ e ∈ catalogueAt movedIndex, (0x7007 : U16) = e.index ∧ "spd_ref" = e.name) ∧
    (∀ e ∈ catalogueAt movedIndex, (0x700A : U16) ≠ e.index) ∧ (∀ e ∈ catalogueAt movedIndex, "" ≠ e.name) :=
  ⟨by decide, loadedAt _, ⟨⟨"spd_ref", 0x7007, .f32le⟩, by decide⟩, by decide, by decide⟩

/-- The largest value of each kind: 255.0, 65535.0 and the infinity. -/
theorem fieldOf_u8_top : FieldOf .u8pad 0x406FE00000000000 ⟨0xFF, 0, 0, 0⟩ :=
  .u8 _ 255 (by decide +kernel) (by decide) (by decide +kernel)

theorem fieldOf_u16_top : FieldOf .u16pad 0x40EFFFE000000000 ⟨0xFF, 0xFF, 0, 0⟩ :=
  .u16 _ 65535 (by decide +kernel) (by decide) (by decide +kernel)

theorem fieldOf_f32_infinity : FieldOf .f32le 0x7FF0000000000000
    ⟨byteOf (toF32 0x7FF0000000000000).toNat 0, byteOf (toF32 0x7FF0000000000000).toNat 1,
      byteOf (toF32 0x7FF0000000000000).toNat 2, byteOf (toF32 0x7FF0000000000000).toNat 3⟩ :=
  .f32 _ (by decide +kernel) (by decide +kernel)

/-- 256.0 is the first integer that run_mode cannot hold. -/
theorem fieldOf_u8_none : ∀ f, ¬ FieldOf .u8pad 0x4070000000000000 f := by
  intro f h
  cases h with
  | u8 _ n hf hn h =>
    have e : f64Units 0x4070000000000000 = ((256 : Nat) : Int) * (2 ^ 1074 : Int) := by decide +kernel
    have h2 := Int.eq_of_mul_eq_mul_right (by decide +kernel) (e.symm.trans h)
    omega

/-- 65536.0 is the first integer that rotation_count cannot hold. -/
theorem fieldOf_u16_none : ∀ f, ¬ FieldOf .u16pad 0x40F0000000000000 f := by
  intro f h
  cases h with
  | u16 _ n hf hn h =>
    have e : f64Units 0x40F0000000000000 = ((65536 : Nat) : Int) * (2 ^ 1074 : Int) := by decide +kernel
    have h2 := Int.eq_of_mul_eq_mul_right (by decide +kernel) (e.symm.trans h)
    omega

/-- 3.4028235677973366e38 rounds past the largest binary32. -/
theorem fieldOf_f32_none : ∀ f, ¬ FieldOf .f32le 0x47EFFFFFF0000000 f := by
  intro f h
  cases h with
  | f32 _ hn h =>
    have h2 := h (by decide +kernel)
    revert h2
    decide +kernel

/-- The operands of run_mode with 255.0. -/
def runModeTop : Operands := param 127 0x7005 0x406FE00000000000

theorem witness_RencEncodesByKind :
    Loaded (loadedState runModeTop) runModeTop waiting ∧
    (⟨"run_mode", 0x7005, .u8pad⟩ : RegEntry) ∈ catalogue ∧ runModeTop.index = 0x7005 ∧
    FieldOf .u8pad runModeTop.value ⟨0xFF, 0, 0, 0⟩ :=
  ⟨loaded _, by decide, rfl, fieldOf_u8_top⟩

/-- An index of no entry; a NaN; a number of no field, for each kind. -/
theorem witness_RencRefusesInOrder :
    Loaded (loadedState runModeTop) runModeTop waiting ∧ (∀ e ∈ catalogue, (0x7007 : U16) ≠ e.index) ∧
    (∃ e ∈ catalogue, runModeTop.index = e.index) ∧ isNaN 0x7FF8000000000000 = true ∧
    (isNaN 0x4070000000000000 = false ∧ ∀ f, ¬ FieldOf .u8pad 0x4070000000000000 f) ∧
    (isNaN 0x40F0000000000000 = false ∧ ∀ f, ¬ FieldOf .u16pad 0x40F0000000000000 f) ∧
    (isNaN 0x47EFFFFFF0000000 = false ∧ ∀ f, ¬ FieldOf .f32le 0x47EFFFFFF0000000 f) :=
  ⟨loaded _, by decide, by decide, by decide +kernel, ⟨by decide +kernel, fieldOf_u8_none⟩,
    ⟨by decide +kernel, fieldOf_u16_none⟩, ⟨by decide +kernel, fieldOf_f32_none⟩⟩

theorem witness_RdecDecodesByKind :
    Loaded (loadedState runModeTop) runModeTop waiting ∧
    (∃ e ∈ catalogue, runModeTop.index = e.index) ∧ (∀ e ∈ catalogue, (0x701E : U16) ≠ e.index) :=
  ⟨loaded _, by decide, by decide⟩

/-- The largest run mode both ways, and the conditions of the other two kinds at their largest values. -/
theorem witness_RegisterRoundTrips :
    Loaded (loadedState { runModeTop with field := ⟨0xFF, 0, 0, 0⟩ }) { runModeTop with field := ⟨0xFF, 0, 0, 0⟩ }
      waiting ∧
    (⟨"run_mode", 0x7005, .u8pad⟩ : RegEntry) ∈ catalogue ∧
    Gives .renc (loadedState { runModeTop with field := ⟨0xFF, 0, 0, 0⟩ }) waiting (.regField ⟨0xFF, 0, 0, 0⟩) ∧
    Gives .rdec (loadedState { runModeTop with field := ⟨0xFF, 0, 0, 0⟩ }) waiting (.regValue runModeTop.value) ∧
    Gives .renc (loadedState (param 0 0x701D 0x40EFFFE000000000)) waiting (.regField ⟨0xFF, 0xFF, 0, 0⟩) ∧
    Gives .rdec (loadedState { param 0 0x701D 0 with field := ⟨0xFF, 0xFF, 0, 0⟩ }) waiting
      (.regValue 0x40EFFFE000000000) ∧
    Gives .renc (loadedState (param 0 0x7006 0x7FF0000000000000)) waiting (.regField ⟨0x00, 0x00, 0x80, 0x7F⟩) ∧
    Gives .rdec (loadedState { param 0 0x7006 0 with field := ⟨0x00, 0x00, 0x80, 0x7F⟩ }) waiting
      (.regValue 0x7FF0000000000000) ∧
    0x3FF0000000000000 = fromF32 0x3F800000 ∧ isNaN32 0x3F800000 = false ∧
    isNaN32 (BitVec.ofNat 32 (number32 0x00 0x00 0x80 0x7F)) = false :=
  ⟨loaded _, by decide, gives (by decide +kernel), gives (by decide +kernel), gives (by decide +kernel),
    gives (by decide +kernel), gives (by decide +kernel), gives (by decide +kernel), by decide +kernel, by decide +kernel,
    by decide +kernel⟩

/-- run_mode at its largest value, and spd_ref at its moved index. -/
theorem witness_RegisterRowsEncode :
    movedIndex.lawful = true ∧
    (∀ o, LoadedWith { standardRom with regIndex := movedIndex } (stateAt { standardRom with regIndex := movedIndex } o) o
      waiting) ∧
    (⟨"run_mode", 0x7005, .u8pad⟩ : RegEntry) ∈ catalogueAt movedIndex ∧
    (Instr.regRunMode, 0x7005) ∈ registerRows movedIndex ∧
    (⟨"spd_ref", 0x7007, .f32le⟩ : RegEntry) ∈ catalogueAt movedIndex ∧
    (Instr.regSpdRef, 0x7007) ∈ registerRows movedIndex ∧
    FieldOf .u8pad runModeTop.value ⟨0xFF, 0, 0, 0⟩ ∧ isNaN 0x7FF8000000000000 = true ∧
    (isNaN 0x4070000000000000 = false ∧ ∀ f, ¬ FieldOf .u8pad 0x4070000000000000 f) ∧
    (isNaN 0x47EFFFFFF0000000 = false ∧ ∀ f, ¬ FieldOf .f32le 0x47EFFFFFF0000000 f) :=
  ⟨by decide, loadedAt _, by decide, by decide, by decide, by decide, fieldOf_u8_top, by decide +kernel,
    ⟨by decide +kernel, fieldOf_u8_none⟩, by decide +kernel, fieldOf_f32_none⟩

/-- The largest target and the first that is too large, at the spec's `HOST_ID_W` and at a narrow one. -/
theorem witness_BuildHostRequests :
    LoadedWith { standardRom with hostIdW := 32 } (loadedState (target 255 0x1FD)) (target 255 0x1FD) waiting ∧
    LoadedWith { standardRom with hostIdW := 4 } (stateAt { standardRom with hostIdW := 4 } (target 256 0x1FD))
      (target 256 0x1FD) waiting ∧
    (target 255 0x1FD).targetId.toNat ≤ 255 ∧ 255 < (target 256 0x1FD).targetId.toNat :=
  ⟨loaded _, loadedAt _ _, by decide⟩

/-- All numbers, with a target at the limit; a target above it; a NaN in one lane. -/
theorem witness_BuildControlRequest :
    Loaded (loadedState (control 255 0 0 0 0 0)) (control 255 0 0 0 0 0) waiting ∧
    (control 255 0 0 0 0 0).targetId.toNat ≤ 255 ∧ isNaN (control 255 0 0 0 0 0).torque = false ∧
    PayloadNumbers (control 255 0 0 0 0 0) ∧ 255 < (control 256 0 0 0 0 0).targetId.toNat ∧
    ¬ (isNaN (control 255 0 0 0 0 0x7FF8000000000000).torque = false ∧
      PayloadNumbers (control 255 0 0 0 0 0x7FF8000000000000)) := by
  unfold PayloadNumbers
  exact ⟨loaded _, by decide +kernel⟩

theorem witness_BuildParamRequests :
    Loaded (loadedState runModeTop) runModeTop waiting ∧ runModeTop.targetId.toNat ≤ 255 ∧
    (∃ e ∈ catalogue, runModeTop.index = e.index) ∧ FieldOf .u8pad runModeTop.value ⟨0xFF, 0, 0, 0⟩ ∧
    isNaN 0x7FF8000000000000 = true ∧
    (isNaN 0x4070000000000000 = false ∧ ∀ f, ¬ FieldOf .u8pad 0x4070000000000000 f) ∧
    (∀ e ∈ catalogue, (0x7007 : U16) ≠ e.index) ∧ 255 < (256 : U32).toNat :=
  ⟨loaded _, by decide, by decide, fieldOf_u8_top, by decide +kernel, ⟨by decide +kernel, fieldOf_u8_none⟩,
    by decide, by decide⟩

theorem witness_TxHostRequests :
    Loaded (loadedState (target 255 0x1FD)) (target 255 0x1FD) waiting ∧
    (target 255 0x1FD).targetId.toNat ≤ 255 :=
  ⟨loaded _, by decide⟩

theorem witness_TxControlAndParamRequests :
    Loaded (loadedState runModeTop) runModeTop waiting ∧ runModeTop.targetId.toNat ≤ 255 ∧
    isNaN runModeTop.torque = false ∧ PayloadNumbers runModeTop ∧ (∃ e ∈ catalogue, runModeTop.index = e.index) ∧
    FieldOf .u8pad runModeTop.value ⟨0xFF, 0, 0, 0⟩ := by
  unfold PayloadNumbers
  exact ⟨loaded _, by decide, by decide +kernel, by decide +kernel, by decide, fieldOf_u8_top⟩

/-- Both sides hold for a target above 255. -/
theorem witness_TxReportsTheBuildFailure :
    Loaded (loadedState (target 256 0)) (target 256 0) waiting ∧
    answerOf 0x4003 (target 256 0) = some (.fail .fieldRange) ∧
    answerOf 0x5003 (target 256 0) = some (.fail .fieldRange) :=
  ⟨loaded _, by decide +kernel⟩

/-- The sentinel node and another. -/
theorem witness_ParseIdResponse :
    Loaded (loadedState (fields 0 0x007F 0xFE)) (fields 0 0x007F 0xFE) waiting ∧
    (fields 0 0x007F 0xFE).commandMode = 0 ∧ (fields 0 0x007F 0xFE).nodeId = 0xFE ∧ (0x01 : U8) ≠ 0xFE :=
  ⟨loaded _, by decide⟩

theorem witness_ParseStatusResponse :
    Loaded (loadedState (fields 2 0x80FE 0xFD)) (fields 2 0x80FE 0xFD) waiting ∧
    (fields 2 0x80FE 0xFD).commandMode = 2 :=
  ⟨loaded _, rfl⟩

/-- The bytes of a catalogued index, and the same bytes swapped. -/
theorem witness_ParseParamReadResponse :
    Loaded (loadedState (fields 17 0x007F 0xFD)) (fields 17 0x007F 0xFD) waiting ∧
    (fields 17 0x007F 0xFD).commandMode = 17 ∧ (∃ e ∈ catalogue, number16 0x1D 0x70 = e.index.toNat) ∧
    (∀ e ∈ catalogue, number16 0x70 0x05 ≠ e.index.toNat) :=
  ⟨loaded _, by decide, by decide, by decide⟩

theorem witness_ParseFaultResponse :
    Loaded (loadedState (fields 21 0x007F 0xFD)) (fields 21 0x007F 0xFD) waiting ∧
    (fields 21 0x007F 0xFD).commandMode = 21 :=
  ⟨loaded _, rfl⟩

/-- The modes beside the four that parse. -/
theorem witness_ParseRefusesOtherModes :
    Loaded (loadedState (fields 18 0 0)) (fields 18 0 0) waiting ∧
    ∀ m ∈ [(1 : U8), 3, 16, 18, 20, 22, 255], m ≠ 0 ∧ m ≠ 2 ∧ m ≠ 17 ∧ m ≠ 21 :=
  ⟨loaded _, by decide⟩

/-- The operands of RX with the frame of a message. -/
def framed (mode : U8) : Operands := bytes (messageFrame ⟨mode, 0x007F, 0xFD, ⟨0, 0, 0, 0, 0, 0, 0, 0⟩⟩)

theorem witness_RxParsesTheFrame :
    Loaded (loadedState (framed 2)) (framed 2) waiting ∧
    (framed 2).data = messageFrame ⟨2, 0x007F, 0xFD, ⟨0, 0, 0, 0, 0, 0, 0, 0⟩⟩ ∧
    (framed 21).data = messageFrame ⟨21, 0x007F, 0xFD, ⟨0, 0, 0, 0, 0, 0, 0, 0⟩⟩ :=
  ⟨loaded _, rfl, rfl⟩

/-- A frame UNWRAP accepts with the operands PARSE takes of it, and one it refuses. -/
theorem witness_RxIsUnwrapThenParse :
    Loaded (loadedState (bytes fixture)) (bytes fixture) waiting ∧
    Loaded { loadedState (received 18 0x00FD 127 ⟨0x05, 0x70, 0, 0, 0x07, 0x01, 0x95, 0x54⟩) with
        requests := ⟨0, received 18 0x00FD 127 ⟨0x05, 0x70, 0, 0, 0x07, 0x01, 0x95, 0x54⟩⟩ ::
          waiting }
      (received 18 0x00FD 127 ⟨0x05, 0x70, 0, 0, 0x07, 0x01, 0x95, 0x54⟩) waiting ∧
    answerOf 0x2100 (bytes fixture) =
      some (.ok (.message ⟨18, 0x00FD, 127, ⟨0x05, 0x70, 0x00, 0x00, 0x07, 0x01, 0x95, 0x54⟩⟩)) ∧
    answerOf 0x2100 (bytes []) = some (.fail .wrongLength) :=
  ⟨loaded _, ⟨rfl, _, rfl, rfl⟩, by decide +kernel, by decide +kernel⟩

/-- Numbers and a NaN in the payload; a catalogued index with a value that fits, a NaN and one that does not fit; an index
of no entry. -/
theorem witness_MessageRowsBuild :
    (∀ o, Loaded (loadedState o) o waiting) ∧ PayloadNumbers runModeTop ∧
    ¬ PayloadNumbers (control 0 0 0 0 0 0x7FF8000000000000) ∧
    (∃ e ∈ catalogue, runModeTop.index = e.index ∧ e.kind = .u8pad) ∧
    FieldOf .u8pad runModeTop.value ⟨0xFF, 0, 0, 0⟩ ∧ isNaN 0x7FF8000000000000 = true ∧
    (isNaN 0x4070000000000000 = false ∧ ∀ f, ¬ FieldOf .u8pad 0x4070000000000000 f) ∧
    (∀ e ∈ catalogue, (param 0 0x7007 0).index ≠ e.index) := by
  unfold PayloadNumbers
  exact ⟨loaded, by decide +kernel, by decide +kernel, by decide, fieldOf_u8_top, by decide +kernel,
    ⟨by decide +kernel, fieldOf_u8_none⟩, by decide⟩

/-- The bytes of a catalogued index, and the same bytes swapped. -/
theorem witness_MessageRowsParse :
    (∀ o, Loaded (loadedState o) o waiting) ∧ (0xFD : U8) ≠ 0xFE ∧
    (∃ e ∈ catalogue, number16 0x1D 0x70 = e.index.toNat) ∧ (∀ e ∈ catalogue, number16 0x70 0x1D ≠ e.index.toNat) :=
  ⟨loaded, by decide, by decide, by decide⟩

/-- A moved `REG_INDEX` with the table's widths, and a word that decodes. -/
theorem witness_DecodeAndEncodeAgree :
    { standardRom with regIndex := movedIndex }.regIndex.lawful = true ∧
    1 ∈ { standardRom with regIndex := movedIndex }.qwidths ∧ 2 ∈ { standardRom with regIndex := movedIndex }.qwidths ∧
    decode { standardRom with regIndex := movedIndex } (.canid .toHost 0x1407F7EC) =
      .ok (.row (.msgStatusResponse 0x80FE 0xFD)) := by
  decide

/-- A legal OPWORD, an illegal one, a width outside `QWIDTHS` and another width inside it, in flight. -/
theorem witness_IllegalOpwordsAreRefused :
    (∀ (rom : Rom) (w : U16), ({ stateAt rom Operands.zero with requests := [⟨w, Operands.zero⟩] } : State).requests =
      ⟨w, Operands.zero⟩ :: []) ∧
    ((0x5100 : U16) ∈ legalOpwords ∧ ¬ ((0x5100 : U16).toNat / 256 = 1 ∨ (0x5100 : U16).toNat / 256 = 2)) ∧
    ((0x0102 : U16) ∈ legalOpwords ∧ (0x0102 : U16).toNat % 256 ∈ widerRom.qwidths) ∧
    ((0x4002 : U16) ∉ legalOpwords ∧ (0x4002 : U16).toNat / 256 ≠ 1 ∧ (0x4002 : U16).toNat / 256 ≠ 2) ∧
    ((0x0204 : U16).toNat / 256 = 2 ∧ (0x0204 : U16).toNat % 256 ∉ widerRom.qwidths) ∧
    ((0x0103 : U16) ∉ legalOpwords ∧ (0x0103 : U16).toNat % 256 ∈ widerRom.qwidths ∧ (0x0103 : U16).toNat / 256 = 1) ∧
    ((0x0203 : U16) ∉ legalOpwords ∧ (0x0203 : U16).toNat % 256 ∈ widerRom.qwidths ∧ (0x0203 : U16).toNat / 256 = 2) :=
  ⟨fun _ _ => rfl, by decide⟩

/-- A request that decodes, and one that does not. -/
theorem witness_StepRunsTheDecodedInstruction :
    (loadedState Operands.zero).requests.tail = ⟨0x0300, Operands.zero⟩ :: [] ∧
    decode (loadedState Operands.zero).rom (.opword 0x0300) = .ok (.row .qtemp) ∧
    (loadedState Operands.zero).requests = ⟨0, Operands.zero⟩ :: waiting ∧
    decode (loadedState Operands.zero).rom (.opword 0) = .error .illegalOperation := by
  decide

/-- No request, and a request in flight. -/
theorem witness_EveryRequestGetsOneResponse :
    State.reset.requests = [] ∧
    (loadedState Operands.zero).requests = ⟨0, Operands.zero⟩ :: waiting :=
  ⟨rfl, rfl⟩

theorem witness_RomIsNeverWritten :
    step (loadedState Operands.zero) =
      .next { rom := standardRom, requests := waiting
              responses := [.fail .wrongLength, .fail .illegalOperation] } ∧
    exec .unpack (loadedState Operands.zero) =
      .next { rom := standardRom, requests := waiting
              responses := [.fail .wrongLength, .ok (.fields 0 0 0)] } :=
  ⟨rfl, rfl⟩

theorem witness_StepKeepsTheInvariant :
    (loadedState Operands.zero).inv ∧ step (loadedState Operands.zero) =
      .next { rom := standardRom, requests := waiting
              responses := [.fail .wrongLength, .fail .illegalOperation] } :=
  ⟨⟨rfl, rfl⟩, rfl⟩

theorem witness_RunAnswersEachRequestAlone : 2 ≤ (loadedState Operands.zero).requests.length := by decide

/-- Two requests in both orders. -/
theorem witness_OrderOfRequestsDoesNotMatter :
    (State.reset.rom = standardRom) ∧
    [(⟨0x1100, Operands.zero⟩ : Request), ⟨0, Operands.zero⟩].Perm
      [⟨0, Operands.zero⟩, ⟨0x1100, Operands.zero⟩] ∧
    Host.Core.run Sys2Proof.core 2
        { State.reset with requests := [⟨0x1100, Operands.zero⟩, ⟨0, Operands.zero⟩] } =
      .next { State.reset with responses := [.ok (.fields 0 0 0), .fail .illegalOperation] } ∧
    Host.Core.run Sys2Proof.core 2
        { State.reset with requests := [⟨0, Operands.zero⟩, ⟨0x1100, Operands.zero⟩] } =
      .next { State.reset with responses := [.fail .illegalOperation, .ok (.fields 0 0 0)] } :=
  ⟨rfl, .swap _ _ _, rfl, rfl⟩

theorem witness_FailuresOnlyWhereListed :
    (loadedState (fields 32 0 0)).rom = standardRom ∧
    exec .pack (loadedState (fields 32 0 0)) =
      .next { rom := standardRom, requests := waiting
              responses := (loadedState (fields 32 0 0)).responses ++ [.fail .fieldRange] } :=
  ⟨rfl, rfl⟩

/-- A word that runs as its row, one of a ControlCommand at the standard tables; the modes beside those that have a builder
or a parser, and an index of no entry. -/
theorem witness_TableWordsRunThroughOpwords :
    (∀ a, ({ loadedState Operands.zero with requests := a :: waiting } : State).requests = a :: waiting) ∧
    (decode standardRom (.canid .toHost 0x1407F7EC) = .ok (.row (.msgStatusResponse 0x80FE 0xFD)) ∧
      ∀ aux node, Instr.msgStatusResponse 0x80FE 0xFD = .msgControlCommand aux node →
        (loadedState Operands.zero).rom = standardRom) ∧
    (decode standardRom (.canid .toDevice 0x0FFFF80C) = .ok (.row (.msgControlCommand 0xFFFF 1)) ∧
      (loadedState Operands.zero).rom = standardRom) ∧
    (0x1407F7EC : U32).toNat / 2 ^ 27 ∉ [0, 1, 3, 4, 6, 7, 17, 18] ∧
    (0xFFFFFFFF : U32).toNat / 2 ^ 27 ∉ [0, 1, 3, 4, 6, 7, 17, 18] ∧ (0x0BFFF80C : U32).toNat / 2 ^ 27 ∉ [0, 2, 17, 21] ∧
    (∀ e ∈ catalogueAt (loadedState Operands.zero).rom.regIndex, e.index ≠ 0x7007) ∧
    answerOfWord .toDevice 0x1407F7EC Operands.zero = some (.fail .illegalOperation) ∧
    answerOfWord .toHost 0x0BFFF80C Operands.zero = some (.fail .unsupportedMode) ∧
    answerOfIndex 0x7007 0 = some (.fail .unknownRegister) :=
  ⟨fun _ => rfl, ⟨by decide, fun _ _ _ => rfl⟩, ⟨by decide, rfl⟩, by decide, by decide, by decide, by decide,
    by decide +kernel⟩

end Sys2Proof.Tests
end

section
/-!
SUPPORT. The rounding of `round64` and `toF32` as rounding of rational numbers (R13): the value of a pattern is a sign and
a magnitude, the nearest magnitude of Laws/Float.lean is the nearest value of either sign, and a magnitude overflows
exactly from the middle between the largest finite value and the infinity's place on. Then what an operation gives on what
is loaded, and the ROM ranges as rational numbers.
-/

namespace Sys2Proof.Proofs

open Sys2Proof.Machine Sys2Proof.Claims

/-! ### Rational values of a sign and a magnitude -/

/-- The rational number of a sign and a magnitude: what both formats mean by their sign bit (R13). -/
def signedRat (neg : Bool) (q : Rat) : Rat := if neg then -q else q

@[simp] theorem signedRat_zero (neg : Bool) : signedRat neg 0 = 0 := by
  cases neg <;> simp [signedRat]

theorem abs_signedRat (neg : Bool) (q : Rat) : |signedRat neg q| = |q| := by
  cases neg <;> simp [signedRat]

theorem signedRat_sub (neg : Bool) (p q : Rat) : signedRat neg p - signedRat neg q = signedRat neg (p - q) := by
  cases neg
  · rfl
  · simp only [signedRat, if_true]; ring

theorem signedRat_mul (s t : Bool) (p q : Rat) : signedRat s p * signedRat t q = signedRat (s != t) (p * q) := by
  cases s <;> cases t <;> simp [signedRat]

theorem signedRat_div (s t : Bool) (p q : Rat) : signedRat s p / signedRat t q = signedRat (s != t) (p / q) := by
  cases s <;> cases t <;> simp [signedRat, div_neg, neg_div]

theorem signedRat_div_nat (neg : Bool) (q : Rat) (m : Nat) : signedRat neg (q / m) = signedRat neg q / m := by
  cases neg <;> simp [signedRat, neg_div]

/-- A positive magnitude is negative exactly where its sign says so. -/
theorem signedRat_neg_iff (neg : Bool) {q : Rat} (hq : 0 < q) : neg = true ↔ signedRat neg q < 0 := by
  cases neg
  · simp [signedRat, hq.le]
  · simp [signedRat, hq]

/-- An integer is its sign and its magnitude. -/
theorem signedRat_natAbs (u : Int) : signedRat (decide (u < 0)) (u.natAbs : Rat) = (u : Rat) := by
  rw [Nat.cast_natAbs, signedRat]
  split
  · rename_i h
    rw [abs_of_neg (of_decide_eq_true h), Int.cast_neg, neg_neg]
  · rename_i h
    rw [abs_of_nonneg (by simpa using h)]

theorem signedRat_mkRat (neg : Bool) (m unit : Nat) :
    mkRat (if neg then -(m : Int) else (m : Int)) unit = signedRat neg (m / unit) := by
  rw [Rat.mkRat_eq_div]
  cases neg <;> simp [signedRat, neg_div]

theorem absQ_eq_abs (q : Rat) : absQ q = |q| := by
  rw [absQ]
  split
  · rename_i h; exact (abs_of_neg h).symm
  · rename_i h; exact (abs_of_nonneg (not_lt.1 h)).symm

/-! ### The nearest value, over the rationals -/

/-- The distance of a value of the format from `n / d` units, as an integer over the common denominator. -/
theorem abs_units_sub (m n : Nat) {d unit : Nat} (hd : 0 < d) (hu : 0 < unit) :
    |(m : Rat) / unit - n / (d * unit)| = (((d * m : Int) - n).natAbs : Rat) / (d * unit) := by
  have hd' : (0 : Rat) < d := Nat.cast_pos.2 hd
  have hu' : (0 : Rat) < unit := Nat.cast_pos.2 hu
  have e : (m : Rat) / unit - n / (d * unit) = (d * m - n) / (d * unit) := by field_simp
  rw [e, abs_div, abs_of_pos (mul_pos hd' hu'), Nat.cast_natAbs]
  push_cast
  rfl

/-- `v`, with magnitude bits `mag`, is at least as near to `u` as `w` is, and even where another `w` is equally near. -/
def NoNearer (u v w : Rat) (mag : Nat) : Prop :=
  |v - u| ≤ |w - u| ∧ (|v - u| = |w - u| → v ≠ w → mag % 2 = 0)

/-- Rounding a magnitude gives the nearest magnitude of the format, the even one at a tie. -/
theorem roundMag_nearest_rat {fb : Nat} (hfb : 0 < fb) (n z : Nat) {d unit : Nat} (hd : 0 < d) (hu : 0 < unit) :
    NoNearer (n / (d * unit)) (magUnits fb (roundMag fb n d) / unit) (magUnits fb z / unit) (roundMag fb n d) := by
  obtain ⟨hle, htie⟩ := roundMag_nearest hfb n z hd
  have hdu : (0 : Rat) < d * unit := mul_pos (Nat.cast_pos.2 hd) (Nat.cast_pos.2 hu)
  rw [NoNearer, abs_units_sub _ n hd hu, abs_units_sub _ n hd hu, div_le_div_iff_of_pos_right hdu,
    div_left_inj' hdu.ne', Nat.cast_le, Nat.cast_inj]
  exact ⟨hle, fun heq hne => htie heq fun h => hne (by rw [h])⟩

/-- The other sign takes a magnitude no nearer to `q`, and leaves it as near only where one of the two is zero. -/
theorem abs_sub_signedRat {p q : Rat} (hp : 0 ≤ p) (hq : 0 ≤ q) (s t : Bool) :
    |p - q| ≤ |signedRat t p - signedRat s q| ∧
    (|p - q| = |signedRat t p - signedRat s q| → signedRat t p = signedRat s p ∨ q = 0) := by
  obtain rfl | rfl : t = s ∨ t = !s := by cases s <;> cases t <;> simp
  · rw [signedRat_sub, abs_signedRat]
    exact ⟨le_rfl, fun _ => .inl rfl⟩
  · have hsum : signedRat (!s) p - signedRat s q = signedRat (!s) (p + q) := by
      cases s
      · simp only [signedRat, Bool.not_false, if_true, Bool.false_eq_true, if_false]; ring
      · simp [signedRat]
    rw [hsum, abs_signedRat, abs_of_nonneg (add_nonneg hp hq)]
    refine ⟨abs_sub_le_iff.2 ⟨by linarith, by linarith⟩, fun heq => ?_⟩
    rcases abs_choice (p - q) with h | h
    · exact .inr (by linarith)
    · have hp0 : p = 0 := by linarith
      exact .inl (by rw [hp0, signedRat_zero, signedRat_zero])

theorem magUnits_zero (fb : Nat) : magUnits fb 0 = 0 := by simp [magUnits]

/-- The value of a sign and magnitude bits in the format with `fb` fraction bits and `unit` units to the number 1. -/
def formatRat (fb unit : Nat) (neg : Bool) (mag : Nat) : Rat := signedRat neg (magUnits fb mag / unit)

theorem f64Rat_eq_formatRat (x : F64) : f64Rat x = formatRat 52 one64 (f64Neg x) (f64Mag x) := signedRat_mkRat _ _ _

theorem f32Rat_eq_formatRat (y : F32) : f32Rat y = formatRat 23 (2 ^ 149) (f32Neg y) (f32Mag y) := signedRat_mkRat _ _ _

/-- No value of the format, of either sign, is nearer than the rounded one; one equally near means that it is even. -/
theorem formatRat_roundMag_nearest {fb : Nat} (hfb : 0 < fb) (s t : Bool) (n z : Nat) {d unit : Nat} (hd : 0 < d)
    (hu : 0 < unit) :
    NoNearer (signedRat s (n / (d * unit))) (formatRat fb unit s (roundMag fb n d)) (formatRat fb unit t z)
      (roundMag fb n d) := by
  obtain ⟨hle, htie⟩ := roundMag_nearest_rat hfb n z hd hu
  obtain ⟨hle', htie'⟩ := abs_sub_signedRat (p := magUnits fb z / unit) (q := n / (d * unit)) (by positivity)
    (by positivity) s t
  unfold formatRat NoNearer
  rw [signedRat_sub, abs_signedRat]
  refine ⟨hle.trans hle', fun heq hne => ?_⟩
  rcases htie' (le_antisymm hle' (heq ▸ hle)) with hz | hq
  · exact htie (le_antisymm hle (heq ▸ hle')) fun h => hne (by rw [h, hz])
  · have hn : n = 0 := by
      have hdu : (d * unit : Rat) ≠ 0 := by positivity
      simpa [hdu] using hq
    rw [hn, roundMag_zero fb hd]

/-! ### Overflow -/

/-- A magnitude rounds below an even magnitude `inf` exactly where it lies below the middle between `inf` and the one
before it: that one is odd, so the tie goes to `inf`. -/
theorem roundMag_lt_iff {fb : Nat} (hfb : 0 < fb) (n : Nat) {d inf : Nat} (hd : 0 < d) (h0 : 0 < inf)
    (heven : inf % 2 = 0) :
    roundMag fb n d < inf ↔ 2 * n < (magUnits fb (inf - 1) + magUnits fb inf) * d := by
  obtain ⟨toTop, tieTop⟩ := roundMag_nearest hfb n inf hd
  obtain ⟨toMax, -⟩ := roundMag_nearest hfb n (inf - 1) hd
  have hmax : d * magUnits fb (inf - 1) < d * magUnits fb inf :=
    Nat.mul_lt_mul_of_pos_left (magUnits_lt.2 (by omega)) hd
  rw [Nat.mul_comm, Nat.mul_comm _ d, Nat.mul_add]
  constructor
  · intro hlt
    have hle : d * magUnits fb (roundMag fb n d) ≤ d * magUnits fb (inf - 1) :=
      Nat.mul_le_mul_left d (Nat.le_of_not_lt fun h => by have := magUnits_lt.1 h; omega)
    by_contra hge
    have hr : roundMag fb n d % 2 = 0 := tieTop (by omega) fun h => by rw [h] at hle; omega
    have hlt' : d * magUnits fb (roundMag fb n d) < d * magUnits fb (inf - 1) :=
      Nat.mul_lt_mul_of_pos_left (magUnits_lt.2 (by omega)) hd
    omega
  · intro hn
    by_contra hge
    have hle : d * magUnits fb inf ≤ d * magUnits fb (roundMag fb n d) :=
      Nat.mul_le_mul_left d (Nat.le_of_not_lt fun h => by have := magUnits_lt.1 h; omega)
    omega

/-- The middle between the largest finite value and the place of the infinity bounds what rounds to a finite value. -/
theorem roundMag_lt_iff_rat {fb : Nat} (hfb : 0 < fb) (n : Nat) {d unit inf : Nat} (hd : 0 < d) (hu : 0 < unit)
    (h0 : 0 < inf) (heven : inf % 2 = 0) :
    roundMag fb n d < inf ↔
      (n : Rat) / (d * unit) < mkRat (magUnits fb (inf - 1) + magUnits fb inf) (2 * unit) := by
  have hdu : (0 : Rat) < d * unit := by positivity
  have h2u : (0 : Rat) < (2 * unit : Nat) := Nat.cast_pos.2 (by omega)
  rw [roundMag_lt_iff hfb n hd h0 heven, Rat.mkRat_eq_div, div_lt_div_iff₀ hdu h2u,
    ← Nat.mul_lt_mul_right hu, ← Nat.cast_lt (α := Rat)]
  push_cast
  ring_nf

/-! ### Rounding to either format -/

/-- `RoundedTo64` and `RoundedTo32` on sign and magnitude bits, for the format with `fb` fraction bits, the infinity's
magnitude bits `inf`, `unit` units to the number 1 and the least magnitude `top` that overflows. -/
def RoundsTo (fb inf unit : Nat) (top u : Rat) (neg : Bool) (mag : Nat) : Prop :=
  (|u| < top →
    mag < inf ∧ ∀ t z, NoNearer u (formatRat fb unit neg mag) (formatRat fb unit t z) mag) ∧
  (top ≤ |u| → mag = inf ∧ (neg = true ↔ u < 0))

/-- The model's rounding, cut at the infinity, rounds `n / d` units of either sign. -/
theorem roundsTo_roundMag {fb inf unit : Nat} {top : Rat} (hfb : 0 < fb) (hu : 0 < unit) (h0 : 0 < inf)
    (heven : inf % 2 = 0) (htop : top = mkRat (magUnits fb (inf - 1) + magUnits fb inf) (2 * unit)) (hpos : 0 < top)
    (neg : Bool) (n : Nat) {d : Nat} (hd : 0 < d) :
    RoundsTo fb inf unit top (signedRat neg (n / (d * unit))) neg (min (roundMag fb n d) inf) := by
  have hfinite := roundMag_lt_iff_rat hfb n hd hu h0 heven
  rw [← htop] at hfinite
  have hq : |signedRat neg (n / (d * unit))| = n / (d * unit) := by
    rw [abs_signedRat, abs_of_nonneg (by positivity)]
  constructor
  · intro hlt
    have hlt' := hfinite.2 (hq ▸ hlt)
    rw [Nat.min_eq_left hlt'.le]
    exact ⟨hlt', fun t z => formatRat_roundMag_nearest hfb neg t n z hd hu⟩
  · intro hle
    rw [hq] at hle
    have hge : inf ≤ roundMag fb n d := not_lt.1 fun h => absurd (hfinite.1 h) (not_lt.2 hle)
    exact ⟨Nat.min_eq_right hge, signedRat_neg_iff neg (hpos.trans_le hle)⟩

/-! ### binary64 -/

theorem overflow64_eq : overflow64 = mkRat (magUnits 52 (infMag64 - 1) + magUnits 52 infMag64) (2 * one64) := by
  decide +kernel

theorem overflow64_pos : 0 < overflow64 := by decide +kernel

theorem roundedTo64_of_roundsTo {u : Rat} {x : F64}
    (h : RoundsTo 52 infMag64 one64 overflow64 u (f64Neg x) (f64Mag x)) : RoundedTo64 u x := by
  obtain ⟨hnear, hover⟩ := h
  have hpar : x.toNat % 2 = f64Mag x % 2 := by unfold f64Mag; omega
  simp only [RoundedTo64, absQ_eq_abs, f64Rat_eq_formatRat, isFinite, isInf, decide_eq_true_eq, beq_iff_eq, hpar]
  exact ⟨fun hlt => ⟨(hnear hlt).1, fun z _ => (hnear hlt).2 _ _⟩, hover⟩

/-- The model's rounding to binary64 rounds to nearest, ties to even (R13). -/
theorem roundedTo64_round64 (neg : Bool) (n : Nat) {d : Nat} (hd : 0 < d) :
    RoundedTo64 (signedRat neg (n / (d * one64))) (round64 neg n d) := by
  apply roundedTo64_of_roundsTo
  rw [round64, f64Neg_f64Of _ (min_infMag64_lt _), f64Mag_f64Of _ (min_infMag64_lt _)]
  exact roundsTo_roundMag (by decide) one64_pos (by decide) rfl overflow64_eq overflow64_pos neg n hd

/-! ### binary32 -/

theorem overflow32_eq :
    overflow32 = mkRat (magUnits 23 (infMag32 - 1) + magUnits 23 infMag32) (2 * 2 ^ 149) := by
  decide +kernel

theorem overflow32_pos : 0 < overflow32 := by decide +kernel

theorem min_infMag32_lt (m : Nat) : min m infMag32 < 2 ^ 31 := Nat.lt_of_le_of_lt (Nat.min_le_right _ _) (by decide)

theorem roundedTo32_of_roundsTo {u : Rat} {y : F32}
    (h : RoundsTo 23 infMag32 (2 ^ 149) overflow32 u (f32Neg y) (f32Mag y)) : RoundedTo32 u y := by
  obtain ⟨hnear, hover⟩ := h
  have hpar : y.toNat % 2 = f32Mag y % 2 := by unfold f32Mag; omega
  simp only [RoundedTo32, absQ_eq_abs, f32Rat_eq_formatRat, isInf32, beq_iff_eq, hpar]
  exact ⟨fun hlt => ⟨(hnear hlt).1, fun z _ => (hnear hlt).2 _ _⟩, hover⟩

/-- A binary32 unit is `2^925` binary64 units. -/
theorem one64_eq_unit32 : one64 = unit32 * 2 ^ 149 := by decide +kernel

/-- Narrowing a finite value rounds to nearest, ties to even (R13). -/
theorem roundedTo32_toF32 {x : F64} (hx : isFinite x = true) : RoundedTo32 (f64Rat x) (toF32 x) := by
  have e : toF32 x = f32Of (f64Neg x) (min (roundMag 23 (magUnits 52 (f64Mag x)) unit32) infMag32) := by
    simp [toF32, not_isNaN_of_finite hx, not_isInf_of_finite hx]
  apply roundedTo32_of_roundsTo
  rw [e, f32Neg_f32Of _ (min_infMag32_lt _), f32Mag_f32Of _ (min_infMag32_lt _), f64Rat_eq_formatRat, formatRat,
    one64_eq_unit32, Nat.cast_mul]
  exact roundsTo_roundMag (by decide) (by decide) (by decide) rfl overflow32_eq overflow32_pos _ _ unit32_pos

/-- Widening a finite binary32 gives the finite binary64 of the same value (R13). -/
theorem f64Rat_fromF32 {y : F32} (hy : f32Mag y < infMag32) :
    isFinite (fromF32 y) = true ∧ f64Rat (fromF32 y) = f32Rat y := by
  rcases fromF32_cases y with ⟨hnan, -⟩ | ⟨hinf, -, -⟩ | ⟨-, -, -, hfin, hneg, hmag⟩
  · simp [isNaN32] at hnan; omega
  · simp [isInf32] at hinf; omega
  · have hu : (unit32 : Rat) ≠ 0 := Nat.cast_ne_zero.2 unit32_pos.ne'
    refine ⟨hfin, ?_⟩
    rw [f64Rat_eq_formatRat, f32Rat_eq_formatRat, formatRat, formatRat, hneg, hmag, one64_eq_unit32, Nat.cast_mul,
      Nat.cast_mul, mul_comm (unit32 : Rat), mul_div_mul_right _ _ hu]

/-! ### The operations on finite values -/

/-- The rounding of an exact sum of units is the model's, zero of either sign included. -/
theorem addFinite_eq_round64 (x y : F64) :
    ∃ neg, addFinite x y = round64 neg (f64Units x + f64Units y).natAbs 1 ∧
      signedRat neg ((f64Units x + f64Units y).natAbs : Rat) = ((f64Units x + f64Units y : Int) : Rat) := by
  simp only [addFinite]
  split
  · rename_i h0
    refine ⟨f64Neg x && f64Neg y, ?_, by simp [h0]⟩
    rw [h0, Int.natAbs_zero, round64, roundMag_zero 52 (by decide), Nat.zero_min]
  · exact ⟨_, rfl, signedRat_natAbs _⟩

theorem f64Rat_eq_units_div (x : F64) : f64Rat x = f64Units x / one64 := Rat.mkRat_eq_div _ _

theorem roundedTo64_addFinite (x y : F64) : RoundedTo64 (f64Rat x + f64Rat y) (addFinite x y) := by
  obtain ⟨neg, hround, hunits⟩ := addFinite_eq_round64 x y
  have h := roundedTo64_round64 neg (f64Units x + f64Units y).natAbs Nat.one_pos
  rw [Nat.cast_one, one_mul, signedRat_div_nat, hunits, Int.cast_add, add_div, ← hround] at h
  rwa [f64Rat_eq_units_div, f64Rat_eq_units_div]

theorem f64Rat_f64Negate (x : F64) : f64Rat (f64Negate x) = -f64Rat x := by
  rw [f64Rat_eq_units_div, f64Rat_eq_units_div, f64Units_f64Negate, Int.cast_neg, neg_div]

/-- The product of finite values, at once (R13). -/
theorem f64Mul_finite {x y : F64} (hx : isFinite x = true) (hy : isFinite y = true) :
    f64Mul x y =
      round64 (f64Neg x != f64Neg y) (magUnits 52 (f64Mag x) * magUnits 52 (f64Mag y)) one64 := by
  simp [f64Mul, not_isNaN_of_finite hx, not_isNaN_of_finite hy, not_isInf_of_finite hx, not_isInf_of_finite hy]

/-- The quotient of finite values with a divisor other than 0, at once (R13). -/
theorem f64Div_finite {x y : F64} (hx : isFinite x = true) (hy : isFinite y = true) (h0 : f64Mag y ≠ 0) :
    f64Div x y =
      round64 (f64Neg x != f64Neg y) (magUnits 52 (f64Mag x) * one64) (magUnits 52 (f64Mag y)) := by
  simp [f64Div, not_isNaN_of_finite hx, not_isNaN_of_finite hy, not_isInf_of_finite hx, not_isInf_of_finite hy, h0]

theorem roundedTo64_f64Add {x y : F64} (hx : isFinite x = true) (hy : isFinite y = true) :
    RoundedTo64 (f64Rat x + f64Rat y) (f64Add x y) := by
  rw [f64Add_finite hx hy]
  exact roundedTo64_addFinite x y

theorem roundedTo64_f64Sub {x y : F64} (hx : isFinite x = true) (hy : isFinite y = true) :
    RoundedTo64 (f64Rat x - f64Rat y) (f64Sub x y) := by
  rw [f64Sub_finite hx hy, sub_eq_add_neg, ← f64Rat_f64Negate]
  exact roundedTo64_addFinite x (f64Negate y)

theorem roundedTo64_f64Mul {x y : F64} (hx : isFinite x = true) (hy : isFinite y = true) :
    RoundedTo64 (f64Rat x * f64Rat y) (f64Mul x y) := by
  rw [f64Mul_finite hx hy, f64Rat_eq_formatRat, f64Rat_eq_formatRat, formatRat, formatRat, signedRat_mul,
    div_mul_div_comm, ← Nat.cast_mul]
  exact roundedTo64_round64 _ _ one64_pos

theorem roundedTo64_f64Div {x y : F64} (hx : isFinite x = true) (hy : isFinite y = true) (h0 : f64Rat y ≠ 0) :
    RoundedTo64 (f64Rat x / f64Rat y) (f64Div x y) := by
  have hmag : f64Mag y ≠ 0 := fun h => h0 (by
    rw [f64Rat_eq_formatRat, formatRat, h, magUnits_zero, Nat.cast_zero, zero_div, signedRat_zero])
  have hunits : 0 < magUnits 52 (f64Mag y) := (magUnits_lt (fb := 52) (a := 0)).2 (Nat.pos_of_ne_zero hmag)
  have hone : (one64 : Rat) ≠ 0 := Nat.cast_ne_zero.2 one64_pos.ne'
  have h := roundedTo64_round64 (f64Neg x != f64Neg y) (magUnits 52 (f64Mag x) * one64) hunits
  rw [Nat.cast_mul, mul_div_mul_right _ _ hone] at h
  rwa [f64Div_finite hx hy hmag, f64Rat_eq_formatRat, f64Rat_eq_formatRat, formatRat, formatRat, signedRat_div,
    div_div_div_cancel_right₀ hone]

/-! ### An operation on what is loaded -/

/-- An instruction whose operation succeeds on what is loaded gives its result. -/
theorem gives_of_operation {rom : Rom} {s : State} {o : Operands} {rest : List Request} {i : Instr} {r : Result}
    (h : LoadedWith rom s o rest) (hop : operation i rom o = .ok r) : Gives i s rest r := by
  obtain ⟨rfl, a, hreq, rfl⟩ := h
  exact exec_completes hreq hop

/-- An instruction whose operation fails on what is loaded is refused with its status. -/
theorem refuses_of_operation {rom : Rom} {s : State} {o : Operands} {rest : List Request} {i : Instr} {f : Failure}
    (h : LoadedWith rom s o rest) (hop : operation i rom o = .error f) : Refuses i s rest f := by
  obtain ⟨rfl, a, hreq, rfl⟩ := h
  exact exec_fails hreq hop

/-! ### The tables (R23, R161) -/

theorem pRange_bounds : f64Rat pRange.lo = -25/2 ∧ f64Rat pRange.hi = 25/2 := by decide +kernel

theorem vRange_bounds : f64Rat vRange.lo = -30 ∧ f64Rat vRange.hi = 30 := by decide +kernel

theorem tRange_bounds : f64Rat tRange.lo = -12 ∧ f64Rat tRange.hi = 12 := by decide +kernel

theorem kpRange_bounds : f64Rat kpRange.lo = 0 ∧ f64Rat kpRange.hi = 500 := by decide +kernel

theorem kdRange_bounds : f64Rat kdRange.lo = 0 ∧ f64Rat kdRange.hi = 5 := by decide +kernel

theorem iRange_bounds : f64Rat iRange.lo = -23 ∧ f64Rat iRange.hi = 23 := by decide +kernel

theorem tempDiv_ten : isFinite tempDiv = true ∧ f64Rat tempDiv = 10 := by decide +kernel

/-- The bounds of the ROM ranges are finite (R23), since the quantizer admits the ranges. -/
theorem romRange_finite {r : Range} (h : r ∈ [pRange, vRange, tRange, kpRange, kdRange, iRange]) :
    isFinite r.lo = true ∧ isFinite r.hi = true := by
  obtain ⟨hlo, hhi, -⟩ := badRange_eq_false.1 (badRange_rom r h)
  exact ⟨hlo, hhi⟩

theorem regIndex_lawful : regIndex.lawful = true := by decide

end Sys2Proof.Proofs
end

section
/-! The statements on the arithmetic of R13, the bit range of R125 and the reset of R34. -/

namespace Sys2Proof.Proofs

open Sys2Proof.Machine Sys2Proof.Claims

/-- Settles O52: the channels and the tables as written out, the ranges by their bounds. -/
theorem resetHoldsTheTables : Obligations.ResetHoldsTheTables :=
  ⟨rfl, rfl, rfl, rfl, rfl, rfl, rfl, pRange_bounds.1, pRange_bounds.2, vRange_bounds.1, vRange_bounds.2,
    tRange_bounds.1, tRange_bounds.2, kpRange_bounds.1, kpRange_bounds.2, kdRange_bounds.1, kdRange_bounds.2,
    iRange_bounds.1, iRange_bounds.2, fun _ h => romRange_finite h, tempDiv_ten.1, tempDiv_ten.2, rfl, rfl, rfl, rfl,
    regIndex_lawful⟩

/-- Settles O11: each operation is one `round64` of the exact result in units. -/
theorem binaryOpsRoundToNearest : Obligations.BinaryOpsRoundToNearest := fun _ _ hx hy =>
  ⟨roundedTo64_f64Add hx hy, roundedTo64_f64Sub hx hy, roundedTo64_f64Mul hx hy, roundedTo64_f64Div hx hy⟩

/-- Settles O12: narrowing rounds the units of a binary64 once, widening multiplies those of a binary32. -/
theorem conversionsRoundAndWiden : Obligations.ConversionsRoundAndWiden :=
  ⟨fun _ hx => roundedTo32_toF32 hx, fun _ hy => f64Rat_fromF32 hy⟩

/-- Settles O17, by what the bit range and its check give (R125). -/
theorem xbitsExtractsTheRange : Obligations.XbitsExtractsTheRange := by
  intro s o rest hs
  constructor
  · intro hle htop
    refine ⟨bitRange o.bits o.bitLo.toNat o.bitHi.toNat, gives_of_operation hs ?_, bitRange_toNat _ _ _ hle htop⟩
    exact placed_eq_ok.2 ⟨_, extractBits_ok.2 ⟨⟨hle, htop⟩, rfl⟩, rfl⟩
  · intro hbad
    exact refuses_of_operation hs (placed_eq_error.2 (extractBits_error.2 ⟨hbad, rfl⟩))

end Sys2Proof.Proofs
end

section
/-!
SUPPORT. What a step does, said once (R30, R83): with something in flight it gives one response, a function of ROM and
that request alone; with nothing in flight it changes nothing.
-/

namespace Sys2Proof.Proofs

open Sys2Proof.Machine Sys2Proof.Claims

/-- The response an outcome of an operation becomes (R14). -/
def outcomeResponse : Except Failure Result → Response
  | .ok r => .ok r
  | .error f => .fail f

/-- The response of a request: the operation its OPWORD names, on ROM and its operands, or the decoder's failure. -/
def responseOf (rom : Rom) (a : Request) : Response :=
  outcomeResponse (decodeOpword rom a.opword >>= fun op => wordOperation op rom a.operands)

theorem conclude_eq_replied {s : State} {a : Request} {rest : List Request} (h : s.requests = a :: rest)
    (e : Except Failure Result) : conclude s e = replied s rest (outcomeResponse e) := by
  cases e with
  | ok r => simp [complete, answer, replied, outcomeResponse, h]
  | error f => simp [takeFailure, answer, replied, outcomeResponse, h]

/-- A step with a request in flight answers it, and changes nothing else. -/
theorem step_eq_replied {s : State} {a : Request} {rest : List Request} (h : s.requests = a :: rest) :
    step s = .next (replied s rest (responseOf s.rom a)) := by
  rw [step_cons h, conclude_eq_replied h, responseOf]

theorem step_idle {s : State} (h : s.requests = []) : step s = .next s := by
  rw [step, inFlight_eq_none.2 h]

/-- Everything a step can do. -/
theorem step_next_cases {s t : State} (h : step s = .next t) :
    (s.requests = [] ∧ t = s) ∨
      ∃ a rest, s.requests = a :: rest ∧ t = replied s rest (responseOf s.rom a) := by
  cases hreq : s.requests with
  | nil =>
    rw [step_idle hreq] at h
    exact .inl ⟨rfl, (Host.Outcome.next.inj h).symm⟩
  | cons a rest =>
    rw [step_eq_replied hreq] at h
    exact .inr ⟨a, rest, rfl, (Host.Outcome.next.inj h).symm⟩

/-- A legal OPWORD of the table is performed as `exec` of its row. -/
theorem step_row {s : State} {a : Request} {rest : List Request} {i : Instr} (h : s.requests = a :: rest)
    (hd : decodeOpword s.rom a.opword = .ok (.row i)) : step s = exec i s := by
  rw [step, inFlight_of_requests h]
  dsimp only
  rw [hd]
  rfl

/-- No transaction writes ROM (R28). -/
theorem transact_keeps_rom {s t : State} {op : Operands → Except Failure Result} (h : transact s op = .next t) :
    t.rom = s.rom := by
  rcases transact_cases s op with ⟨-, e⟩ | ⟨_, _, _, -, -, e⟩ | ⟨_, _, _, -, -, e⟩ <;>
    exact Host.Outcome.next.inj (e.symm.trans h) ▸ rfl

/-- The model's `respond` is the response that a step enters for the request (R53). -/
theorem respond_eq (rom : Rom) (a : Request) : respond rom a = some (responseOf rom a) := by
  rw [respond, step_eq_replied rfl]
  rfl

end Sys2Proof.Proofs
end

section
/-!
SUPPORT. The form of every response under the standard tables (R32, R60, R63, R122, R231): each operation gives
well-formed results only, shown operation by operation, and an OPWORD names rows of the table only.
-/

namespace Sys2Proof.Proofs

open Sys2Proof.Machine Sys2Proof.Claims

/-! ### Outcomes all of whose values have a property -/

/-- Every value the outcome can give has the property; a failure gives none. -/
def Yields {α : Type} (p : α → Bool) (e : Except Failure α) : Prop := ∀ a, e = .ok a → p a = true

theorem yields_ok {α : Type} {p : α → Bool} {a : α} (h : p a = true) : Yields p (.ok a) := by
  rintro _ ⟨⟩
  exact h

theorem yields_error {α : Type} {p : α → Bool} (f : Failure) : Yields p (.error f) := nofun

theorem yields_ite {α : Type} {p : α → Bool} {c : Prop} [Decidable c] {x y : Except Failure α} (hx : Yields p x)
    (hy : Yields p y) : Yields p (if c then x else y) := by
  split
  · exact hx
  · exact hy

theorem yields_bind {α β : Type} {p : α → Bool} {q : β → Bool} {x : Except Failure α} {f : α → Except Failure β}
    (hx : Yields p x) (hf : ∀ a, p a = true → Yields q (f a)) : Yields q (x >>= f) := by
  intro b h
  obtain ⟨a, ha, hb⟩ := bind_eq_ok.1 h
  exact hf a (hx a ha) b hb

/-- Where the values of the first outcome do not matter. -/
theorem yields_then {α β : Type} {q : β → Bool} {x : Except Failure α} {f : α → Except Failure β}
    (hf : ∀ a, Yields q (f a)) : Yields q (x >>= f) :=
  yields_bind (p := fun _ => true) (fun _ _ => rfl) fun a _ => hf a

theorem yields_placed {α : Type} {p : α → Bool} {place : α → Result} {e : Except Failure α} (he : Yields p e)
    (hp : ∀ a, p a = true → (place a).wf = true) : Yields Result.wf (placed place e) := by
  intro r h
  obtain ⟨a, ha, rfl⟩ := placed_eq_ok.1 h
  exact hp a (he a ha)

/-- A result whose form says all: any value placed so is well-formed. -/
theorem yields_placed_any {α : Type} {place : α → Result} (e : Except Failure α) (hp : ∀ a, (place a).wf = true) :
    Yields Result.wf (placed place e) :=
  yields_placed (p := fun _ => true) (fun _ _ => rfl) fun a _ => hp a

/-! ### The quantizer, the identifier and the frame (R60, R63, R103, R122) -/

/-- Under the standard parameters QDEC gives a binary64 (R103). -/
theorem quantDecode_yields_num {w : Nat} (hw : w = 1 ∨ w = 2) (raw : Nat) (lo hi : F64) :
    Yields (fun q => (Result.quantity q).wf) (quantDecode standardRom w raw lo hi) := by
  rw [quantDecode_standard hw]
  exact yields_ite (yields_error _) (yields_ite (yields_error _) (yields_ok rfl))

/-- The word PACK writes ends in the marker (R60). -/
theorem identifierWord_marker (mode : U8) (aux : U16) (node : U8) :
    (identifierWord standardRom mode aux node).extractLsb' 0 3 = 0b100 := by
  apply BitVec.eq_of_toNat_eq
  rw [identifierWord_eq, BitVec.extractLsb'_toNat, canidOf_toNat, Nat.shiftRight_zero]
  exact Nat.mul_add_mod_self_right _ 8 4

theorem packId_yields_marker (mode : U8) (aux : U16) (node : U8) :
    Yields (fun w => (Result.identifier w).wf) (packId standardRom mode aux node) := by
  rw [packId_standard]
  exact yields_ite (yields_error _) (yields_ok (beq_iff_eq.2 (identifierWord_marker mode aux node)))

/-- An unpacked mode has five bits (R122). -/
theorem unpackMode_le (id : U32) : (unpackMode standardRom id).toNat ≤ 31 := by
  have := id.isLt
  rw [unpackMode_toNat]
  omega

theorem frameBytes_wf {pl : List Byte} (id : U32) (h : pl.length = 8) :
    frameWf (frameBytes standardRom id pl) = true := by
  match pl, h with
  | [_, _, _, _, _, _, _, _], _ => rfl

theorem padPayload_length {p : List Byte} (h : p.length ≤ 8) : (padPayload standardRom p).length = 8 := by
  rw [padPayload, List.length_append, List.length_replicate]
  exact Nat.add_sub_cancel' h

theorem wrapFrame_yields_wf (mode : U8) (aux : U16) (node : U8) (p : List Byte) :
    Yields frameWf (wrapFrame standardRom mode aux node p) := by
  intro b h
  obtain ⟨-, hlen, rfl⟩ := wrapFrame_ok.1 h
  exact frameBytes_wf _ (padPayload_length hlen)

theorem wrapBuilt_yields_wf (built : Except Failure RawMessage) :
    Yields frameWf (wrapBuilt standardRom built) :=
  yields_then fun _ => wrapFrame_yields_wf _ _ _ _

theorem unwrapFrame_yields_wf (data : List Byte) :
    Yields RawMessage.wf (unwrapFrame standardRom data) := by
  intro m h
  obtain ⟨-, rfl⟩ := unwrapFrame_ok h
  exact decide_eq_true (unpackMode_le _)

/-! ### The catalogue (R163, R164) -/

theorem lookupIndex_yields_entry (index : U16) :
    Yields regcat.contains (lookupIndex standardRom index) := fun _ h =>
  List.contains_iff_mem.2 (lookupIndex_ok h).1

theorem lookupName_yields_entry (name : String) :
    Yields regcat.contains (lookupName standardRom name) := fun _ h =>
  List.contains_iff_mem.2 (lookupName_ok h).1

/-! ### The builders (R191 to R198): the mode of a built message is the builder's own -/

section Builders

variable (rom : Rom) (o : Operands)

theorem buildIdQuery_yields_wf : Yields RawMessage.wf (buildIdQuery rom o) :=
  yields_then fun _ => yields_ok rfl

theorem buildControl_yields_wf : Yields RawMessage.wf (buildControl rom o) :=
  yields_then fun _ => yields_then fun _ => yields_then fun _ => yields_ok rfl

theorem buildEnable_yields_wf : Yields RawMessage.wf (buildEnable rom o) :=
  yields_then fun _ => yields_ok rfl

theorem buildDisable_yields_wf : Yields RawMessage.wf (buildDisable rom o) :=
  yields_then fun _ => yields_ok rfl

theorem buildSetZero_yields_wf : Yields RawMessage.wf (buildSetZero rom o) :=
  yields_then fun _ => yields_ok rfl

theorem buildSetId_yields_wf : Yields RawMessage.wf (buildSetId rom o) :=
  yields_then fun _ => yields_ok rfl

theorem buildReadParam_yields_wf : Yields RawMessage.wf (buildReadParam rom o) :=
  yields_then fun _ => yields_then fun _ => yields_ok rfl

theorem buildWriteParam_yields_wf : Yields RawMessage.wf (buildWriteParam rom o) :=
  yields_then fun _ => yields_then fun _ => yields_ok rfl

theorem wordControl_yields_wf (aux : U16) (node : U8) :
    Yields RawMessage.wf (wordControl rom aux node o) :=
  yields_then fun _ => yields_ok rfl

end Builders

/-! ### The parsers (R220 to R235) -/

theorem parseStatus_yields_wf (m : RawMessage) :
    Yields (fun r => (TypedResponse.status r).wf) (parseStatus standardRom m) := by
  rw [parseStatus_standard]
  exact yields_ok rfl

theorem parseParam_yields_wf (m : RawMessage) :
    Yields (fun r => (TypedResponse.paramRead r).wf) (parseParam standardRom m) := by
  rcases parseParam_cases m with ⟨e, he, -, hp⟩ | ⟨-, hp⟩ <;> rw [hp]
  · exact yields_ok (List.contains_iff_mem.2 he)
  · exact yields_error _

/-- The fault flags are there exactly when there is a fault (R231). -/
theorem faultFlagsIfAny_isSome (rom : Rom) (ec : U32) : (faultFlagsIfAny rom ec).isSome = hasFault ec := by
  rw [faultFlagsIfAny]
  cases hasFault ec <;> rfl

theorem parseFault_wf (rom : Rom) (m : RawMessage) : (TypedResponse.fault (parseFault rom m)).wf = true :=
  Bool.and_eq_true_iff.2 ⟨beq_iff_eq.2 rfl, beq_iff_eq.2 (faultFlagsIfAny_isSome rom _)⟩

theorem parseMessage_yields_wf (m : RawMessage) : Yields TypedResponse.wf (parseMessage standardRom m) := by
  rcases parseMessage_cases m with ⟨-, -, e⟩ | ⟨-, -, e⟩ | ⟨-, r, hr, e⟩ | ⟨-, r, hr, e⟩ | ⟨-, -, e⟩ | ⟨-, e⟩ | ⟨-, e⟩
    <;> rw [e]
  · exact yields_ok rfl
  · exact yields_error _
  · exact yields_ok (parseStatus_yields_wf m r hr)
  · exact yields_ok (parseParam_yields_wf m r hr)
  · exact yields_error _
  · exact yields_ok (parseFault_wf _ m)
  · exact yields_error _

theorem receive_yields_wf (data : List Byte) : Yields TypedResponse.wf (receive standardRom data) :=
  yields_then fun m => parseMessage_yields_wf m

/-! ### Every instruction, and every OPWORD -/

/-- Every result of an instruction is well-formed under the standard tables. -/
theorem operation_yields_wf (i : Instr) (o : Operands) :
    Yields Result.wf (operation i standardRom o) := by
  cases i with
  | qenc1 | qenc2 | xbits | renc | rdec => exact yields_placed_any _ fun _ => rfl
  | regRunMode | regIqRef | regSpdRef | regLimitTorque | regCurKp | regCurKi | regCurFiltGain | regLocRef | regLimitSpd
  | regLimitCur | regMechPos | regIqf | regMechVel | regVbus | regRotationCount =>
    exact yields_placed_any _ fun _ => rfl
  | qdec1 => exact yields_placed (quantDecode_yields_num (.inl rfl) _ _ _) fun _ h => h
  | qdec2 => exact yields_placed (quantDecode_yields_num (.inr rfl) _ _ _) fun _ h => h
  | qtemp => exact yields_ok rfl
  | pack => exact yields_placed (packId_yields_marker _ _ _) fun _ h => h
  | unpack => exact yields_ok (decide_eq_true (unpackMode_le _))
  | wrap => exact yields_placed (wrapFrame_yields_wf _ _ _ _) fun _ h => h
  | unwrap => exact yields_placed (unwrapFrame_yields_wf _) fun _ h => h
  | rlook => exact yields_placed (lookupIndex_yields_entry _) fun _ h => h
  | rlookn => exact yields_placed (lookupName_yields_entry _) fun _ h => h
  | build0 | msgIdQuery => exact yields_placed (buildIdQuery_yields_wf _ _) fun _ h => h
  | build1 => exact yields_placed (buildControl_yields_wf _ _) fun _ h => h
  | msgControlCommand => exact yields_placed (wordControl_yields_wf _ _ _ _) fun _ h => h
  | build3 | msgEnable => exact yields_placed (buildEnable_yields_wf _ _) fun _ h => h
  | build4 | msgDisable => exact yields_placed (buildDisable_yields_wf _ _) fun _ h => h
  | build6 | msgSetZero => exact yields_placed (buildSetZero_yields_wf _ _) fun _ h => h
  | build7 | msgSetId => exact yields_placed (buildSetId_yields_wf _ _) fun _ h => h
  | build17 | msgReadParam => exact yields_placed (buildReadParam_yields_wf _ _) fun _ h => h
  | build18 | msgWriteParam => exact yields_placed (buildWriteParam_yields_wf _ _) fun _ h => h
  | tx0 | tx1 | tx3 | tx4 | tx6 | tx7 | tx17 | tx18 => exact yields_placed (wrapBuilt_yields_wf _) fun _ h => h
  | parse | msgStatusResponse | msgIdResponse | msgParamReadResponse =>
    exact yields_placed (parseMessage_yields_wf _) fun _ h => h
  | msgFaultResponse aux node =>
    exact yields_placed (parseMessage_yields_wf (wordMessage 21 aux node o)) fun _ h => h
  | rx => exact yields_placed (receive_yields_wf _) fun _ h => h

/-- The operation is an instruction of the table, not a width without a row. -/
def isRow : Operation → Bool
  | .row _ => true
  | .qencWidth _ | .qdecWidth _ => false

theorem selZero_yields_row (sel : U8) (i : Instr) : Yields isRow (selZero sel i) := fun _ h =>
  (selZero_ok.1 h).2 ▸ rfl

/-- At the standard widths QENC and QDEC have a row for every width that is not refused (R81, R83). -/
theorem selWidth_yields_row (sel : U8) (one two : Instr) (other : U8 → Operation) :
    Yields isRow (selWidth standardRom sel one two other) := by
  by_cases h : sel.toNat ∈ standardRom.qwidths
  · have h12 : sel = 1 ∨ sel = 2 := by
      simpa [standardRom, ← BitVec.toNat_inj] using h
    rw [selWidth_ok h]
    rcases h12 with rfl | rfl
    · exact yields_ok rfl
    · exact yields_ok rfl
  · rw [selWidth_error h]
    exact yields_error _

theorem selBuild_yields_row (sel : U8) : Yields isRow (selBuild sel) := by
  intro _ h
  obtain ⟨i, rfl, -⟩ := selBuild_ok h
  rfl

theorem selTx_yields_row (sel : U8) : Yields isRow (selTx sel) := by
  intro _ h
  obtain ⟨i, rfl, -⟩ := selTx_ok h
  rfl

/-- At the standard parameters every legal OPWORD is a row of the table (R81, R89), one arm for each FUNC. -/
theorem decodeOpword_yields_row (w : U16) : Yields isRow (decodeOpword standardRom w) :=
  yields_ite (selWidth_yields_row _ _ _ _) <| yields_ite (selWidth_yields_row _ _ _ _) <|
  yields_ite (selZero_yields_row _ _) <| yields_ite (selZero_yields_row _ _) <| yields_ite (selZero_yields_row _ _) <|
  yields_ite (selZero_yields_row _ _) <| yields_ite (selZero_yields_row _ _) <| yields_ite (selZero_yields_row _ _) <|
  yields_ite (selZero_yields_row _ _) <| yields_ite (selZero_yields_row _ _) <| yields_ite (selZero_yields_row _ _) <|
  yields_ite (selZero_yields_row _ _) <| yields_ite (selBuild_yields_row _) <| yields_ite (selZero_yields_row _ _) <|
  yields_ite (selTx_yields_row _) <| yields_ite (selZero_yields_row _ _) <| yields_error _

theorem wordOperation_yields_wf {op : Operation} (h : isRow op = true) (o : Operands) :
    Yields Result.wf (wordOperation op standardRom o) := by
  cases op with
  | row i => exact operation_yields_wf i o
  | qencWidth w => cases h
  | qdecWidth w => cases h

theorem outcomeResponse_wf {e : Except Failure Result} (h : Yields Result.wf e) : (outcomeResponse e).wf = true := by
  cases e with
  | ok r => exact h r rfl
  | error f => rfl

/-- Every response under the standard tables is well-formed. -/
theorem responseOf_wf (a : Request) : (responseOf standardRom a).wf = true :=
  outcomeResponse_wf (yields_bind (decodeOpword_yields_row a.opword) fun _ h => wordOperation_yields_wf h a.operands)

/-- A reply that is well-formed keeps the invariant. -/
theorem inv_replied {s : State} {r : Response} (rest : List Request) (hs : s.inv) (hr : r.wf = true) :
    (replied s rest r).inv := by
  obtain ⟨hrom, hall⟩ := hs
  refine ⟨hrom, ?_⟩
  rw [replied, List.all_append, hall, List.all_cons, hr]
  rfl

end Sys2Proof.Proofs
end

section
/-!
SUPPORT. QDEC in binary64 over a range whose width is exact stays in the range (R103): a value rounded to nearest stays
between two finite values that its exact value lies between, so each of the three roundings keeps its bounds.
-/

namespace Sys2Proof.Proofs

open Sys2Proof.Machine Sys2Proof.Claims

/-! ### Finite values as rational numbers -/

/-- The order of finite values is that of their rational numbers. -/
theorem f64Le_iff_f64Rat {x y : F64} (hx : isFinite x = true) (hy : isFinite y = true) :
    f64Le x y = true ↔ f64Rat x ≤ f64Rat y := by
  rw [f64Le_finite hx hy, f64Rat_eq_units_div, f64Rat_eq_units_div,
    div_le_div_iff_of_pos_right (Nat.cast_pos.2 one64_pos), Int.cast_le]

/-- No finite value reaches the magnitudes that round to the infinity. -/
theorem abs_f64Rat_lt {x : F64} (hx : isFinite x = true) : |f64Rat x| < overflow64 := by
  have hmag : roundMag 52 (magUnits 52 (f64Mag x)) 1 = f64Mag x := by
    simpa using roundMag_magUnits 52 (f64Mag x) Nat.one_pos
  have hlt : roundMag 52 (magUnits 52 (f64Mag x)) 1 < infMag64 := by
    rw [hmag]
    exact of_decide_eq_true hx
  rw [roundMag_lt_iff_rat (by decide) _ Nat.one_pos one64_pos (by decide) rfl, ← overflow64_eq, Nat.cast_one,
    one_mul] at hlt
  rwa [f64Rat_eq_formatRat, formatRat, abs_signedRat,
    abs_of_nonneg (div_nonneg (Nat.cast_nonneg _) (Nat.cast_nonneg _))]

/-- A natural number below `2^53` is exact (R13). -/
theorem f64Rat_f64OfNat {n : Nat} (h : n < 2 ^ 53) : isFinite (f64OfNat n) = true ∧ f64Rat (f64OfNat n) = n := by
  obtain ⟨hfin, -, hunits⟩ := f64OfNat_exact h
  have hone : (one64 : Rat) ≠ 0 := Nat.cast_ne_zero.2 one64_pos.ne'
  refine ⟨hfin, ?_⟩
  rw [f64Rat_eq_units_div, hunits, Int.cast_mul, Int.cast_natCast, Int.cast_natCast, mul_div_cancel_right₀ _ hone]

/-! ### Rounding between two finite values -/

/-- A number between two finite values rounds to a value between them: otherwise the bound it passes would be nearer. -/
theorem roundedTo64_between {u : Rat} {x a b : F64} (h : RoundedTo64 u x) (ha : isFinite a = true)
    (hb : isFinite b = true) (hau : f64Rat a ≤ u) (hub : u ≤ f64Rat b) :
    isFinite x = true ∧ f64Rat a ≤ f64Rat x ∧ f64Rat x ≤ f64Rat b := by
  have hlt : absQ u < overflow64 := by
    rw [absQ_eq_abs]
    exact (abs_le_max_abs_abs hau hub).trans_lt (max_lt (abs_f64Rat_lt ha) (abs_f64Rat_lt hb))
  obtain ⟨hfin, hnear⟩ := h.1 hlt
  have nearA := (hnear a ha).1
  have nearB := (hnear b hb).1
  rw [absQ_eq_abs, absQ_eq_abs] at nearA nearB
  refine ⟨hfin, ?_, ?_⟩
  · by_contra hlow
    rw [abs_of_neg (by linarith), abs_of_nonpos (by linarith)] at nearA
    linarith
  · by_contra hhigh
    rw [abs_of_pos (by linarith), abs_of_nonneg (by linarith)] at nearB
    linarith

/-! ### The steps of QDEC (R103) -/

/-- The quotient `raw /64 M` lies between 0 and 1. -/
theorem decodeRatio_between {raw top : Nat} (hraw : raw ≤ top) (h0 : 0 < top) (htop : top < 2 ^ 53) :
    isFinite (f64Div (f64OfNat raw) (f64OfNat top)) = true ∧
      0 ≤ f64Rat (f64Div (f64OfNat raw) (f64OfNat top)) ∧ f64Rat (f64Div (f64OfNat raw) (f64OfNat top)) ≤ 1 := by
  obtain ⟨rawFin, rawVal⟩ := f64Rat_f64OfNat (hraw.trans_lt htop)
  obtain ⟨topFin, topVal⟩ := f64Rat_f64OfNat htop
  obtain ⟨zeroFin, zeroVal⟩ := f64Rat_f64OfNat (n := 0) (by decide)
  obtain ⟨oneFin, oneVal⟩ := f64Rat_f64OfNat (n := 1) (by decide)
  have hpos : (0 : Rat) < top := Nat.cast_pos.2 h0
  have hround := roundedTo64_f64Div rawFin topFin (topVal ▸ hpos.ne')
  rw [rawVal, topVal] at hround
  rw [Nat.cast_zero] at zeroVal
  rw [Nat.cast_one] at oneVal
  rw [← zeroVal, ← oneVal]
  refine roundedTo64_between hround zeroFin oneFin ?_ ?_
  · rw [zeroVal]
    exact div_nonneg (Nat.cast_nonneg _) hpos.le
  · rw [oneVal]
    exact div_le_one_of_le₀ (Nat.cast_le.2 hraw) hpos.le

/-- Where `hi -64 lo` is exact, the value of QDEC lies between `lo` and `hi` (R103). -/
theorem decodeBinary64_between {w raw : Nat} {lo hi : F64} (hw : 0 < maxCode w) (hw53 : maxCode w < 2 ^ 53)
    (hraw : raw ≤ maxCode w) (hlo : isFinite lo = true) (hhi : isFinite hi = true) (hle : f64Rat lo ≤ f64Rat hi)
    (hwidth : isFinite (f64Sub hi lo) = true) (hexact : f64Rat (f64Sub hi lo) = f64Rat hi - f64Rat lo) :
    isFinite (decodeBinary64 w raw lo hi) = true ∧ f64Rat lo ≤ f64Rat (decodeBinary64 w raw lo hi) ∧
      f64Rat (decodeBinary64 w raw lo hi) ≤ f64Rat hi := by
  obtain ⟨ratioFin, ratio0, ratio1⟩ := decodeRatio_between hraw hw hw53
  obtain ⟨zeroFin, zeroVal⟩ := f64Rat_f64OfNat (n := 0) (by decide)
  rw [Nat.cast_zero] at zeroVal
  have width0 : 0 ≤ f64Rat (f64Sub hi lo) := by linarith
  obtain ⟨partFin, part0, partW⟩ := roundedTo64_between (roundedTo64_f64Mul ratioFin hwidth) zeroFin hwidth
    (zeroVal.trans_le (mul_nonneg ratio0 width0)) (mul_le_of_le_one_left width0 ratio1)
  exact roundedTo64_between (roundedTo64_f64Add partFin hlo) hlo hhi (by linarith) (by linarith)

/-! ### The ROM ranges (R23) -/

/-- The width of every ROM range is exact in binary64. -/
theorem romRange_width_exact : ∀ r ∈ [pRange, vRange, tRange, kpRange, kdRange, iRange],
    isFinite (f64Sub r.hi r.lo) = true ∧ f64Rat (f64Sub r.hi r.lo) = f64Rat r.hi - f64Rat r.lo := by
  decide +kernel

/-- QDEC over a ROM range, at either width, gives a value of the range. -/
theorem quantDecode_romRange {r : Range} (hr : r ∈ [pRange, vRange, tRange, kpRange, kdRange, iRange]) {w raw : Nat}
    (hw : w = 1 ∨ w = 2) (hraw : raw ≤ maxCode w) :
    ∃ v, quantDecode standardRom w raw r.lo r.hi = .ok (.num v) ∧ f64Le r.lo v = true ∧ f64Le v r.hi = true := by
  obtain ⟨hlo, hhi, hlt⟩ := badRange_eq_false.1 (badRange_rom r hr)
  obtain ⟨hwidth, hexact⟩ := romRange_width_exact r hr
  have hle : f64Rat r.lo ≤ f64Rat r.hi := by
    rw [← f64Le_iff_f64Rat hlo hhi, f64Le_finite hlo hhi]
    exact ((f64Lt_finite hlo hhi).1 hlt).le
  have hcode : 0 < maxCode w ∧ maxCode w < 2 ^ 53 := by
    rcases hw with rfl | rfl <;> decide
  obtain ⟨hfin, hlow, hhigh⟩ := decodeBinary64_between hcode.1 hcode.2 hraw hlo hhi hle hwidth hexact
  refine ⟨decodeBinary64 w raw r.lo r.hi, ?_, (f64Le_iff_f64Rat hlo hfin).2 hlow, (f64Le_iff_f64Rat hfin hhi).2 hhigh⟩
  rw [quantDecode_standard hw, badRange_rom r hr, if_neg Bool.false_ne_true, if_neg (Nat.not_lt.2 hraw)]

/-- The same of an instruction that decodes with QDEC, on what is loaded. -/
theorem gives_quantity_romRange {s : State} {o : Operands} {rest : List Request} {r : Range} {i : Instr} {w : Nat}
    (hs : Loaded s o rest) (hr : r ∈ [pRange, vRange, tRange, kpRange, kdRange, iRange]) (hlo : o.lo = r.lo)
    (hhi : o.hi = r.hi) (hw : w = 1 ∨ w = 2)
    (hop : operation i standardRom o = placed .quantity (quantDecode standardRom w o.raw.toNat o.lo o.hi))
    (hraw : o.raw.toNat ≤ maxCode w) :
    ∃ v, Gives i s rest (.quantity (.num v)) ∧ f64Le r.lo v = true ∧ f64Le v r.hi = true := by
  obtain ⟨v, hv, hbounds⟩ := quantDecode_romRange hr hw hraw
  rw [hlo, hhi, hv] at hop
  exact ⟨v, gives_of_operation hs hop, hbounds⟩

end Sys2Proof.Proofs
end

section
/-! The statements on the machine: its step, its invariant and its runs; and QDEC over the ROM ranges. -/

namespace Sys2Proof.Proofs

open Sys2Proof.Machine Sys2Proof.Claims

/-- Settles O54: a step is idle or enters one response, which is well-formed. -/
theorem stepKeepsTheInvariant : Obligations.StepKeepsTheInvariant := by
  intro s t hs hstep
  rcases step_next_cases hstep with ⟨-, rfl⟩ | ⟨a, rest, -, rfl⟩
  · exact hs
  · obtain ⟨hrom, hall⟩ := hs
    exact inv_replied rest ⟨hrom, hall⟩ (hrom ▸ responseOf_wf a)

/-- Settles O8, by the bounds of QDEC over a range whose width is exact. -/
theorem qdecStaysInTheRomRanges : Obligations.QdecStaysInTheRomRanges := by
  intro s o rest r hs hr hlo hhi
  exact ⟨gives_quantity_romRange hs hr hlo hhi (.inl rfl) rfl, gives_quantity_romRange hs hr hlo hhi (.inr rfl) rfl⟩

/-- Settles O55, by induction on the number of steps. -/
theorem runAnswersEachRequestAlone : Obligations.RunAnswersEachRequestAlone := by
  intro s k hk
  induction k generalizing s with
  | zero => exact ⟨[], by simp [Host.Core.run], rfl⟩
  | succ k ih =>
    cases hreq : s.requests with
    | nil => simp [hreq] at hk
    | cons a rest =>
      have hrest : k ≤ rest.length := by simpa [hreq] using hk
      obtain ⟨rs, hrun, hrs⟩ := ih (replied s rest (responseOf s.rom a)) hrest
      refine ⟨responseOf s.rom a :: rs, ?_, ?_⟩
      · rw [run_next (M := Sys2Proof.core) (step_eq_replied hreq), hrun]
        simp [replied]
      · simpa [respond_eq, replied] using hrs

/-- Settles O49, by the two branches of a step that has decoded the OPWORD. -/
theorem stepRunsTheDecodedInstruction : Obligations.StepRunsTheDecodedInstruction := fun _ _ _ h =>
  ⟨fun _ hd => step_row h hd, fun _ hd => step_illegal h hd⟩

/-- Settles O50. -/
theorem everyRequestGetsOneResponse : Obligations.EveryRequestGetsOneResponse := fun _ =>
  ⟨step_idle, fun _ _ h => ⟨_, step_eq_replied h⟩⟩

/-- Settles O51: neither outcome of a step writes the tables, and every instruction is one transaction. -/
theorem romIsNeverWritten : Obligations.RomIsNeverWritten := by
  intro s t
  constructor
  · intro hstep
    rcases step_next_cases hstep with ⟨-, rfl⟩ | ⟨_, _, -, rfl⟩ <;> rfl
  · intro i hexec
    exact transact_keeps_rom ((exec_eq_transact i s).symm.trans hexec)

/-- Settles O53: the tables are the spec's and the record is empty. -/
theorem invariantHoldsAtReset : Obligations.InvariantHoldsAtReset := ⟨rfl, rfl⟩

end Sys2Proof.Proofs
end

section
/-!
SUPPORT. WRAP's frame in the statements' numbers, byte by byte from the identifier number (R60, R63, R140); and the run
that answers everything in flight, which enters the response of each request by itself (R53).
-/

namespace Sys2Proof.Proofs

open Sys2Proof.Machine Sys2Proof.Claims

/-! ### The frame of WRAP (R63, R140) -/

/-- The identifier word of a mode that fits its five bits is R60's number. -/
theorem identifierWord_toNat {mode : U8} (h : mode.toNat ≤ 31) (aux : U16) (node : U8) :
    (identifierWord standardRom mode aux node).toNat = identifierNumber mode aux node := by
  have hmode : (mode.setWidth 5).toNat = mode.toNat := by
    rw [BitVec.toNat_setWidth]
    exact Nat.mod_eq_of_lt (by omega)
  rw [identifierWord_eq, canidOf_toNat, hmode, identifierNumber]

/-- The model's frame around a word is the statements' frame of its number. -/
theorem frameBytes_eq_frameOf (id : U32) (pl : List Byte) : frameBytes standardRom id pl = frameOf id.toNat pl := by
  have hid : toBE32 id = [byteOf id.toNat 3, byteOf id.toNat 2, byteOf id.toNat 1, byteOf id.toNat 0] := by
    simp only [toBE32, byteOf32_eq, byteOf]
  rw [frameBytes, hid]
  rfl

theorem frameOf_length (id : Nat) (p : List Byte) : (frameOf id p).length = p.length + 9 := by
  simp [frameOf]

/-- WRAP of a mode up to 31 and at most 8 bytes lays out R63's frame around the padded payload. -/
theorem wrapFrame_eq_frameOf {mode : U8} {p : List Byte} (hmode : mode.toNat ≤ 31) (hlen : p.length ≤ 8) (aux : U16)
    (node : U8) : wrapFrame standardRom mode aux node p =
      .ok (frameOf (identifierNumber mode aux node) (padPayload standardRom p)) :=
  wrapFrame_ok.2 ⟨hmode, hlen, by rw [frameBytes_eq_frameOf, identifierWord_toNat hmode]⟩

/-! ### The run that answers everything in flight (R53) -/

/-- As many steps as there are requests in flight answer each of them, by ROM and that request alone. -/
theorem run_answers_all (s : State) : Host.Core.run Sys2Proof.core s.requests.length s =
    .next { rom := s.rom, requests := [], responses := s.responses ++ s.requests.map (responseOf s.rom) } := by
  obtain ⟨rs, hrun, hrs⟩ := runAnswersEachRequestAlone s s.requests.length le_rfl
  have hmap : rs.map some = (s.requests.map (responseOf s.rom)).map some := by
    rw [hrs, List.take_length, List.map_map]
    exact List.map_congr_left fun a _ => respond_eq s.rom a
  have hresponses : rs = s.requests.map (responseOf s.rom) :=
    List.map_injective_iff.2 (Option.some_injective Response) hmap
  rw [hrun, hresponses, List.drop_length]

end Sys2Proof.Proofs
end

section
/-! The statements on WRAP's frame and on the order of requests. -/

namespace Sys2Proof.Proofs

open Sys2Proof.Machine Sys2Proof.Claims

/-- Settles O18: WRAP succeeds with R63's frame, whose payload is padded to 8 bytes. -/
theorem wrapLaysOutTheFrame : Obligations.WrapLaysOutTheFrame := by
  intro s o rest hs hmode hlen
  refine ⟨frameOf (identifierNumber o.commandMode o.auxField o.nodeId) (padPayload standardRom o.wrapPayload),
    gives_of_operation hs (placed_eq_ok.2 ⟨_, wrapFrame_eq_frameOf hmode hlen _ _, rfl⟩), ?_, rfl⟩
  rw [frameOf_length, padPayload_length hlen]

/-- Settles O56: both runs pair each request with its `responseOf`, so the pairs are one map of both channels, and a map
keeps a permutation. -/
theorem orderOfRequestsDoesNotMatter : Obligations.OrderOfRequestsDoesNotMatter := by
  intro s t u v hrom hperm hs ht hu hv
  rw [run_answers_all, hs, List.nil_append] at hu
  rw [run_answers_all, ht, List.nil_append, ← hrom] at hv
  obtain rfl := Host.Outcome.next.inj hu
  obtain rfl := Host.Outcome.next.inj hv
  have hpairs : (s.requests.zip (s.requests.map (responseOf s.rom))).Perm
      (t.requests.zip (t.requests.map (responseOf s.rom))) := by
    rw [← List.map_prod_left_eq_zip, ← List.map_prod_left_eq_zip]
    exact hperm.map _
  exact ⟨List.length_map _, List.length_map _, hpairs, rfl, rfl, rfl⟩

end Sys2Proof.Proofs
end

section
/-!
SUPPORT. The words of the table and the rows they name (R60, R81, R83, R89, R161): what an OPWORD can decode to, the
rows that the two wire formats decode to, and for each format that decode and encode agree.
-/

namespace Sys2Proof.Proofs

open Sys2Proof.Machine Sys2Proof.Claims

/-! ### The fields of an OPWORD (R80) -/

theorem opwordOf_toNat (func sel : U8) : (opwordOf func sel).toNat = func.toNat * 256 + sel.toNat := by
  rw [opwordOf, BitVec.toNat_append, ← Nat.shiftLeft_add_eq_or_of_lt sel.isLt, Nat.shiftLeft_eq]

theorem opwordFunc_toNat (w : U16) : (opwordFunc w).toNat = w.toNat / 256 := by
  have := w.isLt
  rw [opwordFunc, BitVec.extractLsb'_toNat, Nat.shiftRight_eq_div_pow]
  omega

theorem opwordSel_toNat (w : U16) : (opwordSel w).toNat = w.toNat % 256 := by
  rw [opwordSel, BitVec.extractLsb'_toNat, Nat.shiftRight_zero]

@[simp] theorem opwordFunc_opwordOf (func sel : U8) : opwordFunc (opwordOf func sel) = func := by
  have := sel.isLt
  apply BitVec.eq_of_toNat_eq
  rw [opwordFunc_toNat, opwordOf_toNat]
  omega

@[simp] theorem opwordSel_opwordOf (func sel : U8) : opwordSel (opwordOf func sel) = sel := by
  have := sel.isLt
  apply BitVec.eq_of_toNat_eq
  rw [opwordSel_toNat, opwordOf_toNat]
  omega

/-- FUNC of an OPWORD as the statements write it. -/
theorem opwordFunc_eq_iff {w : U16} {func : U8} : opwordFunc w = func ↔ w.toNat / 256 = func.toNat := by
  rw [← BitVec.toNat_inj, opwordFunc_toNat]

/-! ### What an OPWORD decodes to (R81, R83) -/

/-- The outcome of the decoder for these fields: a row that encodes to them, or IllegalOperation. -/
def NamesRow (func sel : U8) (e : Except Failure Operation) : Prop :=
  (∃ i, e = .ok (.row i) ∧ ∀ r, encode r i = .opword (opwordOf func sel)) ∨ e = .error .illegalOperation

theorem namesRow_selZero {func : U8} {i : Instr} (sel : U8) (h : ∀ r, encode r i = .opword (opwordOf func 0)) :
    NamesRow func sel (selZero sel i) := by
  unfold selZero
  split
  · rename_i h0
    exact .inl ⟨i, rfl, h0 ▸ h⟩
  · exact .inr rfl

theorem selBuild_error {sel : U8} {f : Failure} (h : selBuild sel = .error f) : f = .illegalOperation := by
  unfold selBuild at h
  split_ifs at h
  exact (Except.error.inj h).symm

theorem selTx_error {sel : U8} {f : Failure} (h : selTx sel = .error f) : f = .illegalOperation := by
  unfold selTx at h
  split_ifs at h
  exact (Except.error.inj h).symm

/-- A SEL whose every instruction encodes to it and whose only failure is IllegalOperation. -/
theorem namesRow_of_outcomes {func sel : U8} {e : Except Failure Operation}
    (hok : ∀ op, e = .ok op → ∃ i, op = .row i ∧ ∀ r, encode r i = .opword (opwordOf func sel))
    (herr : ∀ f, e = .error f → f = .illegalOperation) : NamesRow func sel e := by
  cases e with
  | ok op =>
    obtain ⟨i, rfl, hi⟩ := hok op rfl
    exact .inl ⟨i, rfl, hi⟩
  | error f => exact .inr (by rw [herr f rfl])

theorem namesRow_selBuild (sel : U8) : NamesRow 0x40 sel (selBuild sel) :=
  namesRow_of_outcomes (fun _ => selBuild_ok) fun _ => selBuild_error

theorem namesRow_selTx (sel : U8) : NamesRow 0x50 sel (selTx sel) :=
  namesRow_of_outcomes (fun _ => selTx_ok) fun _ => selTx_error

/-- One FUNC of the decoder's chain. -/
theorem namesRow_ite {func sel c : U8} {x y : Except Failure Operation} (hx : NamesRow c sel x)
    (hy : NamesRow func sel y) : NamesRow func sel (if func = c then x else y) := by
  split
  · rename_i hc
    rwa [hc]
  · exact hy

/-- An OPWORD of a FUNC other than QENC's and QDEC's, one arm for each FUNC of R81: it names a row that encodes to it,
or is illegal. -/
theorem decodeOpword_namesRow (rom : Rom) {w : U16} (h1 : opwordFunc w ≠ 0x01) (h2 : opwordFunc w ≠ 0x02) :
    NamesRow (opwordFunc w) (opwordSel w) (decodeOpword rom w) := by
  simp only [decodeOpword, if_neg h1, if_neg h2]
  exact namesRow_ite (namesRow_selZero _ fun _ => rfl) <| namesRow_ite (namesRow_selZero _ fun _ => rfl) <|
    namesRow_ite (namesRow_selZero _ fun _ => rfl) <| namesRow_ite (namesRow_selZero _ fun _ => rfl) <|
    namesRow_ite (namesRow_selZero _ fun _ => rfl) <| namesRow_ite (namesRow_selZero _ fun _ => rfl) <|
    namesRow_ite (namesRow_selZero _ fun _ => rfl) <| namesRow_ite (namesRow_selZero _ fun _ => rfl) <|
    namesRow_ite (namesRow_selZero _ fun _ => rfl) <| namesRow_ite (namesRow_selZero _ fun _ => rfl) <|
    namesRow_ite (namesRow_selBuild _) <| namesRow_ite (namesRow_selZero _ fun _ => rfl) <|
    namesRow_ite (namesRow_selTx _) <| namesRow_ite (namesRow_selZero _ fun _ => rfl) <| .inr rfl

theorem decodeOpword_qenc (rom : Rom) {w : U16} (h : opwordFunc w = 0x01) :
    decodeOpword rom w = selWidth rom (opwordSel w) .qenc1 .qenc2 .qencWidth := if_pos h

theorem decodeOpword_qdec (rom : Rom) {w : U16} (h : opwordFunc w = 0x02) :
    decodeOpword rom w = selWidth rom (opwordSel w) .qdec1 .qdec2 .qdecWidth := by
  simp only [decodeOpword, h]
  rfl

theorem decodeOpword_build (rom : Rom) (sel : U8) : decodeOpword rom (opwordOf 0x40 sel) = selBuild sel := by
  simp only [decodeOpword, opwordFunc_opwordOf, opwordSel_opwordOf]
  rfl

theorem decodeOpword_parse (rom : Rom) : decodeOpword rom (opwordOf 0x41 0) = .ok (.row .parse) := by rfl

theorem decodeOpword_renc (rom : Rom) : decodeOpword rom (opwordOf 0x32 0) = .ok (.row .renc) := by rfl

/-- The rows that QENC or QDEC name are those of the widths 1 and 2. -/
theorem selWidth_row {rom : Rom} {sel : U8} {one two i : Instr} {other : U8 → Operation}
    (hother : ∀ w, other w ≠ .row i) (h : selWidth rom sel one two other = .ok (.row i)) :
    (sel = 1 ∧ i = one) ∨ (sel = 2 ∧ i = two) := by
  by_cases hw : sel.toNat ∈ rom.qwidths
  · rw [selWidth_ok hw, Except.ok.injEq] at h
    split_ifs at h with h1 h2
    · cases h; exact .inl ⟨h1, rfl⟩
    · cases h; exact .inr ⟨h2, rfl⟩
    · exact absurd h (hother sel)
  · rw [selWidth_error hw] at h
    cases h

/-- An OPWORD that decodes to a row is the word of that row. -/
theorem encode_of_decodeOpword {rom : Rom} {w : U16} {i : Instr} (h : decodeOpword rom w = .ok (.row i))
    (r : RegIndex) : encode r i = .opword w := by
  rw [← opwordOf_fields w]
  by_cases h1 : opwordFunc w = 0x01
  · rw [decodeOpword_qenc rom h1] at h
    rcases selWidth_row (fun _ => by simp) h with ⟨hsel, rfl⟩ | ⟨hsel, rfl⟩ <;> rw [h1, hsel] <;> rfl
  · by_cases h2 : opwordFunc w = 0x02
    · rw [decodeOpword_qdec rom h2] at h
      rcases selWidth_row (fun _ => by simp) h with ⟨hsel, rfl⟩ | ⟨hsel, rfl⟩ <;> rw [h2, hsel] <;> rfl
    · rcases decodeOpword_namesRow rom h1 h2 with ⟨j, hj, henc⟩ | he
      · cases hj.symm.trans h
        exact henc r
      · cases he.symm.trans h

/-- The OPWORD of a row decodes to it, for QENC and QDEC where `QWIDTHS` admits the width. -/
theorem decodeOpword_of_encode {rom : Rom} {r : RegIndex} {w : U16} {i : Instr} (h : encode r i = .opword w)
    (hw : opwordFunc w = 0x01 ∨ opwordFunc w = 0x02 → (opwordSel w).toNat ∈ rom.qwidths) :
    decodeOpword rom w = .ok (.row i) := by
  cases i with
  | qenc1 | qenc2 =>
    cases h
    rw [decodeOpword_qenc rom (by decide), selWidth_ok (hw (by decide))]
    rfl
  | qdec1 | qdec2 =>
    cases h
    rw [decodeOpword_qdec rom (by decide), selWidth_ok (hw (by decide))]
    rfl
  | _ => cases h <;> rfl

/-- A step performs what a legal OPWORD names. -/
theorem step_perform {s : State} {a : Request} {rest : List Request} {op : Operation} (h : s.requests = a :: rest)
    (hd : decodeOpword s.rom a.opword = .ok op) : step s = perform op s := by
  rw [step, inFlight_of_requests h]
  dsimp only
  rw [hd]

/-- The rows of the OPWORD format, in the order of R81's words. -/
def opwordRows : List Instr :=
  [.qenc1, .qenc2, .qdec1, .qdec2, .qtemp, .pack, .unpack, .xbits, .wrap, .unwrap, .rlook, .rlookn, .renc, .rdec,
   .build0, .build1, .build3, .build4, .build6, .build7, .build17, .build18, .parse, .tx0, .tx1, .tx3, .tx4, .tx6,
   .tx7, .tx17, .tx18, .rx]

/-- The legal OPWORDs are the words of the rows. -/
theorem mem_legalOpwords_iff {w : U16} (r : RegIndex) : w ∈ legalOpwords ↔ ∃ i, encode r i = .opword w := by
  have hwords : legalOpwords.map TableWord.opword = opwordRows.map (encode r) := rfl
  constructor
  · intro h
    obtain ⟨i, -, hi⟩ := List.mem_map.1 (hwords ▸ List.mem_map_of_mem (f := TableWord.opword) h)
    exact ⟨i, hi⟩
  · rintro ⟨i, h⟩
    cases i <;> cases h <;> decide

/-! ### Identifier words (R60, R66 to R79) -/

/-- The rows of the words towards the device, by the mode (R66 to R73). -/
theorem decodeCanid_toDevice {w : U32} {i : Instr} (h : decodeCanid .toDevice w = .ok i) :
    (canidMode w = 0 ∧ i = .msgIdQuery (canidAux w) (canidNode w)) ∨
    (canidMode w = 1 ∧ i = .msgControlCommand (canidAux w) (canidNode w)) ∨
    (canidMode w = 3 ∧ i = .msgEnable (canidAux w) (canidNode w)) ∨
    (canidMode w = 4 ∧ i = .msgDisable (canidAux w) (canidNode w)) ∨
    (canidMode w = 6 ∧ i = .msgSetZero (canidAux w) (canidNode w)) ∨
    (canidMode w = 7 ∧ i = .msgSetId (canidAux w) (canidNode w)) ∨
    (canidMode w = 17 ∧ i = .msgReadParam (canidAux w) (canidNode w)) ∨
    (canidMode w = 18 ∧ i = .msgWriteParam (canidAux w) (canidNode w)) := by
  simp only [decodeCanid] at h
  split_ifs at h with h0 h1 h3 h4 h6 h7 h17 h18 <;> cases h <;> simp [*]

/-- The rows of the words towards the host, by the mode (R74 to R77). -/
theorem decodeCanid_toHost {w : U32} {i : Instr} (h : decodeCanid .toHost w = .ok i) :
    (canidMode w = 0 ∧ i = .msgIdResponse (canidAux w) (canidNode w)) ∨
    (canidMode w = 2 ∧ i = .msgStatusResponse (canidAux w) (canidNode w)) ∨
    (canidMode w = 17 ∧ i = .msgParamReadResponse (canidAux w) (canidNode w)) ∨
    (canidMode w = 21 ∧ i = .msgFaultResponse (canidAux w) (canidNode w)) := by
  simp only [decodeCanid] at h
  split_ifs at h with h0 h2 h17 h21 <;> cases h <;> simp [*]

/-- The word of a word's own fields is that word with the marker PACK writes (R60, R123). -/
theorem canid_canidOf_fields (dir : Direction) (w : U32) :
    TableWord.canid dir (canidOf (canidMode w) (canidAux w) (canidNode w)) = withMarker (.canid dir w) := by
  have := w.isLt
  refine congrArg (TableWord.canid dir) (BitVec.eq_of_toNat_eq ?_)
  rw [canidOf_fields, BitVec.toNat_ofNat]
  omega

theorem encode_of_decodeCanid {dir : Direction} {w : U32} {i : Instr} (h : decodeCanid dir w = .ok i)
    (r : RegIndex) : encode r i = withMarker (.canid dir w) := by
  rw [← canid_canidOf_fields]
  cases dir with
  | toDevice =>
    rcases decodeCanid_toDevice h with ⟨hm, rfl⟩ | ⟨hm, rfl⟩ | ⟨hm, rfl⟩ | ⟨hm, rfl⟩ | ⟨hm, rfl⟩ | ⟨hm, rfl⟩ |
      ⟨hm, rfl⟩ | ⟨hm, rfl⟩ <;> rw [hm] <;> rfl
  | toHost =>
    rcases decodeCanid_toHost h with ⟨hm, rfl⟩ | ⟨hm, rfl⟩ | ⟨hm, rfl⟩ | ⟨hm, rfl⟩ <;> rw [hm] <;> rfl

theorem decodeCanid_of_encode {r : RegIndex} {dir : Direction} {w : U32} {i : Instr}
    (h : encode r i = .canid dir w) : decodeCanid dir w = .ok i := by
  cases i <;> cases h <;> simp [decodeCanid]

/-! ### Register indices (R85, R161) -/

/-- The register rows are those whose word is a register index. -/
theorem mem_registerRows_iff {r : RegIndex} {i : Instr} {w : U16} :
    (i, w) ∈ registerRows r ↔ encode r i = .regidx w := by
  constructor
  · have hrows : ∀ row ∈ registerRows r, encode r row.1 = .regidx row.2 := by simp [registerRows, encode]
    exact hrows (i, w)
  · intro h
    cases i <;> cases h <;> simp [registerRows]

/-- The first row of an index, as the decoder searches the rows. -/
def rowOfIndex (w : U16) : List (Instr × U16) → Except Failure Instr
  | [] => .error .unknownRegister
  | (i, index) :: rows => if w = index then .ok i else rowOfIndex w rows

theorem decodeRegidx_eq_rowOfIndex (r : RegIndex) (w : U16) : decodeRegidx r w = rowOfIndex w (registerRows r) := rfl

theorem rowOfIndex_ok {w : U16} {i : Instr} {rows : List (Instr × U16)} (h : rowOfIndex w rows = .ok i) :
    (i, w) ∈ rows := by
  induction rows with
  | nil => cases h
  | cons row rows ih =>
    rw [rowOfIndex] at h
    split_ifs at h with hw
    · cases h
      exact hw ▸ List.mem_cons_self
    · exact List.mem_cons_of_mem _ (ih h)

theorem rowOfIndex_error {w : U16} {f : Failure} {rows : List (Instr × U16)} (h : rowOfIndex w rows = .error f)
    (i : Instr) : (i, w) ∉ rows := by
  induction rows with
  | nil => exact List.not_mem_nil
  | cons row rows ih =>
    rw [rowOfIndex] at h
    split_ifs at h with hw
    rw [List.mem_cons, not_or]
    exact ⟨fun he => hw (congrArg Prod.snd he), ih h⟩

/-- The rows and the catalogue have the same indices (R161). -/
theorem registerRows_index (r : RegIndex) :
    (registerRows r).map Prod.snd = (catalogueOf r).map RegEntry.index := rfl

/-- No two register rows of a lawful `REG_INDEX` share an index. -/
theorem registerRows_nodup {r : RegIndex} (hr : r.lawful = true) : ((registerRows r).map Prod.snd).Nodup := by
  rw [registerRows_index]
  refine List.Nodup.of_map BitVec.toNat ?_
  rw [List.map_map]
  exact (catalogueOf_sorted hr).imp fun hlt => Nat.ne_of_lt hlt

/-- At a lawful `REG_INDEX` the index of a row decodes to it. -/
theorem decodeRegidx_of_encode {r : RegIndex} (hr : r.lawful = true) {i : Instr} {w : U16}
    (h : encode r i = .regidx w) : decodeRegidx r w = .ok i := by
  have hi := mem_registerRows_iff.2 h
  rw [decodeRegidx_eq_rowOfIndex]
  cases hd : rowOfIndex w (registerRows r) with
  | ok j =>
    cases List.inj_on_of_nodup_map (registerRows_nodup hr) (rowOfIndex_ok hd) hi rfl
    rfl
  | error f => exact absurd hi (rowOfIndex_error hd i)

/-! ### The three formats -/

theorem decode_encode {rom : Rom} (hr : rom.regIndex.lawful = true) (h1 : 1 ∈ rom.qwidths) (h2 : 2 ∈ rom.qwidths)
    (i : Instr) : decode rom (encode rom.regIndex i) = .ok (.row i) := by
  cases h : encode rom.regIndex i with
  | opword w =>
    refine decodeOpword_of_encode h fun hfunc => ?_
    cases i with
    | qenc1 | qdec1 => cases h; exact h1
    | qenc2 | qdec2 => cases h; exact h2
    | _ => cases h <;> exact absurd hfunc (by decide)
  | canid dir w => exact congrArg asRow (decodeCanid_of_encode h)
  | regidx w => exact congrArg asRow (decodeRegidx_of_encode hr h)

theorem encode_of_decode {rom : Rom} {d : TableWord} {i : Instr} (h : decode rom d = .ok (.row i)) :
    encode rom.regIndex i = withMarker d := by
  cases d with
  | opword w => exact encode_of_decodeOpword h _
  | canid dir w =>
    obtain ⟨j, hj, hrow⟩ := asRow_ok.1 h
    cases hrow
    exact encode_of_decodeCanid hj _
  | regidx w =>
    obtain ⟨j, hj, hrow⟩ := asRow_ok.1 h
    cases hrow
    exact mem_registerRows_iff.1 (rowOfIndex_ok hj)

end Sys2Proof.Proofs
end

section
/-! The statements on the words of the table and the OPWORDs that are refused. -/

namespace Sys2Proof.Proofs

open Sys2Proof.Machine Sys2Proof.Claims

/-- Settles O46: each direction format by format. -/
theorem decodeAndEncodeAgree : Obligations.DecodeAndEncodeAgree := fun _ =>
  ⟨decode_encode, fun _ _ => encode_of_decode⟩

/-- Settles O47: a FUNC other than QENC's and QDEC's names a row or is illegal, those two follow `QWIDTHS`, and the
legal OPWORDs are the words of the rows. -/
theorem illegalOpwordsAreRefused : Obligations.IllegalOpwordsAreRefused := by
  intro w s o rest hreq
  have hfunc1 : opwordFunc w = 0x01 ↔ w.toNat / 256 = 1 := opwordFunc_eq_iff
  have hfunc2 : opwordFunc w = 0x02 ↔ w.toNat / 256 = 2 := opwordFunc_eq_iff
  rw [← opwordSel_toNat, ← hfunc1, ← hfunc2]
  refine ⟨fun hlegal hwidth => ?_, fun hlegal h1 h2 => ?_, fun hwide hwidth => ?_, fun hlegal hwidth => ?_⟩
  · obtain ⟨i, hi⟩ := (mem_legalOpwords_iff s.rom.regIndex).1 hlegal
    exact ⟨i, decodeOpword_of_encode hi hwidth, hi⟩
  · rcases decodeOpword_namesRow s.rom (mt hfunc1.1 h1) (mt hfunc2.1 h2) with ⟨i, -, hi⟩ | he
    · refine absurd ((mem_legalOpwords_iff s.rom.regIndex).2 ⟨i, ?_⟩) hlegal
      rw [hi, opwordOf_fields]
    · exact step_illegal hreq he
  · refine step_illegal hreq ?_
    rcases hwide with h1 | h2
    · rw [decodeOpword_qenc _ h1, selWidth_error hwidth]
    · rw [decodeOpword_qdec _ h2, selWidth_error hwidth]
  · have hsel : BitVec.ofNat 8 w.toNat = opwordSel w := by
      apply BitVec.eq_of_toNat_eq
      rw [BitVec.toNat_ofNat, opwordSel_toNat]
    have hne : ∀ func sel : U8, opwordOf func sel ∈ legalOpwords → opwordFunc w = func → opwordSel w ≠ sel := by
      rintro _ _ hmem rfl rfl
      exact hlegal (opwordOf_fields w ▸ hmem)
    rw [hsel]
    constructor
    · intro h1
      refine step_perform (op := .qencWidth (opwordSel w)) hreq ?_
      rw [decodeOpword_qenc _ h1, selWidth_ok hwidth, if_neg (hne 1 1 (by decide) h1), if_neg (hne 1 2 (by decide) h1)]
    · intro h2
      refine step_perform (op := .qdecWidth (opwordSel w)) hreq ?_
      rw [decodeOpword_qdec _ h2, selWidth_ok hwidth, if_neg (hne 2 1 (by decide) h2), if_neg (hne 2 2 (by decide) h2)]

/-- Settles O48: each word decodes by evaluation of the decoder. -/
theorem writtenWordsDecode : Obligations.WrittenWordsDecode := by
  unfold Obligations.WrittenWordsDecode
  decide

end Sys2Proof.Proofs
end

section
/-!
SUPPORT. The request by which a wire word runs (R80, R89): its OPWORD names BUILD, PARSE or RENC, and that operation on
its operands is the operation of the word's row.
-/

namespace Sys2Proof.Proofs

open Sys2Proof.Machine Sys2Proof.Claims

/-- A step runs `exec` of any row whose operation is that of the row its OPWORD names. -/
theorem step_eq_exec {s : State} {a : Request} {rest : List Request} {i j : Instr} (h : s.requests = a :: rest)
    (hd : decodeOpword s.rom a.opword = .ok (.row j))
    (hop : operation j s.rom a.operands = operation i s.rom a.operands) : step s = exec i s := by
  rw [step_row h hd, exec_cons j h, exec_cons i h, hop]

/-- A step whose operation fails answers the failure. -/
theorem step_eq_fail {s : State} {a : Request} {rest : List Request} {j : Instr} {f : Failure}
    (h : s.requests = a :: rest) (hd : decodeOpword s.rom a.opword = .ok (.row j))
    (hop : operation j s.rom a.operands = .error f) : step s = .next (replied s rest (.fail f)) := by
  rw [step_row h hd]
  exact exec_fails h hop

theorem canidMode_toNat (w : U32) : (canidMode w).toNat = w.toNat / 2 ^ 27 := by
  have := w.isLt
  rw [canidMode, BitVec.extractLsb'_toNat, Nat.shiftRight_eq_div_pow]
  omega

theorem canidMode_setWidth_toNat (w : U32) : ((canidMode w).setWidth 8 : U8).toNat = (canidMode w).toNat := by
  have := (canidMode w).isLt
  rw [BitVec.toNat_setWidth, Nat.mod_eq_of_lt (by omega)]

/-! ### Towards the device: BUILD of the word's mode (R66 to R73, R78) -/

theorem node_setWidth_toNat (node : U8) : (node.setWidth 32 : U32).toNat = node.toNat := by
  have := node.isLt
  rw [BitVec.toNat_setWidth, Nat.mod_eq_of_lt (by omega)]

/-- The node of a word is a target that every builder accepts (R190). -/
theorem checkTarget_node (node : U8) : checkTarget (node.setWidth 32) = .ok node :=
  checkTarget_ok.2 ⟨by rw [node_setWidth_toNat]; have := node.isLt; omega, by rw [node_setWidth_toNat]; simp⟩

/-- BUILD.1 on the operands of a ControlCommand word encodes its torque as the word's aux_field (R67, R192). -/
theorem buildControl_word (aux : U16) (node : U8) (o : Operands) :
    buildControl standardRom (buildOperands standardRom 1 aux node o) =
      wordControl standardRom aux node (buildOperands standardRom 1 aux node o) := by
  have htarget : checkTarget (buildOperands standardRom 1 aux node o).targetId = .ok node := checkTarget_node node
  have htorque : encodeOver standardRom standardRom.tRange (buildOperands standardRom 1 aux node o).torque = .ok aux :=
    encodeOver_centreOf aux
  rw [buildControl, htarget, ok_bind, htorque, ok_bind, wordControl]

/-- A mode with a builder: the request of its word steps as the word's row. -/
theorem step_toDevice {s : State} {w : U32} {o : Operands} {rest : List Request} {i : Instr}
    (h : s.requests = requestOf s.rom (.canid .toDevice w) o :: rest) (hd : decodeCanid .toDevice w = .ok i)
    (hrom : ∀ aux node, i = .msgControlCommand aux node → s.rom = standardRom) : step s = exec i s := by
  have run : ∀ {j : Instr}, selBuild ((canidMode w).setWidth 8) = .ok (.row j) →
      operation j s.rom (buildOperands s.rom (canidMode w) (canidAux w) (canidNode w) o) =
        operation i s.rom (buildOperands s.rom (canidMode w) (canidAux w) (canidNode w) o) → step s = exec i s := by
    intro j hj hop
    refine step_eq_exec h ?_ hop
    rw [requestOf_toDevice_opword, decodeOpword_build, hj]
  rcases decodeCanid_toDevice hd with ⟨hm, rfl⟩ | ⟨hm, rfl⟩ | ⟨hm, rfl⟩ | ⟨hm, rfl⟩ | ⟨hm, rfl⟩ | ⟨hm, rfl⟩ |
    ⟨hm, rfl⟩ | ⟨hm, rfl⟩ <;> rw [hm] at run
  · exact run (j := .build0) rfl rfl
  · rw [hrom _ _ rfl] at run
    exact run (j := .build1) rfl (congrArg (placed .message) (buildControl_word _ _ _))
  · exact run (j := .build3) rfl rfl
  · exact run (j := .build4) rfl rfl
  · exact run (j := .build6) rfl rfl
  · exact run (j := .build7) rfl rfl
  · exact run (j := .build17) rfl rfl
  · exact run (j := .build18) rfl rfl

/-- A mode without a builder is no SEL of BUILD (R78, R199). -/
theorem selBuild_noBuilder : ∀ mode : BitVec 5, mode.toNat ∉ [0, 1, 3, 4, 6, 7, 17, 18] →
    selBuild (mode.setWidth 8) = .error .illegalOperation := by
  decide

/-! ### Towards the host: PARSE of the word's fields (R74 to R77, R79) -/

/-- A mode with a parser: the request of its word steps as the word's row. -/
theorem step_toHost {s : State} {w : U32} {o : Operands} {rest : List Request} {i : Instr}
    (h : s.requests = requestOf s.rom (.canid .toHost w) o :: rest) (hd : decodeCanid .toHost w = .ok i) :
    step s = exec i s := by
  refine step_eq_exec (j := .parse) h (decodeOpword_parse _) ?_
  rw [requestOf_toHost_operands]
  rcases decodeCanid_toHost hd with ⟨hm, rfl⟩ | ⟨hm, rfl⟩ | ⟨hm, rfl⟩ | ⟨hm, rfl⟩ <;> rw [hm] <;> rfl

/-- PARSE of a mode without a parser (R221), for every ROM. -/
theorem parseMessage_unsupported (rom : Rom) {m : RawMessage} (h : m.commandMode.toNat ∉ [0, 2, 17, 21]) :
    parseMessage rom m = .error .unsupportedMode := by
  have hne : ∀ k : U8, k.toNat ∈ [0, 2, 17, 21] → m.commandMode ≠ k := by
    rintro _ hk rfl
    exact h hk
  unfold parseMessage
  rw [if_neg (hne 0 (by decide)), if_neg (hne 2 (by decide)), if_neg (hne 17 (by decide)), if_neg (hne 21 (by decide))]

/-! ### Register indices: RENC of the index (R85, R161) -/

/-- The operation of a register row is the encode function its index selects (R165). -/
theorem operation_registerRow {rom : Rom} {i : Instr} {index : U16} (h : (i, index) ∈ registerRows rom.regIndex)
    (o : Operands) : operation i rom o = placed .regField (regEncode rom index o.value) := by
  have henc := mem_registerRows_iff.1 h
  cases i <;> cases henc <;> rfl

/-- The request of a register index steps as the index's row. -/
theorem step_regidx {s : State} {w : U16} {o : Operands} {rest : List Request} {i : Instr}
    (h : s.requests = requestOf s.rom (.regidx w) o :: rest) (hd : decodeRegidx s.rom.regIndex w = .ok i) :
    step s = exec i s :=
  step_eq_exec (j := .renc) h (decodeOpword_renc _) (operation_registerRow (rowOfIndex_ok hd) _).symm

end Sys2Proof.Proofs
end

section
/-! The statements on the identifier that PACK writes and on the words that run through OPWORDs. -/

namespace Sys2Proof.Proofs

open Sys2Proof.Machine Sys2Proof.Claims

/-- Settles O13: the word PACK writes is the encoder's, whose fields the decoder's accessors read. -/
theorem packGivesTheIdentifier : Obligations.PackGivesTheIdentifier := by
  intro s o rest hs hmode
  have hword := identifierWord_eq o.commandMode o.auxField o.nodeId
  refine ⟨identifierWord standardRom o.commandMode o.auxField o.nodeId, gives_of_operation hs ?_,
    identifierWord_toNat hmode _ _, ?_, ?_, ?_, identifierWord_marker _ _ _⟩
  · rw [operation, packId_standard, if_neg (Nat.not_lt.2 hmode)]
    rfl
  · rw [hword]
    exact canidMode_canidOf _ _ _
  · rw [hword]
    exact canidAux_canidOf _ _ _
  · rw [hword]
    exact canidNode_canidOf _ _ _

/-- Settles O60: a word's request carries the OPWORD of its row, or of BUILD, PARSE or RENC, whose operation on the
request's operands is the row's, or the refusal of a word that names no row. -/
theorem tableWordsRunThroughOpwords : Obligations.TableWordsRunThroughOpwords := by
  intro s o rest
  refine ⟨fun word i hreq hd hrom => ?_, fun w hreq hmode => ?_, fun w hreq hmode => ?_, fun w hreq hindex => ?_⟩
  · cases word with
    | opword w => exact step_row hreq hd
    | canid dir w =>
      obtain ⟨j, hj, hrow⟩ := asRow_ok.1 hd
      cases hrow
      cases dir with
      | toDevice => exact step_toDevice hreq hj hrom
      | toHost => exact step_toHost hreq hj
    | regidx w =>
      obtain ⟨j, hj, hrow⟩ := asRow_ok.1 hd
      cases hrow
      exact step_regidx hreq hj
  · refine step_illegal hreq ?_
    rw [requestOf_toDevice_opword, decodeOpword_build, selBuild_noBuilder]
    rwa [canidMode_toNat]
  · refine step_eq_fail (j := .parse) hreq (decodeOpword_parse _) ?_
    rw [operation, parseMessage_unsupported, placed_error]
    rwa [← canidMode_toNat, ← canidMode_setWidth_toNat] at hmode
  · refine step_eq_fail (j := .renc) hreq (decodeOpword_renc _) ?_
    rw [operation]
    exact congrArg (placed .regField) (regEncode_unknown hindex _)

end Sys2Proof.Proofs
end

section
/-!
SUPPORT. What the encode functions of the register kinds give, in the statements' words: a field exactly for the values
that `FieldOf` admits, NotANumber for a NaN and Unrepresentable for every other value (R165 to R168); and that what the
kinds decode is what `Decodes` says (R169 to R172).
-/

namespace Sys2Proof.Proofs

open Sys2Proof.Machine Sys2Proof.Claims

/-! ### Encoding (R165 to R168) -/

/-- The number 1 in binary64 units, as the statements write it. -/
theorem one64_cast : (one64 : Int) = (2 ^ 1074 : Int) := by
  rw [one64, Nat.cast_pow]
  rfl

/-- An integer is a value of the kind exactly within its bounds (R166, R168). -/
theorem smallInteger_ok {top n : Nat} {value : F64} :
    smallInteger top value = .ok n ↔
      isFinite value = true ∧ n ≤ top ∧ f64Units value = (n : Int) * (2 ^ 1074 : Int) := by
  rw [← one64_cast]
  have hone : (one64 : Int) ≠ 0 := Int.natCast_ne_zero.2 one64_pos.ne'
  rcases smallInteger_cases top value with ⟨hnan, e⟩ | ⟨hfin, m, hm, hu, e⟩ | ⟨-, hno, e⟩ <;> rw [e]
  · refine ⟨nofun, fun ⟨hfin, _⟩ => ?_⟩
    rw [not_isNaN_of_finite hfin] at hnan
    cases hnan
  · rw [Except.ok.injEq]
    constructor
    · rintro rfl
      exact ⟨hfin, hm, hu⟩
    · rintro ⟨-, -, hn⟩
      exact Int.natCast_inj.1 (Int.eq_of_mul_eq_mul_right hone (hu.symm.trans hn))
  · exact ⟨nofun, fun ⟨hfin, hn, hu⟩ => absurd ⟨hfin, n, hn, hu⟩ hno⟩

theorem smallInteger_error {top : Nat} {value : F64} {f : Failure} (h : smallInteger top value = .error f) :
    isNaN value = true ∧ f = .notANumber ∨ isNaN value = false ∧ f = .unrepresentable := by
  rcases smallInteger_cases top value with ⟨hnan, e⟩ | ⟨-, _, -, -, e⟩ | ⟨hnan, -, e⟩ <;> cases h.symm.trans e
  · exact .inl ⟨hnan, rfl⟩
  · exact .inr ⟨hnan, rfl⟩

/-- The bytes of a 16-bit number, from the number. -/
theorem byteOf16_ofNat (n i : Nat) (hn : n ≤ 65535) : byteOf16 (BitVec.ofNat 16 n) i = byteOf n i := by
  rw [byteOf16_eq, BitVec.toNat_ofNat, Nat.mod_eq_of_lt (by omega), byteOf]

/-- The bytes of a 32-bit number, low first, as the statements write them. -/
theorem toLE32_eq (v : U32) :
    toLE32 v = ⟨byteOf v.toNat 0, byteOf v.toNat 1, byteOf v.toNat 2, byteOf v.toNat 3⟩ := by
  simp only [toLE32, byteOf32_eq, byteOf]

/-- No kind holds a NaN. -/
theorem not_isNaN_of_fieldOf {kind : RegKind} {value : F64} {f : Bytes4} (h : FieldOf kind value f) :
    isNaN value = false := by
  cases h with
  | u8 _ _ hfin => exact not_isNaN_of_finite hfin
  | u16 _ _ hfin => exact not_isNaN_of_finite hfin
  | f32 _ hnan => exact hnan

/-- RENC gives the value field of exactly the values a kind can hold. -/
theorem encodeKind_ok {kind : RegKind} {value : F64} {f : Bytes4} :
    encodeKind kind value = .ok f ↔ FieldOf kind value f := by
  cases kind with
  | u8pad =>
    rw [encodeKind, encodeU8Pad, bind_eq_ok]
    constructor
    · rintro ⟨n, hn, hf⟩
      obtain ⟨hfin, hle, hu⟩ := smallInteger_ok.1 hn
      cases hf
      have hb : BitVec.ofNat 8 n = byteOf n 0 := by simp [byteOf]
      rw [hb]
      exact .u8 value n hfin hle hu
    · intro h
      cases h with
      | u8 _ n hfin hle hu => exact ⟨n, smallInteger_ok.2 ⟨hfin, hle, hu⟩, by simp [byteOf]⟩
  | u16pad =>
    rw [encodeKind, encodeU16Pad, bind_eq_ok]
    constructor
    · rintro ⟨n, hn, hf⟩
      obtain ⟨hfin, hle, hu⟩ := smallInteger_ok.1 hn
      cases hf
      rw [byteOf16_ofNat n 0 hle, byteOf16_ofNat n 1 hle]
      exact .u16 value n hfin hle hu
    · intro h
      cases h with
      | u16 _ n hfin hle hu =>
        exact ⟨n, smallInteger_ok.2 ⟨hfin, hle, hu⟩, by rw [byteOf16_ofNat n 0 hle, byteOf16_ofNat n 1 hle]⟩
  | f32le =>
    rw [encodeKind]
    rcases encodeF32_cases value with ⟨hnan, e⟩ | ⟨-, hinf, hfin, e⟩ | ⟨hnan, hinf, e⟩ <;> rw [e]
    · refine ⟨nofun, fun h => ?_⟩
      rw [not_isNaN_of_fieldOf h] at hnan
      cases hnan
    · refine ⟨nofun, fun h => ?_⟩
      cases h with
      | f32 _ _ hwide =>
        rw [not_isInf_of_finite hfin] at hwide
        exact absurd (hwide hinf) Bool.false_ne_true
    · rw [Except.ok.injEq, toLE32_eq]
      constructor
      · rintro rfl
        exact .f32 value hnan hinf
      · rintro ⟨⟩
        rfl

/-- RENC fails as NotANumber for a NaN and as Unrepresentable for every other value without a field. -/
theorem encodeKind_error {kind : RegKind} {value : F64} {f : Failure} (h : encodeKind kind value = .error f) :
    isNaN value = true ∧ f = .notANumber ∨ isNaN value = false ∧ f = .unrepresentable := by
  cases kind with
  | u8pad =>
    rcases bind_eq_error.1 h with h | ⟨_, _, h⟩
    · exact smallInteger_error h
    · cases h
  | u16pad =>
    rcases bind_eq_error.1 h with h | ⟨_, _, h⟩
    · exact smallInteger_error h
    · cases h
  | f32le =>
    rcases encodeF32_cases value with ⟨hnan, e⟩ | ⟨hnan, -, -, e⟩ | ⟨-, -, e⟩ <;> cases h.symm.trans e
    · exact .inl ⟨hnan, rfl⟩
    · exact .inr ⟨hnan, rfl⟩

theorem encodeKind_nan {value : F64} (kind : RegKind) (h : isNaN value = true) :
    encodeKind kind value = .error .notANumber := by
  cases he : encodeKind kind value with
  | ok f =>
    rw [not_isNaN_of_fieldOf (encodeKind_ok.1 he)] at h
    cases h
  | error f =>
    rcases encodeKind_error he with ⟨-, rfl⟩ | ⟨hnan, -⟩
    · rfl
    · rw [hnan] at h
      cases h

theorem encodeKind_unrepresentable {kind : RegKind} {value : F64} (h : isNaN value = false)
    (hf : ∀ f, ¬ FieldOf kind value f) : encodeKind kind value = .error .unrepresentable := by
  cases he : encodeKind kind value with
  | ok f => exact absurd (encodeKind_ok.1 he) (hf f)
  | error f =>
    rcases encodeKind_error he with ⟨hnan, -⟩ | ⟨-, rfl⟩
    · rw [hnan] at h
      cases h
    · rfl

/-! ### Decoding (R169 to R172) -/

theorem le16_toNat_eq (b0 b1 : Byte) : (le16 b0 b1).toNat = number16 b0 b1 := le16_toNat b0 b1

theorem le32_eq_ofNat (b0 b1 b2 b3 : Byte) : le32 b0 b1 b2 b3 = BitVec.ofNat 32 (number32 b0 b1 b2 b3) := by
  rw [number32, ← le32_toNat, BitVec.ofNat_toNat, BitVec.setWidth_eq]

/-- A number of at most 16 bits decodes to itself (R170, R172). -/
theorem f64OfNat_decodes {n : Nat} (h : n < 2 ^ 16) :
    isFinite (f64OfNat n) = true ∧ f64Units (f64OfNat n) = (n : Int) * (2 ^ 1074 : Int) := by
  obtain ⟨hfin, -, hu⟩ := f64OfNat_exact (n := n) (by omega)
  rw [one64_cast] at hu
  exact ⟨hfin, hu⟩

/-- What a kind decodes from a field is the value the rules give it. -/
theorem decodes_decodeKind (kind : RegKind) (f : Bytes4) : Decodes kind f (decodeKind kind f) := by
  cases kind with
  | u8pad =>
    rw [Decodes, decodeKind, decodeU8Pad]
    exact f64OfNat_decodes (Nat.lt_trans f.b0.isLt (by decide))
  | u16pad =>
    rw [Decodes, decodeKind, decodeU16Pad, ← le16_toNat_eq]
    exact f64OfNat_decodes (le16 f.b0 f.b1).isLt
  | f32le =>
    rw [Decodes, decodeKind, decodeF32, le32_eq_ofNat]
    generalize BitVec.ofNat 32 (number32 f.b0 f.b1 f.b2 f.b3) = y
    rcases fromF32_cases y with ⟨hnan, h⟩ | ⟨hinf, hnan, h⟩ | ⟨hmag, hnan, hinf, hfin, hneg, -⟩
    · simp only [hnan, if_true]
      exact h
    · simp only [hnan, hinf, h]
      exact ⟨by rw [isInf, f64Mag_f64Of _ infMag64_lt]; rfl, f64Neg_f64Of _ infMag64_lt⟩
    · simp only [hnan, hinf]
      exact ⟨hfin, (f64Rat_fromF32 hmag).2, hneg⟩

end Sys2Proof.Proofs
end

section
/-!
SUPPORT. What the builders give, in the statements' words: the codes of a ControlCommand, the message of each builder,
its frame, and the same for the rows of the identifier words, whose ids come from the word (R66 to R73, R190 to R200).
-/

namespace Sys2Proof.Proofs

open Sys2Proof.Machine Sys2Proof.Claims

/-! ### An operation whose outcome is placed in the result bundle -/

section Placed

variable {α : Type} {rom : Rom} {s : State} {o : Operands} {rest : List Request} {i : Instr} {place : α → Result}
  {e : Except Failure α}

theorem gives_of_placed {x : α} (hs : LoadedWith rom s o rest) (hop : operation i rom o = placed place e)
    (he : e = .ok x) : Gives i s rest (place x) :=
  gives_of_operation hs (by rw [hop, he, placed_ok])

theorem refuses_of_placed {f : Failure} (hs : LoadedWith rom s o rest) (hop : operation i rom o = placed place e)
    (he : e = .error f) : Refuses i s rest f :=
  refuses_of_operation hs (by rw [hop, he, placed_error])

end Placed

/-! ### The codes of a ControlCommand (R67, R109, R192) -/

/-- QENC over a ROM range gives R102's code for every value that is no NaN. -/
theorem encodeOver_ok {r : Range} (hr : r ∈ [pRange, vRange, tRange, kpRange, kdRange, iRange]) {value : F64}
    (hv : isNaN value = false) : encodeOver standardRom r value = .ok (codeOver r value) := by
  obtain ⟨hlo, hhi, hlt⟩ := badRange_eq_false.1 (badRange_rom r hr)
  have hfloor := (encodeBinary64_spec (w := 2) (by decide) hv hlo hhi hlt (romRange_width_exact r hr).1).1
  have hproduct : product 65535 value r.lo r.hi = encodeProduct 2 value r.lo r.hi := rfl
  rw [encodeOver_standard hr, hv, if_neg Bool.false_ne_true, codeOver, hproduct, ← hfloor, BitVec.ofInt_natCast]

theorem encodeOver_nan {r : Range} (hr : r ∈ [pRange, vRange, tRange, kpRange, kdRange, iRange]) {value : F64}
    (hv : isNaN value = true) : encodeOver standardRom r value = .error .notANumber := by
  rw [encodeOver_standard hr, if_pos hv]

theorem controlPayload_eq (a v p d : U16) :
    controlPayload a v p d =
      ⟨byteOf a.toNat 0, byteOf a.toNat 1, byteOf v.toNat 0, byteOf v.toNat 1, byteOf p.toNat 0, byteOf p.toNat 1,
        byteOf d.toNat 0, byteOf d.toNat 1⟩ := by
  simp only [controlPayload, byteOf16_eq, byteOf]

/-- The payload of four numbers is R67's quadruple. -/
theorem controlEncode_ok {o : Operands} (h : PayloadNumbers o) :
    controlEncode standardRom o = .ok (controlQuadruple o) := by
  obtain ⟨ha, hv, hp, hd⟩ := h
  have eAngle : encodeOver standardRom standardRom.pRange o.angle = .ok (codeOver pRange o.angle) :=
    encodeOver_ok (by decide) ha
  have eSpeed : encodeOver standardRom standardRom.vRange o.speed = .ok (codeOver vRange o.speed) :=
    encodeOver_ok (by decide) hv
  have eKp : encodeOver standardRom standardRom.kpRange o.kp = .ok (codeOver kpRange o.kp) :=
    encodeOver_ok (by decide) hp
  have eKd : encodeOver standardRom standardRom.kdRange o.kd = .ok (codeOver kdRange o.kd) :=
    encodeOver_ok (by decide) hd
  rw [controlEncode, eAngle, ok_bind, eSpeed, ok_bind, eKp, ok_bind, eKd, ok_bind, controlPayload_eq]
  rfl

/-- A NaN among the four values is refused (R192). -/
theorem controlEncode_nan {o : Operands} (h : ¬ PayloadNumbers o) :
    controlEncode standardRom o = .error .notANumber := by
  rw [controlEncode_standard, if_pos]
  by_contra hnan
  simp only [Bool.or_eq_true, not_or, Bool.not_eq_true, and_assoc] at hnan
  exact h hnan

/-! ### The target check (R190) -/

theorem checkTarget_bind_ok {α : Type} {t : U32} (h : t.toNat ≤ 255) (f : U8 → Except Failure α) :
    (checkTarget t >>= f) = f (BitVec.ofNat 8 t.toNat) := by
  rw [checkTarget_ok.2 ⟨h, rfl⟩, ok_bind]

theorem checkTarget_bind_error {α : Type} {t : U32} (h : 255 < t.toNat) (f : U8 → Except Failure α) :
    (checkTarget t >>= f) = .error .fieldRange := by
  rw [checkTarget_error.2 ⟨h, rfl⟩, error_bind]

/-! ### The messages of the builders (R191 to R198) -/

/-- The aux field of SetId is the low bytes of its two ids (R71). -/
theorem setIdAux_eq (rom : Rom) (n h : Nat) :
    setIdAux rom n h = BitVec.ofNat 16 (lowByte rom.hostIdW n * 256 + lowByte rom.hostIdW h) := by
  apply BitVec.eq_of_toNat_eq
  rw [setIdAux_toNat, BitVec.toNat_ofNat, lowByte, lowByte]
  omega

theorem readPayload_eq (index : U16) : readPayload index = readIndex index := by
  simp only [readPayload, readIndex, byteOf16_eq, byteOf]

theorem writePayload_eq (index : U16) (f : Bytes4) : writePayload index f = writeField index f := by
  simp only [writePayload, writeField, byteOf16_eq, byteOf]

section Builders

variable {rom : Rom} {o : Operands}

theorem buildIdQuery_ok (h : o.targetId.toNat ≤ 255) :
    buildIdQuery rom o = .ok
      (hostRequest 0 o.targetId.toNat (lowByte rom.hostIdW o.hostId) ⟨0, 0, 0, 0, 0, 0, 0, 0⟩) :=
  checkTarget_bind_ok h _

theorem buildEnable_ok (h : o.targetId.toNat ≤ 255) :
    buildEnable rom o = .ok
      (hostRequest 3 o.targetId.toNat (lowByte rom.hostIdW o.hostId) ⟨0, 0, 0, 0, 0, 0, 0, 0⟩) :=
  checkTarget_bind_ok h _

theorem buildDisable_ok (h : o.targetId.toNat ≤ 255) :
    buildDisable rom o = .ok (hostRequest 4 o.targetId.toNat (lowByte rom.hostIdW o.hostId)
      ⟨if o.faultClear then 1 else 0, 0, 0, 0, 0, 0, 0, 0⟩) :=
  checkTarget_bind_ok h _

theorem buildSetZero_ok (h : o.targetId.toNat ≤ 255) :
    buildSetZero rom o = .ok
      (hostRequest 6 o.targetId.toNat (lowByte rom.hostIdW o.hostId) ⟨1, 0, 0, 0, 0, 0, 0, 0⟩) :=
  checkTarget_bind_ok h _

theorem buildSetId_ok (h : o.targetId.toNat ≤ 255) :
    buildSetId rom o = .ok
      (setIdRequest o.targetId.toNat (lowByte rom.hostIdW o.newTargetId) (lowByte rom.hostIdW o.hostId)) := by
  rw [buildSetId, checkTarget_bind_ok h, setIdAux_eq]
  rfl

theorem buildControl_ok (h : o.targetId.toNat ≤ 255) (ht : isNaN o.torque = false) (hp : PayloadNumbers o) :
    buildControl standardRom o = .ok (controlRequest o) := by
  have hcode : encodeOver standardRom standardRom.tRange o.torque = .ok (codeOver tRange o.torque) :=
    encodeOver_ok (by decide) ht
  rw [buildControl, checkTarget_bind_ok h, hcode, ok_bind, controlEncode_ok hp]
  rfl

/-- A NaN among the five values is refused, the torque's before the payload's (R192). -/
theorem buildControl_nan (h : o.targetId.toNat ≤ 255) (hnan : ¬ (isNaN o.torque = false ∧ PayloadNumbers o)) :
    buildControl standardRom o = .error .notANumber := by
  rw [buildControl, checkTarget_bind_ok h]
  cases ht : isNaN o.torque with
  | true =>
    have hcode : encodeOver standardRom standardRom.tRange o.torque = .error .notANumber :=
      encodeOver_nan (by decide) ht
    rw [hcode, error_bind]
  | false =>
    have hcode : encodeOver standardRom standardRom.tRange o.torque = .ok (codeOver tRange o.torque) :=
      encodeOver_ok (by decide) ht
    rw [hcode, ok_bind, controlEncode_nan fun hp => hnan ⟨ht, hp⟩, error_bind]

theorem buildReadParam_ok {e : RegEntry} (h : o.targetId.toNat ≤ 255) (he : e ∈ catalogue) (hi : o.index = e.index) :
    buildReadParam standardRom o = .ok
      (hostRequest 17 o.targetId.toNat (lowByte 32 o.hostId) (readIndex o.index)) := by
  rw [buildReadParam, checkTarget_bind_ok h, hi, lookupIndex_standard he, ok_bind, readPayload_eq]
  rfl

/-- An index of no entry, as the lookup of the standard tables takes it. -/
theorem not_in_regcat {index : U16} (hi : ∀ e ∈ catalogue, index ≠ e.index) :
    ∀ e ∈ standardRom.regcat, e.index ≠ index := fun e he => (hi e he).symm

theorem buildReadParam_unknown (h : o.targetId.toNat ≤ 255) (hi : ∀ e ∈ catalogue, o.index ≠ e.index) :
    buildReadParam standardRom o = .error .unknownRegister := by
  rw [buildReadParam, checkTarget_bind_ok h, lookupIndex_error.2 ⟨not_in_regcat hi, rfl⟩, error_bind]

/-- BUILD.18 of a catalogued index puts the field of the register's kind in the payload, or fails as its encode function
does (R198). -/
theorem buildWriteParam_eq {e : RegEntry} (h : o.targetId.toNat ≤ 255) (he : e ∈ catalogue)
    (hi : o.index = e.index) :
    buildWriteParam standardRom o = encodeKind e.kind o.value >>= fun f =>
      .ok (hostRequest 18 o.targetId.toNat (lowByte 32 o.hostId) (writeField o.index f)) := by
  rw [buildWriteParam, checkTarget_bind_ok h, hi, regEncode_standard he]
  simp only [writePayload_eq]
  rfl

theorem buildWriteParam_ok {e : RegEntry} {f : Bytes4} (h : o.targetId.toNat ≤ 255) (he : e ∈ catalogue)
    (hi : o.index = e.index) (hf : FieldOf e.kind o.value f) :
    buildWriteParam standardRom o = .ok
      (hostRequest 18 o.targetId.toNat (lowByte 32 o.hostId) (writeField o.index f)) := by
  rw [buildWriteParam_eq h he hi, encodeKind_ok.2 hf, ok_bind]

theorem buildWriteParam_nan {e : RegEntry} (h : o.targetId.toNat ≤ 255) (he : e ∈ catalogue)
    (hi : o.index = e.index) (hv : isNaN o.value = true) : buildWriteParam standardRom o = .error .notANumber := by
  rw [buildWriteParam_eq h he hi, encodeKind_nan _ hv, error_bind]

theorem buildWriteParam_unrepresentable {e : RegEntry} (h : o.targetId.toNat ≤ 255) (he : e ∈ catalogue)
    (hi : o.index = e.index) (hv : isNaN o.value = false) (hf : ∀ f, ¬ FieldOf e.kind o.value f) :
    buildWriteParam standardRom o = .error .unrepresentable := by
  rw [buildWriteParam_eq h he hi, encodeKind_unrepresentable hv hf, error_bind]

theorem buildWriteParam_unknown (h : o.targetId.toNat ≤ 255) (hi : ∀ e ∈ catalogue, o.index ≠ e.index) :
    buildWriteParam standardRom o = .error .unknownRegister := by
  rw [buildWriteParam, checkTarget_bind_ok h, regEncode_unknown (not_in_regcat hi), error_bind]

end Builders

/-! ### The frame of a built message (R63, R200) -/

/-- Each builder's mode is one that an identifier can carry, so WRAP of its message succeeds. -/
theorem wrapBuilt_messageFrame {built : Except Failure RawMessage} {m : RawMessage} (hb : built = .ok m)
    (hwf : Yields RawMessage.wf built) : wrapBuilt standardRom built = .ok (messageFrame m) := by
  have hm : m.commandMode.toNat ≤ 31 := of_decide_eq_true (hwf m hb)
  rw [hb, wrapBuilt_ok hm, frameBytes_eq_frameOf, identifierWord_toNat hm]
  rfl

/-! ### The ids of an identifier word (R66 to R73; log entry 3) -/

theorem wordOperands_target (aux : U16) (node : U8) (o : Operands) :
    (wordOperands aux node o).targetId.toNat = node.toNat := node_setWidth_toNat node

theorem wordOperands_target_le (aux : U16) (node : U8) (o : Operands) :
    (wordOperands aux node o).targetId.toNat ≤ 255 := by
  rw [wordOperands_target]
  exact Nat.le_of_lt_succ node.isLt

theorem lowByte_aux (aux : U16) : lowByte 32 aux.toNat = aux.toNat % 256 :=
  Nat.mod_mod_of_dvd _ (Nat.pow_dvd_pow 2 (by decide : 8 ≤ 32))

/-- The message of a request row: node_id the word's, aux_field the low byte of the word's. -/
theorem hostRequest_word (mode : U8) (aux : U16) (node : U8) (o : Operands) (p : Bytes8) :
    hostRequest mode (wordOperands aux node o).targetId.toNat (lowByte 32 (wordOperands aux node o).hostId) p =
      hostRequest mode node.toNat (aux.toNat % 256) p := by
  rw [wordOperands_target]
  exact congrArg (fun host => hostRequest mode node.toNat host p) (lowByte_aux aux)

/-- The message of the SetId row carries the word's aux_field whole (R71). -/
theorem setIdRequest_word (aux : U16) (node : U8) :
    setIdRequest node.toNat (lowByte 32 (aux.toNat / 256)) (lowByte 32 aux.toNat) =
      { commandMode := 7, auxField := aux, nodeId := node, payload := ⟨0, 0, 0, 0, 0, 0, 0, 0⟩ } := by
  have := aux.isLt
  have haux : BitVec.ofNat 16 (lowByte 32 (aux.toNat / 256) * 256 + lowByte 32 aux.toNat) = aux := by
    apply BitVec.eq_of_toNat_eq
    rw [BitVec.toNat_ofNat, lowByte, lowByte]
    omega
  rw [setIdRequest, haux, BitVec.ofNat_toNat, BitVec.setWidth_eq]

end Sys2Proof.Proofs
end

section
/-!
SUPPORT. What the parsers give, in the statements' words: the response of each mode, and the two ways a message of one
of the four modes is refused (R222 to R236).
-/

namespace Sys2Proof.Proofs

open Sys2Proof.Machine Sys2Proof.Claims

/-! ### Mode 0 (R222) -/

/-- The sentinel check under the standard tables. -/
theorem parseId_standard (m : RawMessage) :
    parseId standardRom m =
      if m.nodeId ≠ 0xFE then .error .modeMismatch else .ok { id := m.auxField, mcuUid := m.payload } := rfl

theorem parseMessage_id {m : RawMessage} (hm : m.commandMode = 0) (hn : m.nodeId = 0xFE) :
    parseMessage standardRom m = .ok (.id { id := m.auxField, mcuUid := m.payload }) := by
  rw [parseMessage, if_pos hm, parseId_standard, if_neg (not_not.2 hn)]
  rfl

theorem parseMessage_mismatch {m : RawMessage} (hm : m.commandMode = 0) (hn : m.nodeId ≠ 0xFE) :
    parseMessage standardRom m = .error .modeMismatch := by
  rw [parseMessage, if_pos hm, parseId_standard, if_pos hn]
  rfl

/-! ### Mode 2 (R223 to R228) -/

theorem runPhase_eq_phaseOf (aux : U16) : runPhase standardRom aux = phaseOf (aux.toNat / 2 ^ 14) := by
  rw [runPhase_eq]
  generalize aux.toNat / 2 ^ 14 = n
  match n with
  | 0 | 1 | 2 => rfl
  | k + 3 => simp [phaseOf]

theorem statusFlags_eq (aux : U16) :
    statusFlags standardRom aux =
      { undervoltage := aux.getLsbD 8, overcurrent := aux.getLsbD 9, overheat := aux.getLsbD 10
        magnetic := aux.getLsbD 11, hall := aux.getLsbD 12, undefined := aux.getLsbD 13 } := by
  simp only [statusFlags, standardRom, parseConst, statusFlagMap, auxFlag_eq aux (by decide : 8 < 16),
    auxFlag_eq aux (by decide : 9 < 16), auxFlag_eq aux (by decide : 10 < 16), auxFlag_eq aux (by decide : 11 < 16),
    auxFlag_eq aux (by decide : 12 < 16), auxFlag_eq aux (by decide : 13 < 16)]

/-- QDEC of a 16-bit code over a range is R103's value at `M(2)`. -/
theorem decodeBinary64_two (raw : Nat) (lo hi : F64) : decodeBinary64 2 raw lo hi = scaled 65535 raw lo hi := rfl

theorem parseStatus_eq (m : RawMessage) :
    parseStatus standardRom m = .ok (statusOf m.auxField m.nodeId m.payload) := by
  rw [parseStatus_standard, auxTarget_eq, runPhase_eq_phaseOf, statusFlags_eq, temperature]
  simp only [decodeBinary64_two, le16_toNat_eq]
  rfl

theorem parseMessage_status {m : RawMessage} (hm : m.commandMode = 2) :
    parseMessage standardRom m = .ok (.status (statusOf m.auxField m.nodeId m.payload)) := by
  rw [parseMessage, hm, if_neg (by decide), if_pos rfl, parseStatus_eq]
  rfl

/-! ### Mode 17 (R229) -/

/-- The index bytes of a payload are those of an entry exactly as numbers. -/
theorem le16_eq_iff {b0 b1 : Byte} {index : U16} : le16 b0 b1 = index ↔ number16 b0 b1 = index.toNat := by
  rw [← BitVec.toNat_inj, le16_toNat_eq]

theorem parseMessage_paramRead {m : RawMessage} {e : RegEntry} (hm : m.commandMode = 17) (he : e ∈ catalogue)
    (hi : number16 m.payload.b0 m.payload.b1 = e.index.toNat) :
    parseMessage standardRom m = .ok (.paramRead
      { hostId := m.nodeId, targetId := BitVec.ofNat 8 m.auxField.toNat, register := e
        value := decodeKind e.kind (valueField m.payload) }) := by
  rw [parseMessage, hm, if_neg (by decide), if_neg (by decide), if_pos rfl, parseParam, le16_eq_iff.2 hi,
    lookupIndex_standard he, ok_bind, regDecode_standard he, ok_bind, auxTarget_eq]
  rfl

theorem parseMessage_unknown {m : RawMessage} (hm : m.commandMode = 17)
    (hi : ∀ e ∈ catalogue, number16 m.payload.b0 m.payload.b1 ≠ e.index.toNat) :
    parseMessage standardRom m = .error .unknownRegister := by
  have hlookup : lookupIndex standardRom (le16 m.payload.b0 m.payload.b1) = .error .unknownRegister :=
    lookupIndex_error.2 ⟨not_in_regcat fun e he => mt le16_eq_iff.1 (hi e he), rfl⟩
  rw [parseMessage, hm, if_neg (by decide), if_neg (by decide), if_pos rfl, parseParam, hlookup, error_bind]
  rfl

/-! ### Mode 21 (R230 to R234) -/

theorem faultFlags_eq (ec : U32) : faultFlags standardRom ec = flagsOf ec.toNat := by
  have bit : ∀ b ≤ 31, bitIsSet ec b = ec.toNat.testBit b := fun b hb => bitIsSet_eq ec b hb
  simp only [faultFlags, standardRom, parseConst, faultBitMap, flagsOf, overload_eq, bit 0 (by decide),
    bit 1 (by decide), bit 2 (by decide), bit 3 (by decide), bit 7 (by decide), bit 14 (by decide), bit 15 (by decide),
    bit 16 (by decide)]

/-- A 32-bit number is 0 as a word exactly when it is 0 (R231). -/
theorem hasFault_eq (ec : U32) : hasFault ec = decide (ec.toNat ≠ 0) := by
  rw [hasFault, Bool.eq_iff_iff, bne_iff_ne, decide_eq_true_iff, ne_eq, ne_eq, ← BitVec.toNat_inj]
  rfl

theorem faultFlagsIfAny_eq (ec : U32) :
    faultFlagsIfAny standardRom ec = if ec.toNat = 0 then none else some (flagsOf ec.toNat) := by
  simp only [faultFlagsIfAny, hasFault_eq, faultFlags_eq, decide_eq_true_eq, ne_eq, ite_not]

theorem le32_toNat_eq (b0 b1 b2 b3 : Byte) : (le32 b0 b1 b2 b3).toNat = number32 b0 b1 b2 b3 := le32_toNat b0 b1 b2 b3

theorem parseFault_eq (m : RawMessage) : parseFault standardRom m = faultOf m.auxField m.nodeId m.payload := by
  simp only [parseFault, faultOf, errorCodeOf, warningCodeOf, auxTarget_eq, hasFault_eq, faultFlagsIfAny_eq,
    le32_toNat_eq]
  simp only [le32_eq_ofNat]

theorem parseMessage_fault {m : RawMessage} (hm : m.commandMode = 21) :
    parseMessage standardRom m = .ok (.fault (faultOf m.auxField m.nodeId m.payload)) := by
  rw [parseMessage, hm, if_neg (by decide), if_neg (by decide), if_neg (by decide), if_pos rfl, parseFault_eq]

end Sys2Proof.Proofs
end

section
/-!
The statements on RENC and the register rows, on the builders and their frames, on the parsers of modes 0 and 17, and on
the rows of the identifier words.
-/

namespace Sys2Proof.Proofs

open Sys2Proof.Machine Sys2Proof.Claims

/-- Settles O26: the index selects the encode function of the entry's kind. -/
theorem rencEncodesByKind : Obligations.RencEncodesByKind := by
  intro s o rest e f hs he hi hf
  refine gives_of_placed hs rfl ?_
  rw [hi, regEncode_standard he]
  exact encodeKind_ok.2 hf

/-- Settles O30: a row is the encode function of the kind of its index's entry. -/
theorem registerRowsEncode : Obligations.RegisterRowsEncode := by
  intro r s o rest i e hr hs he hi
  have hop := operation_registerRow (rom := { standardRom with regIndex := r }) hi o
  have hkind := regEncode_lawful (rom := { standardRom with regIndex := r }) hr he o.value
  exact ⟨fun f hf => gives_of_placed hs hop (hkind.trans (encodeKind_ok.2 hf)),
    fun hv => refuses_of_placed hs hop (hkind.trans (encodeKind_nan _ hv)),
    fun hv hf => refuses_of_placed hs hop (hkind.trans (encodeKind_unrepresentable hv hf))⟩

/-- Settles O31: each builder checks the target and then gives its message. -/
theorem buildHostRequests : Obligations.BuildHostRequests := by
  intro w s o rest hs
  refine ⟨fun h => ⟨gives_of_placed hs rfl (buildIdQuery_ok h), gives_of_placed hs rfl (buildEnable_ok h),
    gives_of_placed hs rfl (buildDisable_ok h), gives_of_placed hs rfl (buildSetZero_ok h),
    gives_of_placed hs rfl (buildSetId_ok h)⟩, fun h => ?_⟩
  exact ⟨refuses_of_placed hs rfl (checkTarget_bind_error h _), refuses_of_placed hs rfl (checkTarget_bind_error h _),
    refuses_of_placed hs rfl (checkTarget_bind_error h _), refuses_of_placed hs rfl (checkTarget_bind_error h _),
    refuses_of_placed hs rfl (checkTarget_bind_error h _)⟩

/-- Settles O32: the target is checked, then the torque, then the payload's values. -/
theorem buildControlRequest : Obligations.BuildControlRequest := fun _ _ _ hs =>
  ⟨fun h ht hp => gives_of_placed hs rfl (buildControl_ok h ht hp),
    fun h => refuses_of_placed hs rfl (checkTarget_bind_error h _),
    fun h hnan => refuses_of_placed hs rfl (buildControl_nan h hnan)⟩

/-- Settles O33: the target is checked, then the index, then for BUILD.18 the value. -/
theorem buildParamRequests : Obligations.BuildParamRequests := by
  intro s o rest hs
  refine ⟨fun h e he hi => ⟨?_, fun f hf => ?_, fun hv => ?_, fun hv hf => ?_⟩, fun h hi => ⟨?_, ?_⟩,
    fun h => ⟨?_, ?_⟩⟩
  · exact gives_of_placed hs rfl (buildReadParam_ok h he hi)
  · exact gives_of_placed hs rfl (buildWriteParam_ok h he hi hf)
  · exact refuses_of_placed hs rfl (buildWriteParam_nan h he hi hv)
  · exact refuses_of_placed hs rfl (buildWriteParam_unrepresentable h he hi hv hf)
  · exact refuses_of_placed hs rfl (buildReadParam_unknown h hi)
  · exact refuses_of_placed hs rfl (buildWriteParam_unknown h hi)
  · exact refuses_of_placed hs rfl (checkTarget_bind_error h _)
  · exact refuses_of_placed hs rfl (checkTarget_bind_error h _)

/-- Settles O34: the frame of what the builder gives. -/
theorem txHostRequests : Obligations.TxHostRequests := fun _ _ _ hs h =>
  ⟨gives_of_placed hs rfl (wrapBuilt_messageFrame (buildIdQuery_ok h) (buildIdQuery_yields_wf _ _)),
    gives_of_placed hs rfl (wrapBuilt_messageFrame (buildEnable_ok h) (buildEnable_yields_wf _ _)),
    gives_of_placed hs rfl (wrapBuilt_messageFrame (buildDisable_ok h) (buildDisable_yields_wf _ _)),
    gives_of_placed hs rfl (wrapBuilt_messageFrame (buildSetZero_ok h) (buildSetZero_yields_wf _ _)),
    gives_of_placed hs rfl (wrapBuilt_messageFrame (buildSetId_ok h) (buildSetId_yields_wf _ _))⟩

/-- Settles O35, as O34 for the builders that can fail after the target check. -/
theorem txControlAndParamRequests : Obligations.TxControlAndParamRequests := by
  intro s o rest hs h
  refine ⟨fun ht hp => ?_, fun e he hi => ⟨?_, fun f hf => ?_⟩⟩
  · exact gives_of_placed hs rfl (wrapBuilt_messageFrame (buildControl_ok h ht hp) (buildControl_yields_wf _ _))
  · exact gives_of_placed hs rfl (wrapBuilt_messageFrame (buildReadParam_ok h he hi) (buildReadParam_yields_wf _ _))
  · exact gives_of_placed hs rfl
      (wrapBuilt_messageFrame (buildWriteParam_ok h he hi hf) (buildWriteParam_yields_wf _ _))

/-- Settles O37, by the sentinel check of mode 0. -/
theorem parseIdResponse : Obligations.ParseIdResponse := fun _ _ _ hs hm =>
  ⟨fun hn => gives_of_placed hs rfl (parseMessage_id hm hn),
    fun hn => refuses_of_placed hs rfl (parseMessage_mismatch hm hn)⟩

/-- Settles O39: the entry of the index, and what its kind decodes from the value field. -/
theorem parseParamReadResponse : Obligations.ParseParamReadResponse := fun _ _ _ hs hm =>
  ⟨fun _ he hi => ⟨_, gives_of_placed hs rfl (parseMessage_paramRead hm he hi), decodes_decodeKind _ _⟩,
    fun hi => refuses_of_placed hs rfl (parseMessage_unknown hm hi)⟩

/-- Settles O44: each row is its builder on the ids of the word, which pass the target check. -/
theorem messageRowsBuild : Obligations.MessageRowsBuild := by
  intro s o rest aux node hs
  have target := wordOperands_target_le aux node o
  have word := fun mode p => hostRequest_word mode aux node o p
  refine ⟨?_, ?_, ?_, ?_, ?_, fun hp => ?_, fun hp => ?_,
    fun e he hi => ⟨?_, fun f hf => ?_, fun hv => ?_, fun hv hf => ?_⟩, fun hi => ⟨?_, ?_⟩⟩
  · rw [← word]
    exact gives_of_placed hs rfl (buildIdQuery_ok target)
  · rw [← word]
    exact gives_of_placed hs rfl (buildEnable_ok target)
  · rw [← word]
    exact gives_of_placed hs rfl (buildDisable_ok target)
  · rw [← word]
    exact gives_of_placed hs rfl (buildSetZero_ok target)
  · rw [← setIdRequest_word, ← wordOperands_target aux node o]
    exact gives_of_placed hs rfl (buildSetId_ok (o := setIdOperands aux node o) target)
  · exact gives_of_placed hs rfl (by rw [wordControl, controlEncode_ok hp, ok_bind])
  · exact refuses_of_placed hs rfl (by rw [wordControl, controlEncode_nan hp, error_bind])
  · rw [← word]
    exact gives_of_placed hs rfl (buildReadParam_ok target he hi)
  · rw [← word]
    exact gives_of_placed hs rfl (buildWriteParam_ok target he hi hf)
  · exact refuses_of_placed hs rfl (buildWriteParam_nan target he hi hv)
  · exact refuses_of_placed hs rfl (buildWriteParam_unrepresentable target he hi hv hf)
  · exact refuses_of_placed hs rfl (buildReadParam_unknown target hi)
  · exact refuses_of_placed hs rfl (buildWriteParam_unknown target hi)

/-- Settles O45: each row is the parser of its mode on the word's fields. -/
theorem messageRowsParse : Obligations.MessageRowsParse := by
  intro s o rest aux node hs
  refine ⟨?_, fun hn => ?_, ?_, ?_, fun e he hi => ?_, fun hi => ?_⟩
  · exact gives_of_placed hs rfl (parseMessage_id (m := wordMessage 0 aux 0xFE o) rfl rfl)
  · exact refuses_of_placed hs rfl (parseMessage_mismatch rfl hn)
  · exact gives_of_placed hs rfl (parseMessage_status (m := wordMessage 2 aux node o) rfl)
  · exact gives_of_placed hs rfl (parseMessage_fault (m := wordMessage 21 aux node o) rfl)
  · exact ⟨_, gives_of_placed hs rfl (parseMessage_paramRead (m := wordMessage 17 aux node o) rfl he hi),
      decodes_decodeKind _ _⟩
  · exact refuses_of_placed hs rfl (parseMessage_unknown (m := wordMessage 17 aux node o) rfl hi)

end Sys2Proof.Proofs
end

section
/-!
SUPPORT. Everything QENC and QDEC answer of an admitted width (R101, R108), as the statements say it; the operations that
a word names of a width without a row; and the codes of the two rows as numbers.
-/

namespace Sys2Proof.Proofs

open Sys2Proof.Machine Sys2Proof.Claims

/-! ### The outcomes of an admitted width (R101, R108) -/

theorem badRange_eq_true {lo hi : F64} (h : ¬ GoodRange lo hi) : badRange lo hi = true := by
  rwa [GoodRange, ← badRange_eq_false, Bool.not_eq_false] at h

section Outcomes

variable {rom : Rom} {w raw : Nat} {value lo hi : F64}

theorem quantEncode_badRange (hw : w ∈ rom.qwidths) (value : F64) (hr : ¬ GoodRange lo hi) :
    quantEncode rom w value lo hi = .error .badRange := by
  rw [quantEncode_admitted hw, if_pos (badRange_eq_true hr)]

theorem quantDecode_badRange (hw : w ∈ rom.qwidths) (raw : Nat) (hr : ¬ GoodRange lo hi) :
    quantDecode rom w raw lo hi = .error .badRange := by
  rw [quantDecode_admitted hw, if_pos (badRange_eq_true hr)]

theorem quantEncode_nan (hw : w ∈ rom.qwidths) (hr : GoodRange lo hi) (hv : isNaN value = true) :
    quantEncode rom w value lo hi = .error .notANumber := by
  rw [quantEncode_admitted hw, badRange_eq_false.2 hr, if_neg Bool.false_ne_true, if_pos hv]

theorem quantDecode_tooLarge (hw : w ∈ rom.qwidths) (hr : GoodRange lo hi) (hraw : maxCode w < raw) :
    quantDecode rom w raw lo hi = .error .fieldRange := by
  rw [quantDecode_admitted hw, badRange_eq_false.2 hr, if_neg Bool.false_ne_true, if_pos hraw]

theorem quantEncode_binary64 (hw : w ∈ rom.qwidths) (harith : rom.quantArith = .binary64) (hr : GoodRange lo hi)
    (hv : isNaN value = false) : quantEncode rom w value lo hi = .ok (encodeBinary64 w value lo hi) := by
  rw [quantEncode_admitted hw, badRange_eq_false.2 hr, if_neg Bool.false_ne_true, hv, if_neg Bool.false_ne_true,
    harith]

theorem quantEncode_exactReal (hw : w ∈ rom.qwidths) (harith : rom.quantArith = .exactReal) (hr : GoodRange lo hi)
    (hv : isNaN value = false) : quantEncode rom w value lo hi = .ok (encodeExact w value lo hi) := by
  rw [quantEncode_admitted hw, badRange_eq_false.2 hr, if_neg Bool.false_ne_true, hv, if_neg Bool.false_ne_true,
    harith]

theorem quantDecode_binary64 (hw : w ∈ rom.qwidths) (harith : rom.quantArith = .binary64) (hr : GoodRange lo hi)
    (hraw : raw ≤ maxCode w) : quantDecode rom w raw lo hi = .ok (.num (decodeBinary64 w raw lo hi)) := by
  rw [quantDecode_admitted hw, badRange_eq_false.2 hr, if_neg Bool.false_ne_true, if_neg (Nat.not_lt.2 hraw), harith]

theorem quantDecode_exactReal (hw : w ∈ rom.qwidths) (harith : rom.quantArith = .exactReal) (hr : GoodRange lo hi)
    (hraw : raw ≤ maxCode w) : quantDecode rom w raw lo hi = .ok (.exact (decodeExact w raw lo hi)) := by
  rw [quantDecode_admitted hw, badRange_eq_false.2 hr, if_neg Bool.false_ne_true, if_neg (Nat.not_lt.2 hraw), harith]

end Outcomes

/-- QENC of the table's widths under the standard parameters. -/
theorem quantEncode_good {w : Nat} (hw : w = 1 ∨ w = 2) {value lo hi : F64} (hr : GoodRange lo hi)
    (hv : isNaN value = false) : quantEncode standardRom w value lo hi = .ok (encodeBinary64 w value lo hi) :=
  quantEncode_binary64 (rom := standardRom) (by rcases hw with rfl | rfl <;> decide) rfl hr hv

/-- QDEC of the table's widths under the standard parameters. -/
theorem quantDecode_good {w raw : Nat} (hw : w = 1 ∨ w = 2) {lo hi : F64} (hr : GoodRange lo hi)
    (hraw : raw ≤ maxCode w) : quantDecode standardRom w raw lo hi = .ok (.num (decodeBinary64 w raw lo hi)) :=
  quantDecode_binary64 (rom := standardRom) (by rcases hw with rfl | rfl <;> decide) rfl hr hraw

/-! ### What is answered on what is loaded -/

section Loaded

variable {rom : Rom} {s : State} {o : Operands} {rest : List Request}

/-- An operation named by a word, a row or not, that succeeds on what is loaded gives its result. -/
theorem perform_completes {op : Operation} {r : Result} (h : LoadedWith rom s o rest)
    (hop : wordOperation op rom o = .ok r) : perform op s = .next (replied s rest (.ok r)) := by
  obtain ⟨rfl, a, hreq, rfl⟩ := h
  rw [perform_eq_transact, transact_cons _ hreq, conclude_eq_replied hreq, hop, outcomeResponse]

/-- An operation named by a word, a row or not, that fails on what is loaded is refused with its status. -/
theorem perform_fails {op : Operation} {f : Failure} (h : LoadedWith rom s o rest)
    (hop : wordOperation op rom o = .error f) : perform op s = .next (replied s rest (.fail f)) := by
  obtain ⟨rfl, a, hreq, rfl⟩ := h
  rw [perform_eq_transact, transact_cons _ hreq, conclude_eq_replied hreq, hop, outcomeResponse]

/-! QENC and QDEC of a width without a row (R83). -/

section Widths

variable {w : U8}

theorem execQencWidth_completes {n : Nat} (h : LoadedWith rom s o rest)
    (hcode : quantEncode rom w.toNat o.value o.lo o.hi = .ok n) :
    execQencWidth w s = .next (replied s rest (.ok (.raw w.toNat n))) :=
  perform_completes (op := .qencWidth w) h (placed_eq_ok.2 ⟨n, hcode, rfl⟩)

theorem execQencWidth_fails {f : Failure} (h : LoadedWith rom s o rest)
    (hcode : quantEncode rom w.toNat o.value o.lo o.hi = .error f) :
    execQencWidth w s = .next (replied s rest (.fail f)) :=
  perform_fails (op := .qencWidth w) h (placed_eq_error.2 hcode)

theorem execQdecWidth_completes {q : Quantity} (h : LoadedWith rom s o rest)
    (hvalue : quantDecode rom w.toNat o.raw.toNat o.lo o.hi = .ok q) :
    execQdecWidth w s = .next (replied s rest (.ok (.quantity q))) :=
  perform_completes (op := .qdecWidth w) h (placed_eq_ok.2 ⟨q, hvalue, rfl⟩)

theorem execQdecWidth_fails {f : Failure} (h : LoadedWith rom s o rest)
    (hvalue : quantDecode rom w.toNat o.raw.toNat o.lo o.hi = .error f) :
    execQdecWidth w s = .next (replied s rest (.fail f)) :=
  perform_fails (op := .qdecWidth w) h (placed_eq_error.2 hvalue)

end Widths

theorem gives_qenc1 {n : Nat} (hs : LoadedWith rom s o rest) (hcode : quantEncode rom 1 o.value o.lo o.hi = .ok n) :
    Gives .qenc1 s rest (.raw8 (BitVec.ofNat 8 n)) :=
  gives_of_operation hs (by rw [operation, hcode, placed_ok])

theorem gives_qenc2 {n : Nat} (hs : LoadedWith rom s o rest) (hcode : quantEncode rom 2 o.value o.lo o.hi = .ok n) :
    Gives .qenc2 s rest (.raw16 (BitVec.ofNat 16 n)) :=
  gives_of_operation hs (by rw [operation, hcode, placed_ok])

/-- A code of at most `M(1)` fits the byte that QENC.1 answers with. -/
theorem exists_gives_qenc1 {n : Nat} (hs : LoadedWith rom s o rest)
    (hcode : quantEncode rom 1 o.value o.lo o.hi = .ok n) (hn : n ≤ maxCode 1) :
    ∃ code : U8, Gives .qenc1 s rest (.raw8 code) ∧ code.toNat = n :=
  ⟨_, gives_qenc1 hs hcode, Nat.mod_eq_of_lt (Nat.lt_succ_of_le hn)⟩

/-- A code of at most `M(2)` fits the two bytes that QENC.2 answers with. -/
theorem exists_gives_qenc2 {n : Nat} (hs : LoadedWith rom s o rest)
    (hcode : quantEncode rom 2 o.value o.lo o.hi = .ok n) (hn : n ≤ maxCode 2) :
    ∃ code : U16, Gives .qenc2 s rest (.raw16 code) ∧ code.toNat = n :=
  ⟨_, gives_qenc2 hs hcode, Nat.mod_eq_of_lt (Nat.lt_succ_of_le hn)⟩

end Loaded

/-- The widths 1 to 6 have an `M(w)` that binary64 holds (R100). -/
theorem maxCode_lt {w : Nat} (hw : w ≤ 6) : maxCode w < 2 ^ 53 := by
  have : 2 ^ (8 * w) ≤ 2 ^ 48 := Nat.pow_le_pow_right (by decide) (by omega)
  unfold maxCode
  omega

theorem maxCode_pos {w : Nat} (hw : 1 ≤ w) : 0 < maxCode w := by
  have : 2 ^ 8 ≤ 2 ^ (8 * w) := Nat.pow_le_pow_right (by decide) (by omega)
  unfold maxCode
  omega

end Sys2Proof.Proofs
end

section
/-!
SUPPORT. The steps of QENC and QDEC at the ends of a range and over a range whose width overflows: an exact result is
not rounded, so `d = s` gives the ratio 1 and `d = 0` the ratio 0 (R102, R103); and that each step of QENC keeps the
order of the values (R104).
-/

namespace Sys2Proof.Proofs

open Sys2Proof.Machine Sys2Proof.Claims

/-! ### Exact results -/

/-- A result that binary64 holds is not rounded. -/
theorem roundedTo64_exact {u : Rat} {x a : F64} (h : RoundedTo64 u x) (ha : isFinite a = true) (hu : u = f64Rat a) :
    isFinite x = true ∧ f64Rat x = u := by
  obtain ⟨hfin, hge, hle⟩ := roundedTo64_between h ha ha hu.ge hu.le
  exact ⟨hfin, (le_antisymm hle hge).trans hu.symm⟩

/-- A natural number below `2^53` is not rounded. -/
theorem roundedTo64_natCast {n : Nat} {u : Rat} {x : F64} (h : RoundedTo64 u x) (hn : n < 2 ^ 53) (hu : u = n) :
    isFinite x = true ∧ f64Rat x = u := by
  obtain ⟨hfin, hval⟩ := f64Rat_f64OfNat hn
  exact roundedTo64_exact h hfin (hu.trans hval.symm)

theorem f64Floor_eq_floor (x : F64) : f64Floor x = ⌊f64Rat x⌋ := by
  rw [f64Rat_eq_units_div, Rat.floor_intCast_div_natCast, f64Floor]

/-- The quotient of a finite value and an infinity is a zero. -/
theorem f64Div_inf {x y : F64} (hx : isFinite x = true) (hy : isInf y = true) :
    f64Div x y = f64Of (f64Neg x != f64Neg y) 0 := by
  have hnan : isNaN y = false := by
    rw [isNaN, beq_iff_eq.1 hy]
    simp
  simp [f64Div, not_isNaN_of_finite hx, not_isInf_of_finite hx, hnan, hy]

/-- The quotient of two infinities is no number, nor is its product with anything. -/
theorem isNaN_f64Mul_f64Div_inf {x y : F64} (z : F64) (hx : isInf x = true) (hy : isInf y = true) :
    isNaN (f64Mul (f64Div x y) z) = true := by
  have hdiv : isNaN (f64Div x y) = true := by
    rw [f64Div]
    simp only [hx, hy, if_true]
    split <;> exact isNaN_nan64 _
  rw [f64Mul, hdiv]
  exact isNaN_nan64 _

theorem f64Rat_f64Of_zero (neg : Bool) : isFinite (f64Of neg 0) = true ∧ f64Rat (f64Of neg 0) = 0 := by
  refine ⟨isFinite_f64Of neg (by decide), ?_⟩
  rw [f64Rat_eq_formatRat, f64Mag_f64Of neg (by decide), formatRat, magUnits_zero, Nat.cast_zero, zero_div,
    signedRat_zero]

/-- Differences from the same value of two values that are equal as numbers and differ from it are the same pattern. -/
theorem f64Sub_congr {x x' y : F64} (hx : isFinite x = true) (hx' : isFinite x' = true) (hy : isFinite y = true)
    (h : f64Units x = f64Units x') (hne : f64Units x ≠ f64Units y) : f64Sub x y = f64Sub x' y := by
  have hsum : f64Units x' + -f64Units y ≠ 0 := by omega
  rw [f64Sub_finite hx hy, f64Sub_finite hx' hy]
  simp only [addFinite, f64Units_f64Negate, h, if_neg hsum]

/-! ### The clamped value (R102) -/

section Encode

variable {w : Nat} {value value' lo hi : F64}

theorem f64Lt_iff_key {x y : F64} (hx : isNaN x = false) (hy : isNaN y = false) :
    f64Lt x y = true ↔ f64Key x < f64Key y := by
  simp [f64Lt, hx, hy]

theorem f64Le_iff_key {x y : F64} :
    f64Le x y = true ↔ isNaN x = false ∧ isNaN y = false ∧ f64Key x ≤ f64Key y := by
  simp [f64Le, and_assoc]

theorem not_isNaN_left {x y : F64} (h : f64Le x y = true) : isNaN x = false := (f64Le_iff_key.1 h).1

theorem not_isNaN_right {x y : F64} (h : f64Le x y = true) : isNaN y = false := (f64Le_iff_key.1 h).2.1

theorem f64Units_lo_lt_hi (hr : GoodRange lo hi) : f64Units lo < f64Units hi := by
  obtain ⟨hlo, hhi, hlt⟩ := hr
  exact (f64Lt_finite hlo hhi).1 hlt

theorem f64Key_lo_lt_hi (hr : GoodRange lo hi) : f64Key lo < f64Key hi := f64Units_lt.1 (f64Units_lo_lt_hi hr)

theorem f64Rat_lo_lt_hi (hr : GoodRange lo hi) : f64Rat lo < f64Rat hi := by
  rw [f64Rat_eq_units_div, f64Rat_eq_units_div, div_lt_div_iff_of_pos_right (Nat.cast_pos.2 one64_pos), Int.cast_lt]
  exact f64Units_lo_lt_hi hr

/-- A number is clamped to a finite value of the range. -/
theorem clamp_good (hr : GoodRange lo hi) (hv : isNaN value = false) :
    isFinite (clamp value lo hi) = true ∧ f64Units lo ≤ f64Units (clamp value lo hi) ∧
      f64Units (clamp value lo hi) ≤ f64Units hi := by
  obtain ⟨hlo, hhi, hlt⟩ := hr
  exact clamp_spec hv hlo hhi hlt

/-- Clamping cuts the value's place in the order at the two ends of the range. -/
theorem f64Key_clamp (hr : GoodRange lo hi) (hv : isNaN value = false) :
    f64Key (clamp value lo hi) = max (f64Key lo) (min (f64Key value) (f64Key hi)) := by
  have hkey := f64Key_lo_lt_hi hr
  obtain ⟨hlo, hhi, -⟩ := hr
  have below := f64Lt_iff_key hv (not_isNaN_of_finite hlo)
  have above := f64Lt_iff_key (not_isNaN_of_finite hhi) hv
  simp only [clamp, below, above]
  split
  · omega
  · split <;> omega

theorem f64Units_eq_of_key {x y : F64} (h : f64Key x = f64Key y) : f64Units x = f64Units y := by
  have hxy := @f64Units_lt x y
  have hyx := @f64Units_lt y x
  omega

/-- Clamping keeps the order. -/
theorem clamp_mono (hr : GoodRange lo hi) (hle : f64Le value value' = true) :
    f64Le (clamp value lo hi) (clamp value' lo hi) = true := by
  obtain ⟨hv, hv', hkey⟩ := f64Le_iff_key.1 hle
  refine f64Le_iff_key.2 ⟨not_isNaN_of_finite (clamp_good hr hv).1, not_isNaN_of_finite (clamp_good hr hv').1, ?_⟩
  rw [f64Key_clamp hr hv, f64Key_clamp hr hv']
  omega

/-- At or below `lo` the clamped value is `lo` as a number. -/
theorem f64Units_clamp_lo (hr : GoodRange lo hi) (hle : f64Le value lo = true) :
    f64Units (clamp value lo hi) = f64Units lo := by
  obtain ⟨hv, -, hkey⟩ := f64Le_iff_key.1 hle
  have hlt := f64Key_lo_lt_hi hr
  refine f64Units_eq_of_key ?_
  rw [f64Key_clamp hr hv]
  omega

/-- At or above `hi` the clamped value is `hi` as a number. -/
theorem f64Units_clamp_hi (hr : GoodRange lo hi) (hle : f64Le hi value = true) :
    f64Units (clamp value lo hi) = f64Units hi := by
  obtain ⟨-, hv, hkey⟩ := f64Le_iff_key.1 hle
  have hlt := f64Key_lo_lt_hi hr
  refine f64Units_eq_of_key ?_
  rw [f64Key_clamp hr hv]
  omega

/-- Within the range the clamped value is the value as a number. -/
theorem f64Units_clamp_mid (hr : GoodRange lo hi) (hlo : f64Le lo value = true) (hhi : f64Le value hi = true) :
    f64Units (clamp value lo hi) = f64Units value := by
  obtain ⟨-, hv, hkey⟩ := f64Le_iff_key.1 hlo
  obtain ⟨-, -, hkey'⟩ := f64Le_iff_key.1 hhi
  refine f64Units_eq_of_key ?_
  rw [f64Key_clamp hr hv]
  omega

/-! ### The code from the ratio (R102) -/

/-- Where the ratio times `M` is a natural number that binary64 holds, it is the code. -/
theorem encodeBinary64_of_ratio {n : Nat} (hw : maxCode w < 2 ^ 53) (hn : n < 2 ^ 53)
    (hratio : isFinite (f64Div (f64Sub (clamp value lo hi) lo) (f64Sub hi lo)) = true)
    (hcode : f64Rat (f64Div (f64Sub (clamp value lo hi) lo) (f64Sub hi lo)) * maxCode w = n) :
    encodeBinary64 w value lo hi = n := by
  obtain ⟨hM, hMval⟩ := f64Rat_f64OfNat hw
  obtain ⟨hfin, hval⟩ := roundedTo64_natCast (roundedTo64_f64Mul hratio hM) hn (by rw [hMval, hcode])
  have hfloor : f64Floor (encodeProduct w value lo hi) = n := by
    rw [f64Floor_eq_floor, encodeProduct, hval, hMval, hcode, Int.floor_natCast]
  simp only [encodeBinary64, show isFinite (encodeProduct w value lo hi) = true from hfin, if_true, hfloor,
    Int.toNat_natCast]

/-- A difference of finite values that is not negative and not finite is the infinity. -/
theorem isInf_f64Sub {x y : F64} (hx : isFinite x = true) (hy : isFinite y = true) (h : f64Units y ≤ f64Units x)
    (hover : isFinite (f64Sub x y) = false) : isInf (f64Sub x y) = true := by
  obtain ⟨hnan, -⟩ := rounded_sub hx hy h
  rcases f64_classes (f64Sub x y) with ⟨hn, -, -⟩ | ⟨-, hinf, -⟩ | ⟨-, -, hfin⟩
  · exact absurd hn (hnan ▸ Bool.false_ne_true)
  · exact hinf
  · exact absurd hfin (hover ▸ Bool.false_ne_true)

/-- Where only `hi -64 lo` overflows, the ratio and so the code is 0. -/
theorem encodeBinary64_wide_zero (hw : maxCode w < 2 ^ 53) (hr : GoodRange lo hi)
    (hwide : isFinite (f64Sub hi lo) = false) (hfin : isFinite (f64Sub (clamp value lo hi) lo) = true) :
    encodeBinary64 w value lo hi = 0 := by
  have ⟨hlo, hhi, _⟩ := hr
  have hinf := isInf_f64Sub hhi hlo (f64Units_lo_lt_hi hr).le hwide
  obtain ⟨hzero, hval⟩ := f64Rat_f64Of_zero (f64Neg (f64Sub (clamp value lo hi) lo) != f64Neg (f64Sub hi lo))
  rw [← f64Div_inf hfin hinf] at hzero hval
  exact encodeBinary64_of_ratio hw (by decide) hzero (by rw [hval, zero_mul, Nat.cast_zero])

/-- Where both differences overflow, the code is `M` from `hi` on and the free one below (log entry 9). -/
theorem encodeBinary64_wide_over (w : Nat) (hr : GoodRange lo hi) (hv : isNaN value = false)
    (hwide : isFinite (f64Sub hi lo) = false) (hover : isFinite (f64Sub (clamp value lo hi) lo) = false) :
    encodeBinary64 w value lo hi =
      if f64Le hi value then maxCode w else freeCode w (clamp value lo hi) lo hi := by
  have ⟨hlo, hhi, _⟩ := hr
  obtain ⟨hc, hge, -⟩ := clamp_good hr hv
  have hnan : isNaN (encodeProduct w value lo hi) = true :=
    isNaN_f64Mul_f64Div_inf _ (isInf_f64Sub hc hlo hge hover)
      (isInf_f64Sub hhi hlo (f64Units_lo_lt_hi hr).le hwide)
  have hfin : isFinite (encodeProduct w value lo hi) = false :=
    Bool.eq_false_iff.2 fun h => Bool.false_ne_true ((not_isNaN_of_finite h).symm.trans hnan)
  simp only [encodeBinary64, hfin, Bool.false_eq_true, if_false]

/-- The code is at most `M`, over every admitted range (R104). -/
theorem encodeBinary64_le (hw : maxCode w < 2 ^ 53) (hr : GoodRange lo hi) (hv : isNaN value = false) :
    encodeBinary64 w value lo hi ≤ maxCode w := by
  have ⟨hlo, hhi, hlt⟩ := hr
  cases hwide : isFinite (f64Sub hi lo) with
  | true => exact (encodeBinary64_spec hw hv hlo hhi hlt hwide).2
  | false =>
    cases hover : isFinite (f64Sub (clamp value lo hi) lo) with
    | true => exact (encodeBinary64_wide_zero hw hr hwide hover).trans_le (Nat.zero_le _)
    | false =>
      rw [encodeBinary64_wide_over w hr hv hwide hover]
      split
      · exact le_rfl
      · exact freeCode_le _ _ _ _

/-! ### The ends of the range (R102) -/

theorem f64Rat_ne_zero {x : F64} (h : 0 < f64Mag x) : f64Rat x ≠ 0 := by
  have hmag : 0 < magUnits 52 (f64Mag x) := (magUnits_lt (fb := 52) (a := 0)).2 h
  rw [← abs_pos, f64Rat_eq_formatRat, formatRat, abs_signedRat, abs_pos]
  exact (div_pos (Nat.cast_pos.2 hmag) (Nat.cast_pos.2 one64_pos)).ne'

theorem width_ne_zero (hr : GoodRange lo hi) (hwide : isFinite (f64Sub hi lo) = true) : f64Rat (f64Sub hi lo) ≠ 0 := by
  have ⟨hlo, hhi, hlt⟩ := hr
  obtain ⟨-, -, hpos, -⟩ := encode_ratio (not_isNaN_of_finite hlo) hlo hhi hlt hwide
  exact f64Rat_ne_zero hpos

/-- At or below `lo` the difference is 0, so the ratio and the code are. -/
theorem encodeBinary64_lo (hw : maxCode w < 2 ^ 53) (hr : GoodRange lo hi) (hle : f64Le value lo = true) :
    encodeBinary64 w value lo hi = 0 := by
  have ⟨hlo, _, _⟩ := hr
  have hv := not_isNaN_left hle
  obtain ⟨hc, -, -⟩ := clamp_good hr hv
  have hdiff : f64Rat (clamp value lo hi) - f64Rat lo = 0 := by
    rw [f64Rat_eq_units_div, f64Units_clamp_lo hr hle, ← f64Rat_eq_units_div, sub_self]
  obtain ⟨dfin, dval⟩ := roundedTo64_natCast (n := 0) (roundedTo64_f64Sub hc hlo) (by decide) hdiff
  cases hwide : isFinite (f64Sub hi lo) with
  | false => exact encodeBinary64_wide_zero hw hr hwide dfin
  | true =>
    have hzero : f64Rat (f64Sub (clamp value lo hi) lo) / f64Rat (f64Sub hi lo) = 0 := by rw [dval, hdiff, zero_div]
    obtain ⟨rfin, rval⟩ := roundedTo64_natCast (n := 0) (roundedTo64_f64Div dfin hwide (width_ne_zero hr hwide))
      (by decide) hzero
    exact encodeBinary64_of_ratio hw (by decide) rfin (by rw [rval, hzero, zero_mul, Nat.cast_zero])

/-- At or above `hi` the difference is the width, so the ratio is 1 and the code `M`. -/
theorem encodeBinary64_hi (hw : maxCode w < 2 ^ 53) (hr : GoodRange lo hi) (hle : f64Le hi value = true) :
    encodeBinary64 w value lo hi = maxCode w := by
  have ⟨hlo, hhi, _⟩ := hr
  have hv := not_isNaN_right hle
  obtain ⟨hc, -, -⟩ := clamp_good hr hv
  have hlt := f64Units_lo_lt_hi hr
  have hunits := f64Units_clamp_hi hr hle
  have hdiff : f64Sub (clamp value lo hi) lo = f64Sub hi lo :=
    f64Sub_congr hc hhi hlo hunits (hunits.trans_ne hlt.ne')
  cases hwide : isFinite (f64Sub hi lo) with
  | false => rw [encodeBinary64_wide_over w hr hv hwide (hdiff ▸ hwide), if_pos hle]
  | true =>
    have hne := width_ne_zero hr hwide
    have hone : f64Rat (f64Sub hi lo) / f64Rat (f64Sub hi lo) = 1 := div_self hne
    obtain ⟨rfin, rval⟩ := roundedTo64_natCast (n := 1) (roundedTo64_f64Div hwide hwide hne) (by decide)
      (hone.trans Nat.cast_one.symm)
    refine encodeBinary64_of_ratio hw hw ?_ ?_
    · rw [hdiff]
      exact rfin
    · rw [hdiff, rval, hone, one_mul]

/-! ### Order (R104) -/

theorem magUnits_mono {fb a b : Nat} (h : a ≤ b) : magUnits fb a ≤ magUnits fb b :=
  Nat.le_of_not_lt fun hlt => absurd (magUnits_lt.1 hlt) (Nat.not_lt.2 h)

/-- The difference `c -64 lo` does not fall where the value rises, whatever the width of the range. -/
theorem difference_mono (hr : GoodRange lo hi) (hle : f64Le value value' = true) :
    f64Mag (f64Sub (clamp value lo hi) lo) ≤ f64Mag (f64Sub (clamp value' lo hi) lo) := by
  have ⟨hlo, _, _⟩ := hr
  have hv := not_isNaN_left hle
  have hv' := not_isNaN_right hle
  obtain ⟨hc, hge, -⟩ := clamp_good hr hv
  obtain ⟨hc', hge', -⟩ := clamp_good hr hv'
  have hclamp := (f64Le_finite hc hc').1 (clamp_mono hr hle)
  exact (rounded_sub hc hlo hge).mono (rounded_sub hc' hlo hge') Nat.one_pos Nat.one_pos (by omega)

/-- Over a range whose width is finite the product does not fall where the value rises. -/
theorem encodeProduct_mono (hw : maxCode w < 2 ^ 53) (hr : GoodRange lo hi) (hwide : isFinite (f64Sub hi lo) = true)
    (hle : f64Le value value' = true) :
    f64Mag (encodeProduct w value lo hi) ≤ f64Mag (encodeProduct w value' lo hi) := by
  have ⟨hlo, hhi, hlt⟩ := hr
  have hv := not_isNaN_left hle
  have hv' := not_isNaN_right hle
  obtain ⟨-, -, hpos, -, ratio, -⟩ := encode_ratio hv hlo hhi hlt hwide
  obtain ⟨-, -, -, -, ratio', -⟩ := encode_ratio hv' hlo hhi hlt hwide
  have hwidth : 0 < magUnits 52 (f64Mag (f64Sub hi lo)) := (magUnits_lt (fb := 52) (a := 0)).2 hpos
  have hratio := ratio.mono ratio' hwidth hwidth
    (Nat.mul_le_mul_right _ (Nat.mul_le_mul_right _ (magUnits_mono (difference_mono hr hle))))
  obtain ⟨prod, -, -⟩ := encodeProduct_spec hw hv hlo hhi hlt hwide
  obtain ⟨prod', -, -⟩ := encodeProduct_spec hw hv' hlo hhi hlt hwide
  exact prod.mono prod' one64_pos one64_pos
    (Nat.mul_le_mul_right _ (Nat.mul_le_mul_right _ (magUnits_mono hratio)))

/-- The floor keeps the order of values that are not negative. -/
theorem f64Floor_mono {x y : F64} (hx : 0 ≤ f64Key x) (hy : 0 ≤ f64Key y) (h : f64Mag x ≤ f64Mag y) :
    f64Floor x ≤ f64Floor y := by
  rw [f64Floor, f64Floor, f64Units_nonneg hx, f64Units_nonneg hy]
  exact Int.ediv_le_ediv (Int.natCast_pos.2 one64_pos) (Int.ofNat_le.2 (magUnits_mono h))

/-- The code does not fall where the value rises (R104), over every admitted range: where the width overflows, the
difference overflows from some value on, up to it the code is 0 and from it on free but for this property. -/
theorem encodeBinary64_mono (hw : maxCode w < 2 ^ 53) (hr : GoodRange lo hi) (hle : f64Le value value' = true) :
    encodeBinary64 w value lo hi ≤ encodeBinary64 w value' lo hi := by
  have ⟨hlo, hhi, hlt⟩ := hr
  have hv := not_isNaN_left hle
  have hv' := not_isNaN_right hle
  cases hwide : isFinite (f64Sub hi lo) with
  | true =>
    obtain ⟨hcode, -⟩ := encodeBinary64_spec hw hv hlo hhi hlt hwide
    obtain ⟨hcode', -⟩ := encodeBinary64_spec hw hv' hlo hhi hlt hwide
    obtain ⟨prod, -, -⟩ := encodeProduct_spec hw hv hlo hhi hlt hwide
    obtain ⟨prod', -, -⟩ := encodeProduct_spec hw hv' hlo hhi hlt hwide
    rw [← Int.ofNat_le, hcode, hcode']
    exact f64Floor_mono prod.nonneg prod'.nonneg (encodeProduct_mono hw hr hwide hle)
  | false =>
    cases hover : isFinite (f64Sub (clamp value lo hi) lo) with
    | true => exact (encodeBinary64_wide_zero hw hr hwide hover).trans_le (Nat.zero_le _)
    | false =>
      have hover' : isFinite (f64Sub (clamp value' lo hi) lo) = false := by
        have := difference_mono hr hle
        simp only [isFinite, decide_eq_false_iff_not] at hover ⊢
        omega
      have hfree := freeCode_mono w lo hi (clamp_mono hr hle)
      have hmax := freeCode_le w (clamp value lo hi) lo hi
      rw [encodeBinary64_wide_over w hr hv hwide hover, encodeBinary64_wide_over w hr hv' hwide hover']
      by_cases htop' : f64Le hi value' = true
      · rw [if_pos htop']
        split
        · exact le_rfl
        · exact hmax
      · rw [if_neg htop', if_neg fun htop => htop' (f64Le_trans htop hle)]
        exact hfree

end Encode

/-! ### The ends of QDEC (R103) -/

/-- Where the ratio, its product with the width and the sum with `lo` are all values that binary64 holds, QDEC rounds
nothing. -/
theorem decodeBinary64_exact {w raw : Nat} {lo hi ratio part v : F64} (hw : 0 < maxCode w) (hw53 : maxCode w < 2 ^ 53)
    (hraw : raw ≤ maxCode w) (hlo : isFinite lo = true) (hwidth : isFinite (f64Sub hi lo) = true)
    (hratio : isFinite ratio = true ∧ (raw : Rat) / maxCode w = f64Rat ratio)
    (hpart : isFinite part = true ∧ f64Rat ratio * f64Rat (f64Sub hi lo) = f64Rat part)
    (hv : isFinite v = true ∧ f64Rat part + f64Rat lo = f64Rat v) :
    isFinite (decodeBinary64 w raw lo hi) = true ∧ f64Rat (decodeBinary64 w raw lo hi) = f64Rat v := by
  obtain ⟨rawFin, rawVal⟩ := f64Rat_f64OfNat (hraw.trans_lt hw53)
  obtain ⟨topFin, topVal⟩ := f64Rat_f64OfNat hw53
  have htop : f64Rat (f64OfNat (maxCode w)) ≠ 0 := topVal.trans_ne (Nat.cast_ne_zero.2 hw.ne')
  obtain ⟨rFin, rVal⟩ := roundedTo64_exact (roundedTo64_f64Div rawFin topFin htop) hratio.1
    (by rw [rawVal, topVal, hratio.2])
  obtain ⟨pFin, pVal⟩ := roundedTo64_exact (roundedTo64_f64Mul rFin hwidth) hpart.1
    (by rw [rVal, rawVal, topVal, hratio.2, hpart.2])
  obtain ⟨vFin, vVal⟩ := roundedTo64_exact (roundedTo64_f64Add pFin hlo) hv.1
    (by rw [pVal, rVal, rawVal, topVal, hratio.2, hpart.2, hv.2])
  exact ⟨vFin, by rw [decodeBinary64, vVal, pVal, rVal, rawVal, topVal, hratio.2, hpart.2, hv.2]⟩

section Ends

variable {w : Nat} {lo hi : F64}

theorem decodeBinary64_zero (hw : 0 < maxCode w) (hw53 : maxCode w < 2 ^ 53) (hlo : isFinite lo = true)
    (hwidth : isFinite (f64Sub hi lo) = true) :
    isFinite (decodeBinary64 w 0 lo hi) = true ∧ f64Rat (decodeBinary64 w 0 lo hi) = f64Rat lo := by
  obtain ⟨zeroFin, zeroVal⟩ := f64Rat_f64OfNat (n := 0) (by decide)
  rw [Nat.cast_zero] at zeroVal
  refine decodeBinary64_exact hw hw53 (Nat.zero_le _) hlo hwidth ⟨zeroFin, ?_⟩ ⟨zeroFin, ?_⟩ ⟨hlo, ?_⟩
  · rw [zeroVal, Nat.cast_zero, zero_div]
  · rw [zeroVal, zero_mul]
  · rw [zeroVal, zero_add]

theorem decodeBinary64_maxCode (hw : 0 < maxCode w) (hw53 : maxCode w < 2 ^ 53) (hlo : isFinite lo = true)
    (hhi : isFinite hi = true) (hwidth : isFinite (f64Sub hi lo) = true)
    (hexact : f64Rat (f64Sub hi lo) = f64Rat hi - f64Rat lo) :
    isFinite (decodeBinary64 w (maxCode w) lo hi) = true ∧
      f64Rat (decodeBinary64 w (maxCode w) lo hi) = f64Rat hi := by
  obtain ⟨oneFin, oneVal⟩ := f64Rat_f64OfNat (n := 1) (by decide)
  rw [Nat.cast_one] at oneVal
  refine decodeBinary64_exact hw hw53 le_rfl hlo hwidth ⟨oneFin, ?_⟩ ⟨hwidth, ?_⟩ ⟨hhi, ?_⟩
  · rw [oneVal, div_self (Nat.cast_ne_zero.2 hw.ne')]
  · rw [oneVal, one_mul]
  · rw [hexact, sub_add_cancel]

end Ends

end Sys2Proof.Proofs
end

section
/-!
SUPPORT. QENC and QDEC in exact real arithmetic (R108): the code is the floor of `M` times a ratio between 0 and 1, and
decoding it loses less than one step of the value (R105).
-/

namespace Sys2Proof.Proofs

open Sys2Proof.Machine Sys2Proof.Claims

/-- The quotient of two integers, rounded down, whatever form the quotient is written in. -/
theorem floor_eq_ediv {q : Rat} {a b : Int} (hb : 0 < b) (hq : q = a / b) : ⌊q⌋ = a / b := by
  lift b to Nat using hb.le
  rw [hq, Int.cast_natCast, Rat.floor_intCast_div_natCast]

section ExactReal

variable {o : Operands}

/-- The exact ratio as a quotient of units. -/
theorem exactRatio_eq (o : Operands) :
    exactRatio o = ((f64Units (clamp o.value o.lo o.hi) - f64Units o.lo : Int) : Rat) /
      ((f64Units o.hi - f64Units o.lo : Int) : Rat) := by
  have hone : (one64 : Rat) ≠ 0 := Nat.cast_ne_zero.2 one64_pos.ne'
  rw [exactRatio, f64Rat_eq_units_div, f64Rat_eq_units_div, f64Rat_eq_units_div, ← sub_div, ← sub_div,
    div_div_div_cancel_right₀ hone, Int.cast_sub, Int.cast_sub]
  rfl

theorem exactRatio_between (hr : GoodRange o.lo o.hi) (hv : isNaN o.value = false) :
    0 ≤ exactRatio o ∧ exactRatio o ≤ 1 := by
  obtain ⟨-, hge, hle⟩ := clamp_good hr hv
  have hlt := f64Units_lo_lt_hi hr
  rw [exactRatio_eq]
  exact ⟨div_nonneg (Int.cast_nonneg (by omega)) (Int.cast_nonneg (by omega)),
    div_le_one_of_le₀ (Int.cast_le.2 (by omega)) (Int.cast_nonneg (by omega))⟩

/-- The code is the floor of `M` times the exact ratio, and at most `M` (R108). -/
theorem encodeExact_spec (w : Nat) (hr : GoodRange o.lo o.hi) (hv : isNaN o.value = false) :
    (encodeExact w o.value o.lo o.hi : Int) = ⌊exactRatio o * maxCode w⌋ ∧
      encodeExact w o.value o.lo o.hi ≤ maxCode w := by
  obtain ⟨h0, h1⟩ := exactRatio_between hr hv
  have hlt := f64Units_lo_lt_hi hr
  have hfloor : ⌊exactRatio o * maxCode w⌋ = (f64Units (clamp o.value o.lo o.hi) - f64Units o.lo) * (maxCode w : Int) /
      (f64Units o.hi - f64Units o.lo) := by
    refine floor_eq_ediv (by omega) ?_
    rw [exactRatio_eq, Int.cast_mul, Int.cast_natCast, div_mul_eq_mul_div]
  have hpos : 0 ≤ ⌊exactRatio o * maxCode w⌋ := Int.floor_nonneg.2 (mul_nonneg h0 (Nat.cast_nonneg _))
  have hcode : (encodeExact w o.value o.lo o.hi : Int) = ⌊exactRatio o * maxCode w⌋ := by
    rw [encodeExact, ← hfloor, Int.toNat_of_nonneg hpos]
  refine ⟨hcode, ?_⟩
  rw [← Int.ofNat_le, hcode]
  have hle : exactRatio o * maxCode w ≤ ((maxCode w : Int) : Rat) := mul_le_of_le_one_left (Nat.cast_nonneg _) h1
  exact (Int.floor_mono hle).trans_eq (Int.floor_intCast _)

/-- The value of the floor of a point's place in a range is less than one step from the point. -/
theorem abs_line_floor_sub_le {lo hi v : Rat} {top n : Nat} (hlt : lo < hi) (htop : 0 < top)
    (hn : (n : Int) = ⌊(v - lo) / (hi - lo) * top⌋) : |mkRat n top * (hi - lo) + lo - v| ≤ (hi - lo) / top := by
  have hwidth : 0 < hi - lo := sub_pos.2 hlt
  have htop' : (0 : Rat) < top := Nat.cast_pos.2 htop
  have hbelow : (n : Rat) ≤ (v - lo) / (hi - lo) * top := by
    have := Int.floor_le ((v - lo) / (hi - lo) * top)
    rwa [← hn, Int.cast_natCast] at this
  have habove : (v - lo) / (hi - lo) * top < n + 1 := by
    have := Int.lt_floor_add_one ((v - lo) / (hi - lo) * top)
    rwa [← hn, Int.cast_natCast] at this
  have hplace : mkRat n top * (hi - lo) + lo - v = (n - (v - lo) / (hi - lo) * top) * ((hi - lo) / top) := by
    rw [Rat.mkRat_eq_div, Int.cast_natCast]
    field_simp
    ring
  rw [hplace, abs_mul, abs_of_pos (div_pos hwidth htop')]
  refine mul_le_of_le_one_left (div_pos hwidth htop').le (abs_le.2 ⟨?_, ?_⟩) <;> linarith

/-- QENC of the table's widths in exact real arithmetic. -/
theorem quantEncode_exact {w : Nat} (hw : w = 1 ∨ w = 2) {value lo hi : F64} (hr : GoodRange lo hi)
    (hv : isNaN value = false) :
    quantEncode { standardRom with quantArith := .exactReal } w value lo hi = .ok (encodeExact w value lo hi) :=
  quantEncode_exactReal (by rcases hw with rfl | rfl <;> decide) rfl hr hv

/-- QDEC of the table's widths in exact real arithmetic. -/
theorem quantDecode_exact {w raw : Nat} (hw : w = 1 ∨ w = 2) {lo hi : F64} (hr : GoodRange lo hi)
    (hraw : raw ≤ maxCode w) :
    quantDecode { standardRom with quantArith := .exactReal } w raw lo hi = .ok (.exact (decodeExact w raw lo hi)) :=
  quantDecode_exactReal (by rcases hw with rfl | rfl <;> decide) rfl hr hraw

/-- For a value of the range, QDEC of its code gives a value within one quantization step of it (R105). -/
theorem quantDecode_encodeExact_close {w raw : Nat} (hw : w = 1 ∨ w = 2) (hr : GoodRange o.lo o.hi)
    (hlo : f64Le o.lo o.value = true) (hhi : f64Le o.value o.hi = true)
    (hraw : raw = encodeExact w o.value o.lo o.hi) :
    ∃ q, quantDecode { standardRom with quantArith := .exactReal } w raw o.lo o.hi = .ok (.exact q) ∧
      absQ (q - f64Rat o.value) ≤ (f64Rat o.hi - f64Rat o.lo) / maxCode w := by
  have hv := not_isNaN_right hlo
  obtain ⟨hcode, hle⟩ := encodeExact_spec w hr hv
  rw [← hraw] at hcode hle
  have hclamp : f64Rat (clamped o.value o.lo o.hi) = f64Rat o.value := by
    rw [f64Rat_eq_units_div, f64Rat_eq_units_div]
    exact congrArg (fun u : Int => (u : Rat) / one64) (f64Units_clamp_mid hr hlo hhi)
  rw [exactRatio, hclamp] at hcode
  refine ⟨_, quantDecode_exact hw hr hle, ?_⟩
  rw [absQ_eq_abs, decodeExact]
  exact abs_line_floor_sub_le (f64Rat_lo_lt_hi hr) (maxCode_pos (by omega)) hcode

end ExactReal

end Sys2Proof.Proofs
end

section
/-! The statements on the quantizer: QENC and QDEC in binary64 and in exact real arithmetic, their checks, and QTEMP. -/

namespace Sys2Proof.Proofs

open Sys2Proof.Machine Sys2Proof.Claims

/-- QENC of an admitted width over a range whose width is finite: the code is the floor of a finite product. -/
theorem quantEncode_floors {rom : Rom} {w : Nat} {value lo hi : F64} (hw : w ∈ rom.qwidths) (hw6 : w ≤ 6)
    (harith : rom.quantArith = .binary64) (hr : GoodRange lo hi) (hwidth : isFinite (f64Sub hi lo) = true)
    (hv : isNaN value = false) :
    ∃ n : Nat, quantEncode rom w value lo hi = .ok n ∧ n ≤ maxCode w ∧
      isFinite (product (maxCode w) value lo hi) = true ∧ (n : Int) = f64Floor (product (maxCode w) value lo hi) := by
  have ⟨hlo, hhi, hlt⟩ := hr
  obtain ⟨hfloor, hle⟩ := encodeBinary64_spec (maxCode_lt hw6) hv hlo hhi hlt hwidth
  obtain ⟨-, hfin, -⟩ := encodeProduct_spec (maxCode_lt hw6) hv hlo hhi hlt hwidth
  exact ⟨_, quantEncode_binary64 hw harith hr hv, hle, hfin, hfloor⟩

/-- Settles O1: the code is the floor of the product and at most `M`, so it fits its field. -/
theorem qencFloorsTheProduct : Obligations.QencFloorsTheProduct := by
  intro widths s o rest hs hr hwidth hv
  have floors := fun w hw hw6 => quantEncode_floors (rom := { standardRom with qwidths := widths }) (w := w) hw hw6 rfl
    hr hwidth hv
  refine ⟨fun h1 => ?_, fun h2 => ?_, fun w hw _ hw6 => ?_⟩
  · obtain ⟨n, hcode, hle, hfin, hfloor⟩ := floors 1 h1 (by decide)
    obtain ⟨code, hgives, rfl⟩ := exists_gives_qenc1 hs hcode hle
    exact ⟨code, hgives, hfin, hfloor⟩
  · obtain ⟨n, hcode, hle, hfin, hfloor⟩ := floors 2 h2 (by decide)
    obtain ⟨code, hgives, rfl⟩ := exists_gives_qenc2 hs hcode hle
    exact ⟨code, hgives, hfin, hfloor⟩
  · obtain ⟨n, hcode, hle, hfin, hfloor⟩ := floors w.toNat hw hw6
    exact ⟨n, execQencWidth_completes hs hcode, hle, hfin, hfloor⟩

/-- Settles O2: at an end of the range the difference is 0 or the width itself, whether that is finite or not. -/
theorem qencClampsToTheRange : Obligations.QencClampsToTheRange := by
  intro s o rest hs hr
  constructor
  · intro hle
    have hv := not_isNaN_left hle
    have hcode : ∀ w, w = 1 ∨ w = 2 → quantEncode standardRom w o.value o.lo o.hi = .ok 0 := fun w hw => by
      rw [quantEncode_good hw hr hv, encodeBinary64_lo (maxCode_lt (by omega)) hr hle]
    exact ⟨gives_qenc1 hs (hcode 1 (.inl rfl)), gives_qenc2 hs (hcode 2 (.inr rfl))⟩
  · intro hle
    have hv := not_isNaN_right hle
    have hcode : ∀ w, w = 1 ∨ w = 2 → quantEncode standardRom w o.value o.lo o.hi = .ok (maxCode w) := fun w hw => by
      rw [quantEncode_good hw hr hv, encodeBinary64_hi (maxCode_lt (by omega)) hr hle]
    exact ⟨gives_qenc1 hs (hcode 1 (.inl rfl)), gives_qenc2 hs (hcode 2 (.inr rfl))⟩

/-- Settles O3: every step keeps the order, and so does the free code. -/
theorem qencIsMonotonic : Obligations.QencIsMonotonic := by
  intro s t o value rest hs ht hr hle
  have hv := not_isNaN_left hle
  have hv' := not_isNaN_right hle
  constructor
  · have hw : maxCode 1 < 2 ^ 53 := maxCode_lt (by decide)
    obtain ⟨a, ha, haval⟩ := exists_gives_qenc1 hs (quantEncode_good (.inl rfl) hr hv) (encodeBinary64_le hw hr hv)
    obtain ⟨b, hb, hbval⟩ := exists_gives_qenc1 ht (quantEncode_good (.inl rfl) hr hv') (encodeBinary64_le hw hr hv')
    exact ⟨a, b, ha, hb, BitVec.le_def.2 (haval ▸ hbval ▸ encodeBinary64_mono hw hr hle)⟩
  · have hw : maxCode 2 < 2 ^ 53 := maxCode_lt (by decide)
    obtain ⟨a, ha, haval⟩ := exists_gives_qenc2 hs (quantEncode_good (.inr rfl) hr hv) (encodeBinary64_le hw hr hv)
    obtain ⟨b, hb, hbval⟩ := exists_gives_qenc2 ht (quantEncode_good (.inr rfl) hr hv') (encodeBinary64_le hw hr hv')
    exact ⟨a, b, ha, hb, BitVec.le_def.2 (haval ▸ hbval ▸ encodeBinary64_mono hw hr hle)⟩

/-- Settles O7: at either end the ratio, its product with the width and the sum with `lo` need no rounding. -/
theorem qdecEndsAreExact : Obligations.QdecEndsAreExact := by
  intro s o rest hs hr hwidth hexact
  have ⟨hlo, hhi, _⟩ := hr
  have hvalue := fun w hw hraw => quantDecode_good (w := w) (raw := o.raw.toNat) hw hr hraw
  have hzero := fun w (hw : 1 ≤ w ∧ w ≤ 6) => decodeBinary64_zero (maxCode_pos hw.1) (maxCode_lt hw.2) hlo hwidth
  have htop := fun w (hw : 1 ≤ w ∧ w ≤ 6) =>
    decodeBinary64_maxCode (maxCode_pos hw.1) (maxCode_lt hw.2) hlo hhi hwidth hexact
  refine ⟨fun hraw => ?_, fun hraw => ?_, fun hraw => ?_⟩
  · refine ⟨_, _, gives_of_placed hs rfl (hvalue 1 (.inl rfl) (hraw.trans_le (Nat.zero_le _))),
      gives_of_placed hs rfl (hvalue 2 (.inr rfl) (hraw.trans_le (Nat.zero_le _))), ?_⟩
    obtain ⟨hfin, hval⟩ := hzero 1 (by decide)
    rw [hraw]
    exact ⟨hfin, hval, hzero 2 (by decide)⟩
  · refine ⟨_, gives_of_placed hs rfl (hvalue 1 (.inl rfl) hraw.le), ?_⟩
    rw [hraw]
    exact htop 1 (by decide)
  · refine ⟨_, gives_of_placed hs rfl (hvalue 2 (.inr rfl) hraw.le), ?_⟩
    rw [hraw]
    exact htop 2 (by decide)

/-- Settles O9: the code is the floor of the exact ratio's multiple, and its value is on the line less than one step
below the value. -/
theorem exactRealRoundTripWithinOneStep : Obligations.ExactRealRoundTripWithinOneStep := by
  intro s t o rest raw hs ht hr
  have byte := fun hv => exists_gives_qenc1 hs (quantEncode_exact (.inl rfl) hr hv) (encodeExact_spec 1 hr hv).2
  have bytes := fun hv => exists_gives_qenc2 hs (quantEncode_exact (.inr rfl) hr hv) (encodeExact_spec 2 hr hv).2
  refine ⟨fun hv => ⟨?_, ?_⟩, fun hraw => ?_, fun hraw => ?_, fun hlo hhi => ⟨?_, ?_⟩⟩
  · obtain ⟨code, hgives, hcode⟩ := byte hv
    exact ⟨code, hgives, hcode ▸ (encodeExact_spec 1 hr hv).1⟩
  · obtain ⟨code, hgives, hcode⟩ := bytes hv
    exact ⟨code, hgives, hcode ▸ (encodeExact_spec 2 hr hv).1⟩
  · exact gives_of_placed ht rfl (quantDecode_exact (.inl rfl) hr hraw)
  · exact gives_of_placed ht rfl (quantDecode_exact (.inr rfl) hr hraw)
  · obtain ⟨code, hgives, hcode⟩ := byte (not_isNaN_right hlo)
    refine ⟨code, hgives, fun hraw => ?_⟩
    obtain ⟨q, hq, hclose⟩ := quantDecode_encodeExact_close (.inl rfl) hr hlo hhi (hraw.trans hcode)
    exact ⟨q, gives_of_placed ht rfl hq, hclose⟩
  · obtain ⟨code, hgives, hcode⟩ := bytes (not_isNaN_right hlo)
    refine ⟨code, hgives, fun hraw => ?_⟩
    obtain ⟨q, hq, hclose⟩ := quantDecode_encodeExact_close (.inr rfl) hr hlo hhi (hraw.trans hcode)
    exact ⟨q, gives_of_placed ht rfl hq, hclose⟩

/-- Settles O10: the code and the divisor 10 are exact, and their quotient is rounded once. -/
theorem qtempIsATenthOfTheCode : Obligations.QtempIsATenthOfTheCode := by
  intro s o rest hs
  obtain ⟨rawFin, rawVal⟩ := f64Rat_f64OfNat (n := o.rawTemp.toNat) (o.rawTemp.isLt.trans (by decide))
  obtain ⟨tenFin, tenVal⟩ := tempDiv_ten
  have hround := roundedTo64_f64Div rawFin tenFin (tenVal.trans_ne (by decide))
  rw [rawVal, tenVal] at hround
  refine ⟨_, gives_of_operation hs rfl, ?_⟩
  rw [Rat.mkRat_eq_div]
  exact hround

/-- Settles O4, by the outcomes of QENC and QDEC in the order of their checks. -/
theorem quantizerChecksInOrder : Obligations.QuantizerChecksInOrder := by
  intro widths s o rest hs
  refine ⟨fun h1 => ⟨?_, ?_⟩, fun h2 => ⟨?_, ?_⟩, fun hr => ⟨fun h1 => ⟨?_, ?_⟩, fun h2 => ⟨?_, ?_⟩⟩,
    fun hr hv => ⟨fun h1 => ?_, fun h2 => ?_⟩, fun hr hraw h1 => ?_, fun hr hraw h2 => ?_, fun w => ⟨fun hw => ⟨?_, ?_⟩,
      fun hw hr => ⟨?_, ?_⟩, fun hw hr hv => ?_, fun hw hr hraw => ?_⟩⟩
  · exact refuses_of_placed hs rfl (quantEncode_width h1 _ _ _)
  · exact refuses_of_placed hs rfl (quantDecode_width h1 _ _ _)
  · exact refuses_of_placed hs rfl (quantEncode_width h2 _ _ _)
  · exact refuses_of_placed hs rfl (quantDecode_width h2 _ _ _)
  · exact refuses_of_placed hs rfl (quantEncode_badRange h1 _ hr)
  · exact refuses_of_placed hs rfl (quantDecode_badRange h1 _ hr)
  · exact refuses_of_placed hs rfl (quantEncode_badRange h2 _ hr)
  · exact refuses_of_placed hs rfl (quantDecode_badRange h2 _ hr)
  · exact refuses_of_placed hs rfl (quantEncode_nan h1 hr hv)
  · exact refuses_of_placed hs rfl (quantEncode_nan h2 hr hv)
  · exact refuses_of_placed hs rfl (quantDecode_tooLarge h1 hr hraw)
  · exact refuses_of_placed hs rfl (quantDecode_tooLarge h2 hr hraw)
  · exact execQencWidth_fails hs (quantEncode_width hw _ _ _)
  · exact execQdecWidth_fails hs (quantDecode_width hw _ _ _)
  · exact execQencWidth_fails hs (quantEncode_badRange hw _ hr)
  · exact execQdecWidth_fails hs (quantDecode_badRange hw _ hr)
  · exact execQencWidth_fails hs (quantEncode_nan hw hr hv)
  · exact execQdecWidth_fails hs (quantDecode_tooLarge hw hr hraw)

/-- Settles O5: QENC gives a code over every admitted range, 0 where only `hi -64 lo` overflows. -/
theorem qencCompletesOnEveryRange : Obligations.QencCompletesOnEveryRange := by
  intro s o rest hs hr hv
  have hcode := fun w hw => quantEncode_good (w := w) hw hr hv
  refine ⟨⟨_, gives_qenc1 hs (hcode 1 (.inl rfl))⟩, ⟨_, gives_qenc2 hs (hcode 2 (.inr rfl))⟩, fun hwide hfin => ?_⟩
  have hzero : ∀ w, w = 1 ∨ w = 2 → quantEncode standardRom w o.value o.lo o.hi = .ok 0 := fun w hw => by
    rw [hcode w hw, encodeBinary64_wide_zero (maxCode_lt (by omega)) hr hwide hfin]
  exact ⟨gives_qenc1 hs (hzero 1 (.inl rfl)), gives_qenc2 hs (hzero 2 (.inr rfl))⟩

/-- Settles O6: with its checks passed QDEC is R103's expression. -/
theorem qdecScalesTheCode : Obligations.QdecScalesTheCode := by
  intro widths s o rest hs hr
  refine ⟨fun h1 hraw => ?_, fun h2 hraw => ?_, fun w hw _ _ hraw => ?_⟩
  · exact gives_of_placed hs rfl (quantDecode_binary64 (w := 1) h1 rfl hr hraw)
  · exact gives_of_placed hs rfl (quantDecode_binary64 (w := 2) h2 rfl hr hraw)
  · exact execQdecWidth_completes hs (quantDecode_binary64 hw rfl hr hraw)

end Sys2Proof.Proofs
end

section
/-!
SUPPORT. The two directions of the identifier packer over each other (R120 to R124): UNPACK reads the fields the decoder
of an identifier word reads, so what the encoder and that decoder give of one another is the round trip of R124.
-/

namespace Sys2Proof.Proofs

open Sys2Proof.Machine Sys2Proof.Claims

/-! ### PACK of any mode (R120, R121) -/

/-- PACK's word is the low 32 bits of R60's number, whatever the mode. -/
theorem identifierWord_eq_ofNat (mode : U8) (aux : U16) (node : U8) :
    identifierWord standardRom mode aux node = BitVec.ofNat 32 (identifierNumber mode aux node) := by
  have := aux.isLt
  have := node.isLt
  apply BitVec.eq_of_toNat_eq
  rw [identifierWord_eq, canidOf_toNat, BitVec.toNat_setWidth, BitVec.toNat_ofNat, identifierNumber]
  omega

theorem packId_fits {mode : U8} (h : mode.toNat ≤ 31) (aux : U16) (node : U8) :
    packId standardRom mode aux node = .ok (identifierWord standardRom mode aux node) := by
  rw [packId_standard, if_neg (Nat.not_lt.2 h)]

theorem packId_wide {mode : U8} (h : 31 < mode.toNat) (aux : U16) (node : U8) :
    packId standardRom mode aux node = .error .fieldRange := by
  rw [packId_standard, if_pos h]

/-- `PACK_OVERFLOW = TRUNCATE` admits every mode and keeps the low 32 bits (R121). -/
theorem packId_truncate (mode : U8) (aux : U16) (node : U8) :
    packId { standardRom with packOverflow := .truncate } mode aux node =
      .ok (BitVec.ofNat 32 (identifierNumber mode aux node)) := by
  rw [← identifierWord_eq_ofNat]
  rfl

/-! ### UNPACK reads the decoder's fields (R60, R122) -/

theorem unpackMode_eq_canidMode (w : U32) : unpackMode standardRom w = (canidMode w).setWidth 8 := by
  apply BitVec.eq_of_toNat_eq
  rw [unpackMode_toNat, canidMode_setWidth_toNat, canidMode_toNat]

theorem unpackAux_eq_canidAux (w : U32) : unpackAux standardRom w = canidAux w := by
  apply BitVec.eq_of_toNat_eq
  rw [unpackAux_toNat, canidAux, BitVec.extractLsb'_toNat, Nat.shiftRight_eq_div_pow]

theorem unpackNode_eq_canidNode (w : U32) : unpackNode standardRom w = canidNode w := by
  apply BitVec.eq_of_toNat_eq
  rw [unpackNode_toNat, canidNode, BitVec.extractLsb'_toNat, Nat.shiftRight_eq_div_pow]

/-! ### UNPACK after PACK (R124) -/

theorem unpackMode_identifierWord {mode : U8} (h : mode.toNat ≤ 31) (aux : U16) (node : U8) :
    unpackMode standardRom (identifierWord standardRom mode aux node) = mode := by
  rw [identifierWord_eq, unpackMode_eq_canidMode, canidMode_canidOf]
  apply BitVec.eq_of_toNat_eq
  rw [BitVec.toNat_setWidth, BitVec.toNat_setWidth]
  omega

theorem unpackAux_identifierWord (mode : U8) (aux : U16) (node : U8) :
    unpackAux standardRom (identifierWord standardRom mode aux node) = aux := by
  rw [identifierWord_eq, unpackAux_eq_canidAux, canidAux_canidOf]

theorem unpackNode_identifierWord (mode : U8) (aux : U16) (node : U8) :
    unpackNode standardRom (identifierWord standardRom mode aux node) = node := by
  rw [identifierWord_eq, unpackNode_eq_canidNode, canidNode_canidOf]

/-! ### PACK after UNPACK (R124) -/

/-- The mask and the marker of R124 as arithmetic. -/
theorem masked_or_marker_toNat (w : U32) : ((w &&& 0xFFFFFFF8) ||| 0b100).toNat = w.toNat / 8 * 8 + 4 := by
  have hmask : w &&& (0xFFFFFFF8 : U32) = w >>> 3 <<< 3 := by
    apply BitVec.eq_of_getLsbD_eq
    intro i hi
    interval_cases i <;> simp
  have hw := w.isLt
  have hhigh : (w >>> 3 <<< 3).toNat = (w.toNat / 8) <<< 3 := by
    rw [BitVec.toNat_shiftLeft, BitVec.toNat_ushiftRight, Nat.shiftRight_eq_div_pow, Nat.shiftLeft_eq]
    omega
  have hmarker : (0b100 : U32).toNat = 4 := rfl
  rw [hmask, BitVec.toNat_or, hhigh, hmarker, ← Nat.shiftLeft_add_eq_or_of_lt (by decide), Nat.shiftLeft_eq]

theorem identifierWord_unpack (w : U32) :
    identifierWord standardRom (unpackMode standardRom w) (unpackAux standardRom w) (unpackNode standardRom w) =
      (w &&& 0xFFFFFFF8) ||| 0b100 := by
  have hmode : ((canidMode w).setWidth 8).setWidth 5 = canidMode w := BitVec.setWidth_setWidth_of_le _ (by decide)
  apply BitVec.eq_of_toNat_eq
  rw [identifierWord_eq, unpackMode_eq_canidMode, unpackAux_eq_canidAux, unpackNode_eq_canidNode, hmode,
    canidOf_fields, masked_or_marker_toNat]

/-! ### PACK and UNPACK on what is loaded -/

theorem gives_pack {s : State} {o : Operands} {rest : List Request} (hs : Loaded s o rest)
    (h : o.commandMode.toNat ≤ 31) :
    Gives .pack s rest (.identifier (identifierWord standardRom o.commandMode o.auxField o.nodeId)) :=
  gives_of_placed hs rfl (packId_fits h _ _)

theorem gives_unpack {s : State} {o : Operands} {rest : List Request} (hs : Loaded s o rest) :
    Gives .unpack s rest (.fields (unpackMode standardRom o.identifier) (unpackAux standardRom o.identifier)
      (unpackNode standardRom o.identifier)) :=
  gives_of_operation hs rfl

end Sys2Proof.Proofs
end

section
/-! The statements on the identifier packer: PACK of a mode too wide, UNPACK, and their round trips. -/

namespace Sys2Proof.Proofs

open Sys2Proof.Machine Sys2Proof.Claims

/-- Settles O14, by the two settings of `PACK_OVERFLOW`. -/
theorem packOfAWideMode : Obligations.PackOfAWideMode := by
  intro s o rest hwide
  constructor
  · intro hs
    exact refuses_of_placed hs rfl (packId_wide hwide _ _)
  · intro hs
    exact gives_of_placed hs rfl (packId_truncate _ _ _)

/-- Settles O15: UNPACK has no check, and its fields are quotients of the word above the marker. -/
theorem unpackSplitsTheIdentifier : Obligations.UnpackSplitsTheIdentifier := by
  intro s o rest hs
  exact ⟨_, _, _, gives_unpack hs, unpackMode_toNat _, unpackMode_le _, unpackAux_toNat _, unpackNode_toNat _⟩

/-- Settles O16: UNPACK reads back each field of PACK's word, and PACK writes back every bit above the marker. -/
theorem packAndUnpackAreInverse : Obligations.PackAndUnpackAreInverse := by
  intro s t o p rest rest' hs ht
  constructor
  · intro hmode
    refine ⟨_, gives_pack hs hmode, fun hid => ?_⟩
    have hgives := gives_unpack ht
    rwa [hid, unpackMode_identifierWord hmode, unpackAux_identifierWord, unpackNode_identifierWord] at hgives
  · refine ⟨_, _, _, gives_unpack ht, fun hmode haux hnode => ?_⟩
    have hgives := gives_pack hs (hmode ▸ unpackMode_le p.identifier)
    rwa [hmode, haux, hnode, identifierWord_unpack] at hgives

end Sys2Proof.Proofs
end

section
/-!
SUPPORT. The framer over its own frames (R140 to R144): the three refusals of UNWRAP one by one, the bytes of a frame
whose identifier word is given by its bytes, and the two round trips of WRAP and UNWRAP.
-/

namespace Sys2Proof.Proofs

open Sys2Proof.Machine Sys2Proof.Claims

/-! ### The operation behind a given result -/

/-- The result an instruction gives on what is loaded is that of its operation. -/
theorem operation_of_gives {rom : Rom} {s : State} {o : Operands} {rest : List Request} {i : Instr} {r : Result}
    (hs : LoadedWith rom s o rest) (h : Gives i s rest r) : operation i rom o = .ok r := by
  cases hop : operation i rom o with
  | ok r' =>
    have hstate := Host.Outcome.next.inj ((gives_of_operation hs hop).symm.trans h)
    simpa [replied] using hstate
  | error f =>
    have hstate := Host.Outcome.next.inj ((refuses_of_operation hs hop).symm.trans h)
    simp [replied] at hstate

/-! ### The refusals of UNWRAP (R141, R142, R145) -/

theorem unwrapFrame_wrongLength {b : List Byte} (h : b.length ≠ 17) :
    unwrapFrame standardRom b = .error .wrongLength := if_pos h

theorem unwrapFrame_badHeader {b : List Byte} (hlen : b.length = 17) (h : headerOk standardRom b = false) :
    unwrapFrame standardRom b = .error .badHeader := by
  rcases unwrapFrame_cases b with ⟨hne, -⟩ | ⟨-, -, e⟩ | ⟨-, hok, -⟩ | ⟨-, hok, -⟩
  · exact absurd hlen hne
  · exact e
  · exact absurd (h.symm.trans hok) Bool.false_ne_true
  · exact absurd (h.symm.trans hok) Bool.false_ne_true

theorem unwrapFrame_badLength {b : List Byte} (hlen : b.length = 17) (h : headerOk standardRom b = true)
    (h6 : byteAt b 6 ≠ 0x08) : unwrapFrame standardRom b = .error .badLength := by
  rcases unwrapFrame_cases b with ⟨hne, -⟩ | ⟨-, hbad, -⟩ | ⟨-, -, -, e⟩ | ⟨-, -, hok, -⟩
  · exact absurd hlen hne
  · exact absurd (hbad.symm.trans h) Bool.false_ne_true
  · exact e
  · exact absurd hok h6

/-- A byte within the string, as the statements look it up. -/
theorem getElem?_eq_some_iff_byteAt {b : List Byte} {i : Nat} (h : i < b.length) (v : Byte) :
    b[i]? = some v ↔ byteAt b i = v := by
  rw [byteAt, List.getD_eq_getElem _ _ h, List.getElem?_eq_getElem h, Option.some.injEq]

/-- The header check of 17 bytes, as the statements look the bytes up (R141). -/
theorem headerOk_iff_getElem? {b : List Byte} (hlen : b.length = 17) : headerOk standardRom b = true ↔
    b[0]? = some 0x41 ∧ b[1]? = some 0x54 ∧ b[15]? = some 0x0D ∧ b[16]? = some 0x0A := by
  have byte := fun i (hi : i < 17) => getElem?_eq_some_iff_byteAt (hlen ▸ hi : i < b.length)
  rw [headerOk_standard, byte 0 (by decide), byte 1 (by decide), byte 15 (by decide), byte 16 (by decide)]

/-! ### The identifier's bytes in a frame (R42, R63) -/

theorem be32_toNat (b3 b2 b1 b0 : Byte) : (be32 b3 b2 b1 b0).toNat = number32 b0 b1 b2 b3 := le32_toNat b0 b1 b2 b3

/-- R144's mask and marker touch the lowest byte alone. -/
theorem be32_masked_or_marker (b3 b2 b1 b0 : Byte) :
    (be32 b3 b2 b1 b0 &&& 0xFFFFFFF8) ||| 0b100 = be32 b3 b2 b1 ((b0 &&& 0xF8) ||| 0b100) := by
  have hmask : (0xFFFFFFF8 : U32) = (0xFFFFFF : BitVec 24) ++ (0xF8 : Byte) := rfl
  have hmarker : (0b100 : U32) = (0 : BitVec 24) ++ (0b100 : Byte) := rfl
  have hones : ∀ x : BitVec 24, (x &&& 0xFFFFFF) ||| 0 = x := fun x => by
    rw [show (0xFFFFFF : BitVec 24) = BitVec.allOnes 24 from rfl, BitVec.and_allOnes]
    exact BitVec.or_zero
  rw [be32, be32, hmask, hmarker, BitVec.and_append, BitVec.or_append, hones]

theorem frameBytes_be32 (b3 b2 b1 b0 : Byte) (p : List Byte) : frameBytes standardRom (be32 b3 b2 b1 b0) p =
    [0x41, 0x54, b3, b2, b1, b0, 0x08] ++ p ++ [0x0D, 0x0A] := by
  rw [frameBytes, toBE32_be32]
  rfl

/-- The identifier's lowest byte stands at byte 5. -/
theorem frameBytes_set_five (b3 b2 b1 b0 c : Byte) (p : List Byte) :
    (frameBytes standardRom (be32 b3 b2 b1 b0) p).set 5 c = frameBytes standardRom (be32 b3 b2 b1 c) p := by
  rw [frameBytes_be32, frameBytes_be32]
  rfl

/-! ### The round trips (R144) -/

/-- UNWRAP of a frame reads UNPACK's fields of its identifier word. -/
theorem unwrapFrame_frameBytes (id : U32) (p : Bytes8) :
    unwrapFrame standardRom (frameBytes standardRom id (payloadBytes p)) =
      .ok { commandMode := unpackMode standardRom id, auxField := unpackAux standardRom id
            nodeId := unpackNode standardRom id, payload := p } := by
  rw [← be32_bytes id, frameBytes_be32, unwrapFrame_frame]

/-- A byte string UNWRAP accepts is the frame of its own identifier word. -/
theorem eq_frameBytes_of_unwrapFrame {b : List Byte} {m : RawMessage} (h : unwrapFrame standardRom b = .ok m) :
    b = frameBytes standardRom (frameId b) (payloadBytes m.payload) := by
  rw [frameId, frameBytes_be32]
  exact (unwrapFrame_ok h).1

theorem set_five_of_unwrapFrame {b : List Byte} {m : RawMessage} (h : unwrapFrame standardRom b = .ok m) (c : Byte) :
    b.set 5 c = frameBytes standardRom (be32 (byteAt b 2) (byteAt b 3) (byteAt b 4) c) (payloadBytes m.payload) := by
  rw [← frameBytes_set_five _ _ _ (byteAt b 5)]
  exact congrArg (List.set · 5 c) (eq_frameBytes_of_unwrapFrame h)

/-- A whole message needs no padding. -/
theorem wrapFrame_message {m : RawMessage} (h : m.commandMode.toNat ≤ 31) :
    wrapFrame standardRom m.commandMode m.auxField m.nodeId (bytesOf m.payload) =
      .ok (frameBytes standardRom (identifierWord standardRom m.commandMode m.auxField m.nodeId)
        (payloadBytes m.payload)) := wrapBuilt_ok h

theorem unwrapFrame_message {m : RawMessage} (h : m.commandMode.toNat ≤ 31) :
    unwrapFrame standardRom (frameBytes standardRom (identifierWord standardRom m.commandMode m.auxField m.nodeId)
      (payloadBytes m.payload)) = .ok m := by
  rw [unwrapFrame_frameBytes, unpackMode_identifierWord h, unpackAux_identifierWord, unpackNode_identifierWord]

/-- WRAP of what UNWRAP read writes every byte back but the marker bits of byte 5. -/
theorem wrapFrame_unwrapped {b : List Byte} {m : RawMessage} (h : unwrapFrame standardRom b = .ok m) :
    wrapFrame standardRom m.commandMode m.auxField m.nodeId (bytesOf m.payload) =
      .ok (b.set 5 ((byteAt b 5 &&& 0xF8) ||| 0b100)) := by
  obtain ⟨-, hm⟩ := unwrapFrame_ok h
  have hmode : m.commandMode.toNat ≤ 31 := hm ▸ unpackMode_le _
  have hword : identifierWord standardRom m.commandMode m.auxField m.nodeId =
      be32 (byteAt b 2) (byteAt b 3) (byteAt b 4) ((byteAt b 5 &&& 0xF8) ||| 0b100) := by
    rw [hm, ← be32_masked_or_marker]
    exact identifierWord_unpack (frameId b)
  rw [wrapFrame_message hmode, hword, set_five_of_unwrapFrame h]

end Sys2Proof.Proofs
end

section
/-! The statements on the framer: the refusals of WRAP and UNWRAP, what UNWRAP reads, and the two round trips. -/

namespace Sys2Proof.Proofs

open Sys2Proof.Machine Sys2Proof.Claims

/-- Settles O19: the identifier is packed before the payload is measured. -/
theorem wrapRefusesInOrder : Obligations.WrapRefusesInOrder := fun _ _ _ hs =>
  ⟨fun hwide => refuses_of_placed hs rfl (wrapFrame_error.2 (.inl ⟨hwide, rfl⟩)),
    fun hmode hlong => refuses_of_placed hs rfl (wrapFrame_error.2 (.inr ⟨hmode, hlong, rfl⟩))⟩

/-- Settles O21: the length is the first check. -/
theorem unwrapRefusesEveryOtherLength : Obligations.UnwrapRefusesEveryOtherLength := fun _ _ _ hs hlen =>
  refuses_of_placed hs rfl (unwrapFrame_wrongLength hlen)

/-- Settles O20: the frame is that of its identifier's bytes, and UNWRAP reads UNPACK's fields of their word. -/
theorem unwrapReadsTheMessage : Obligations.UnwrapReadsTheMessage := by
  intro s o rest i3 i2 i1 i0 p hs hdata
  have hread : unwrapFrame standardRom o.data = _ := hdata ▸ unwrapFrame_frame i3 i2 i1 i0 p
  refine ⟨_, gives_of_placed hs rfl hread, ?_, ?_, ?_, rfl⟩
  · rw [unpackMode_toNat, be32_toNat]
  · rw [unpackAux_toNat, be32_toNat]
  · rw [unpackNode_toNat, be32_toNat]

/-- Settles O22: UNWRAP's refusals of 17 bytes, which RX passes on. -/
theorem unwrapChecksInOrder : Obligations.UnwrapChecksInOrder := by
  intro s o rest hs hlen
  have refused : ∀ f, unwrapFrame standardRom o.data = .error f → Refuses .unwrap s rest f ∧ Refuses .rx s rest f :=
    fun f hf => ⟨refuses_of_placed hs rfl hf, refuses_of_placed hs rfl (receive_error standardRom hf)⟩
  constructor
  · intro hbad
    exact refused _ (unwrapFrame_badHeader hlen (Bool.eq_false_iff.2 (mt (headerOk_iff_getElem? hlen).1 hbad)))
  · intro h0 h1 h15 h16 h6
    have hheader := (headerOk_iff_getElem? hlen).2 ⟨h0, h1, h15, h16⟩
    have hbyte := mt (getElem?_eq_some_iff_byteAt (by omega) _).2 h6
    exact refused _ (unwrapFrame_badLength hlen hheader hbyte)

/-- Settles O23: UNPACK and PACK are inverse on the identifier word, and the frame carries the word's bytes and the
payload unchanged. -/
theorem wrapAndUnwrapAreInverse : Obligations.WrapAndUnwrapAreInverse := by
  intro s t o p rest rest' payload hs ht
  constructor
  · intro hmode hpayload
    have hwrap := wrapFrame_message (m := ⟨o.commandMode, o.auxField, o.nodeId, payload⟩) hmode
    have hunwrap := unwrapFrame_message (m := ⟨o.commandMode, o.auxField, o.nodeId, payload⟩) hmode
    refine ⟨_, gives_of_placed hs rfl (hpayload ▸ hwrap), fun hframe => ?_⟩
    exact gives_of_placed ht rfl (hframe ▸ hunwrap)
  · intro m hgives hmode haux hnode hpayload
    obtain ⟨m', hread, hm⟩ := placed_eq_ok.1 (operation_of_gives ht hgives)
    obtain rfl := Result.message.inj hm
    have hwrap := wrapFrame_unwrapped hread
    rw [← hmode, ← haux, ← hnode, ← hpayload] at hwrap
    exact gives_of_placed hs rfl hwrap

end Sys2Proof.Proofs
end

section
/-!
SUPPORT. The register transcoder in both directions (R160 to R173): what RENC and RDEC of a catalogued index give, as
equivalences; the field of a value read back, and the value of a field written back.
-/

namespace Sys2Proof.Proofs

open Sys2Proof.Machine Sys2Proof.Claims

/-! ### What RENC and RDEC give (R165, R169) -/

/-- An instruction gives the bundle of a value exactly when its operation's outcome is that value. -/
theorem gives_placed_iff {α : Type} {rom : Rom} {s : State} {o : Operands} {rest : List Request} {i : Instr}
    {place : α → Result} {e : Except Failure α} {x : α} (hs : LoadedWith rom s o rest)
    (hop : operation i rom o = placed place e) (hplace : Function.Injective place) :
    Gives i s rest (place x) ↔ e = .ok x := by
  refine ⟨fun h => ?_, gives_of_placed hs hop⟩
  obtain ⟨x', he, hx⟩ := placed_eq_ok.1 (hop.symm.trans (operation_of_gives hs h))
  rwa [← hplace hx]

section Catalogued

variable {s : State} {o : Operands} {rest : List Request} {e : RegEntry}

theorem regEncode_entry (he : e ∈ catalogue) (hi : o.index = e.index) :
    regEncode standardRom o.index o.value = encodeKind e.kind o.value := by
  rw [hi, regEncode_standard he]

theorem regDecode_entry (he : e ∈ catalogue) (hi : o.index = e.index) :
    regDecode standardRom o.index o.field = .ok (decodeKind e.kind o.field) := by
  rw [hi, regDecode_standard he]

theorem gives_renc_iff {f : Bytes4} (hs : Loaded s o rest) (he : e ∈ catalogue) (hi : o.index = e.index) :
    Gives .renc s rest (.regField f) ↔ FieldOf e.kind o.value f := by
  rw [gives_placed_iff hs rfl fun _ _ => Result.regField.inj, regEncode_entry he hi, encodeKind_ok]

theorem gives_rdec_iff {v : F64} (hs : Loaded s o rest) (he : e ∈ catalogue) (hi : o.index = e.index) :
    Gives .rdec s rest (.regValue v) ↔ decodeKind e.kind o.field = v := by
  rw [gives_placed_iff hs rfl fun _ _ => Result.regValue.inj, regDecode_entry he hi, Except.ok.injEq]

end Catalogued

/-! ### A value written, then read (R173) -/

theorem number16_byteOf {n : Nat} (h : n ≤ 65535) : number16 (byteOf n 0) (byteOf n 1) = n := by
  simp only [number16, byteOf, BitVec.toNat_ofNat]
  omega

/-- The field of an integer register reads back as the same number. -/
theorem f64Rat_decodeKind_of_fieldOf {kind : RegKind} {value : F64} {f : Bytes4} (h : FieldOf kind value f)
    (hkind : kind ≠ .f32le) : f64Rat (decodeKind kind f) = f64Rat value := by
  suffices hunits : f64Units (decodeKind kind f) = f64Units value by rw [f64Rat, f64Rat, hunits]
  have hread := decodes_decodeKind kind f
  cases h with
  | u8 _ n _ hn hu =>
    obtain ⟨-, hread⟩ := hread
    have hbyte : (byteOf n 0).toNat = n := by
      simp only [byteOf, BitVec.toNat_ofNat]
      omega
    rw [hread, hbyte, hu]
  | u16 _ n _ hn hu =>
    obtain ⟨-, hread⟩ := hread
    rw [hread, number16_byteOf hn, hu]
  | f32 _ _ _ => exact absurd rfl hkind

/-- The field of a float register reads back as the value's binary32 rounding. -/
theorem decodeKind_of_fieldOf_f32 {value : F64} {f : Bytes4} (h : FieldOf .f32le value f) :
    decodeKind .f32le f = fromF32 (toF32 value) := by
  cases h with
  | f32 _ _ _ =>
    rw [← toLE32_eq]
    exact congrArg fromF32 (le32_bytes _)

/-! ### A field read, then written (R173) -/

theorem byteOf_toNat (b : Byte) : byteOf b.toNat 0 = b := by simp [byteOf]

theorem fieldOf_decode_u8 {f : Bytes4} (hpad : f.b1 = 0 ∧ f.b2 = 0 ∧ f.b3 = 0) :
    FieldOf .u8pad (decodeKind .u8pad f) f := by
  obtain ⟨b0, b1, b2, b3⟩ := f
  obtain ⟨rfl, rfl, rfl⟩ := hpad
  obtain ⟨hfin, hunits⟩ := decodes_decodeKind .u8pad ⟨b0, 0, 0, 0⟩
  have hfield := FieldOf.u8 _ b0.toNat hfin (Nat.le_of_lt_succ b0.isLt) hunits
  rwa [byteOf_toNat] at hfield

theorem fieldOf_decode_u16 {f : Bytes4} (hpad : f.b2 = 0 ∧ f.b3 = 0) :
    FieldOf .u16pad (decodeKind .u16pad f) f := by
  obtain ⟨b0, b1, b2, b3⟩ := f
  obtain ⟨rfl, rfl⟩ := hpad
  have h0 := b0.isLt
  have h1 := b1.isLt
  obtain ⟨hfin, hunits⟩ := decodes_decodeKind .u16pad ⟨b0, b1, 0, 0⟩
  have hfield := FieldOf.u16 _ (number16 b0 b1) hfin (by rw [number16]; omega) hunits
  have hlow : byteOf (number16 b0 b1) 0 = b0 :=
    BitVec.eq_of_toNat_eq (by simp only [byteOf, number16, BitVec.toNat_ofNat]; omega)
  have hhigh : byteOf (number16 b0 b1) 1 = b1 :=
    BitVec.eq_of_toNat_eq (by simp only [byteOf, number16, BitVec.toNat_ofNat]; omega)
  rwa [hlow, hhigh] at hfield

/-- Widening keeps the class of a pattern that is no NaN. -/
theorem fromF32_class {y : F32} (hy : isNaN32 y = false) :
    isNaN (fromF32 y) = false ∧ (isInf32 y = true → isInf (fromF32 y) = true) := by
  rcases fromF32_cases y with ⟨hnan, -⟩ | ⟨-, -, e⟩ | ⟨-, -, hinf, hfin, -⟩
  · rw [hy] at hnan
    cases hnan
  · have hmag : f64Mag (fromF32 y) = infMag64 := by rw [e, f64Mag_f64Of _ infMag64_lt]
    simp [isNaN, isInf, hmag]
  · exact ⟨not_isNaN_of_finite hfin, fun h => absurd (hinf.symm.trans h) Bool.false_ne_true⟩

theorem fieldOf_decode_f32 {f : Bytes4} (hnan : isNaN32 (le32 f.b0 f.b1 f.b2 f.b3) = false) :
    FieldOf .f32le (decodeKind .f32le f) f := by
  obtain ⟨hvalue, hinf⟩ := fromF32_class hnan
  have hback := toF32_fromF32 hnan
  have hfield := FieldOf.f32 (fromF32 (le32 f.b0 f.b1 f.b2 f.b3)) hvalue (by rwa [hback])
  rwa [hback, ← toLE32_eq, toLE32_le32] at hfield

/-- A field whose padding is zero, or that is no NaN pattern, is the field of the value read from it. -/
theorem fieldOf_decodeKind {kind : RegKind} {f : Bytes4}
    (hu8 : kind = .u8pad → f.b1 = 0 ∧ f.b2 = 0 ∧ f.b3 = 0) (hu16 : kind = .u16pad → f.b2 = 0 ∧ f.b3 = 0)
    (hf32 : kind = .f32le → isNaN32 (le32 f.b0 f.b1 f.b2 f.b3) = false) : FieldOf kind (decodeKind kind f) f := by
  cases kind with
  | u8pad => exact fieldOf_decode_u8 (hu8 rfl)
  | u16pad => exact fieldOf_decode_u16 (hu16 rfl)
  | f32le => exact fieldOf_decode_f32 (hf32 rfl)

end Sys2Proof.Proofs
end

section
/-! The statements on the register transcoder. -/

namespace Sys2Proof.Proofs

open Sys2Proof.Machine Sys2Proof.Claims

/-- Settles O29: RENC gives exactly the value's field and RDEC exactly the field's value, so the two laws are those of
the kind's functions. -/
theorem registerRoundTrips : Obligations.RegisterRoundTrips := by
  intro s t o p rest rest' e hs ht he hio hip
  constructor
  · intro f hgives hf
    have hfield := (gives_renc_iff hs he hio).1 hgives
    refine ⟨decodeKind e.kind f, (gives_rdec_iff ht he hip).2 (by rw [hf]), fun hkind => ?_,
      f64Rat_decodeKind_of_fieldOf hfield⟩
    rw [hkind] at hfield ⊢
    have hread := decodeKind_of_fieldOf_f32 hfield
    refine ⟨hread, fun y hy hvalue => ?_⟩
    rw [hread, hvalue, toF32_fromF32 hy]
  · intro v hgives hv hu8 hu16 hf32
    obtain rfl := (gives_rdec_iff ht he hip).1 hgives
    rw [gives_renc_iff hs he hio, hv]
    refine fieldOf_decodeKind hu8 hu16 fun hkind => ?_
    rw [le32_eq_ofNat]
    exact hf32 hkind

/-- Settles O24: the only entry of an index is the one found, and an index of none is refused. -/
theorem rlookFindsTheIndex : Obligations.RlookFindsTheIndex := fun _ _ _ _ hs =>
  ⟨fun _ he hi hunique => gives_of_placed hs rfl (lookupIndex_unique he hi hunique),
    fun hnone => refuses_of_placed hs rfl (lookupIndex_error.2 ⟨hnone, rfl⟩)⟩

/-- Settles O25: the indices of a lawful catalogue differ, and so do its names. -/
theorem catalogueIsFoundByIndexAndName : Obligations.CatalogueIsFoundByIndexAndName := by
  intro r s o rest hr hs
  refine ⟨fun e he => ⟨fun hi => gives_of_placed hs rfl ?_, fun hn => gives_of_placed hs rfl ?_⟩,
    fun hnone => refuses_of_placed hs rfl (lookupIndex_error.2 ⟨fun e he => (hnone e he).symm, rfl⟩),
    fun hnone => refuses_of_placed hs rfl (lookupName_error.2 ⟨fun e he => (hnone e he).symm, rfl⟩)⟩
  · rw [hi]
    exact lookupIndex_lawful hr he
  · rw [hn]
    exact lookupName_catalogue he

/-- Settles O27: the index is looked up first, and the kind's encode function then refuses a NaN first. -/
theorem rencRefusesInOrder : Obligations.RencRefusesInOrder := fun _ _ _ hs =>
  ⟨fun hnone => refuses_of_placed hs rfl (regEncode_unknown (not_in_regcat hnone) _), fun _ he hi =>
    ⟨fun hnan => refuses_of_placed hs rfl ((regEncode_entry he hi).trans (encodeKind_nan _ hnan)),
      fun hnan hno =>
        refuses_of_placed hs rfl ((regEncode_entry he hi).trans (encodeKind_unrepresentable hnan hno))⟩⟩

/-- Settles O28: RDEC of an entry's index is the decode function of its kind, which fails for no field. -/
theorem rdecDecodesByKind : Obligations.RdecDecodesByKind := fun _ _ _ hs =>
  ⟨fun e he hi => ⟨_, (gives_rdec_iff hs he hi).2 rfl, decodes_decodeKind e.kind _⟩,
    fun hnone => refuses_of_placed hs rfl (regDecode_unknown (not_in_regcat hnone) _)⟩

end Sys2Proof.Proofs
end

section
/-!
SUPPORT. The operation behind a refusal, and the failures of WRAP of a built message: those of its builder alone, since
a builder gives its own mode, which fits the identifier, and a whole payload (R190, R200, R254).
-/

namespace Sys2Proof.Proofs

open Sys2Proof.Machine Sys2Proof.Claims

/-- The status an instruction is refused with on what is loaded is that of its operation. -/
theorem operation_of_refuses {rom : Rom} {s : State} {o : Operands} {rest : List Request} {i : Instr} {f : Failure}
    (hs : LoadedWith rom s o rest) (h : Refuses i s rest f) : operation i rom o = .error f := by
  cases hop : operation i rom o with
  | ok r =>
    have hstate := Host.Outcome.next.inj ((gives_of_operation hs hop).symm.trans h)
    simp [replied] at hstate
  | error f' =>
    have hstate := Host.Outcome.next.inj ((refuses_of_operation hs hop).symm.trans h)
    simpa [replied] using hstate

/-- An instruction is refused with a status exactly when the outcome it places is that failure. -/
theorem refuses_placed_iff {α : Type} {rom : Rom} {s : State} {o : Operands} {rest : List Request} {i : Instr}
    {place : α → Result} {e : Except Failure α} {f : Failure} (hs : LoadedWith rom s o rest)
    (hop : operation i rom o = placed place e) : Refuses i s rest f ↔ e = .error f :=
  ⟨fun h => placed_eq_error.1 (hop.symm.trans (operation_of_refuses hs h)), refuses_of_placed hs hop⟩

/-- WRAP of what a builder gives never fails, so the composite fails as the builder does. -/
theorem wrapBuilt_eq_error_iff {built : Except Failure RawMessage} (hwf : Yields RawMessage.wf built) {f : Failure} :
    wrapBuilt standardRom built = .error f ↔ built = .error f := by
  cases hb : built with
  | ok m => simp [hb ▸ wrapBuilt_messageFrame hb hwf]
  | error f' => simp [wrapBuilt_error]

/-- A builder's instruction and the composite over the same builder are refused alike. -/
theorem refuses_build_iff_refuses_tx {s : State} {o : Operands} {rest : List Request} {b t : Instr} {f : Failure}
    {built : Except Failure RawMessage} (hs : Loaded s o rest) (hwf : Yields RawMessage.wf built)
    (hbuild : operation b standardRom o = placed .message built)
    (htx : operation t standardRom o = placed .frame (wrapBuilt standardRom built)) :
    Refuses b s rest f ↔ Refuses t s rest f :=
  calc Refuses b s rest f
    _ ↔ built = .error f := refuses_placed_iff hs hbuild
    _ ↔ wrapBuilt standardRom built = .error f := (wrapBuilt_eq_error_iff hwf).symm
    _ ↔ Refuses t s rest f := (refuses_placed_iff hs htx).symm

end Sys2Proof.Proofs
end

section
/-! The statement on the failures of the composites. -/

namespace Sys2Proof.Proofs

open Sys2Proof.Machine Sys2Proof.Claims

/-- Settles O36: each TX is WRAP of its own BUILD's outcome, whose message is well formed. -/
theorem txReportsTheBuildFailure : Obligations.TxReportsTheBuildFailure := by
  intro s o rest b t f hs hpair
  simp only [List.mem_cons, Prod.mk.injEq, List.not_mem_nil, or_false] at hpair
  obtain ⟨rfl, rfl⟩ | ⟨rfl, rfl⟩ | ⟨rfl, rfl⟩ | ⟨rfl, rfl⟩ | ⟨rfl, rfl⟩ | ⟨rfl, rfl⟩ | ⟨rfl, rfl⟩ | ⟨rfl, rfl⟩ := hpair
  · exact refuses_build_iff_refuses_tx hs (buildIdQuery_yields_wf _ _) rfl rfl
  · exact refuses_build_iff_refuses_tx hs (buildControl_yields_wf _ _) rfl rfl
  · exact refuses_build_iff_refuses_tx hs (buildEnable_yields_wf _ _) rfl rfl
  · exact refuses_build_iff_refuses_tx hs (buildDisable_yields_wf _ _) rfl rfl
  · exact refuses_build_iff_refuses_tx hs (buildSetZero_yields_wf _ _) rfl rfl
  · exact refuses_build_iff_refuses_tx hs (buildSetId_yields_wf _ _) rfl rfl
  · exact refuses_build_iff_refuses_tx hs (buildReadParam_yields_wf _ _) rfl rfl
  · exact refuses_build_iff_refuses_tx hs (buildWriteParam_yields_wf _ _) rfl rfl

end Sys2Proof.Proofs
end

section
/-!
SUPPORT. The receive path: PARSE of a mode without a parser (R221), RX of a message's own frame (R63, R235), and when an
instruction ends the transaction as another does on other operands (R30, R254).
-/

namespace Sys2Proof.Proofs

open Sys2Proof.Machine Sys2Proof.Claims

/-! ### PARSE of a mode without a parser (R221) -/

theorem parseMessage_otherMode {m : RawMessage} (h0 : m.commandMode ≠ 0) (h2 : m.commandMode ≠ 2)
    (h17 : m.commandMode ≠ 17) (h21 : m.commandMode ≠ 21) :
    parseMessage standardRom m = .error .unsupportedMode := by
  have hne : ∀ k : U8, m.commandMode ≠ k → m.commandMode.toNat ≠ k.toNat := fun _ => mt BitVec.eq_of_toNat_eq
  refine parseMessage_unsupported standardRom ?_
  simp only [List.mem_cons, List.not_mem_nil, or_false, not_or]
  exact ⟨hne 0 h0, hne 2 h2, hne 17 h17, hne 21 h21⟩

/-! ### RX of a message's frame (R63, R235) -/

/-- R63's frame of a message is the framer's, around the identifier word that PACK writes. -/
theorem messageFrame_eq_frameBytes {m : RawMessage} (h : m.commandMode.toNat ≤ 31) :
    messageFrame m = frameBytes standardRom (identifierWord standardRom m.commandMode m.auxField m.nodeId)
      (payloadBytes m.payload) := by
  rw [frameBytes_eq_frameOf, identifierWord_toNat h]
  rfl

theorem unwrapFrame_messageFrame {m : RawMessage} (h : m.commandMode.toNat ≤ 31) :
    unwrapFrame standardRom (messageFrame m) = .ok m := by
  rw [messageFrame_eq_frameBytes h, unwrapFrame_message h]

/-- RX undoes the frame of a message whose mode fits the identifier, and parses what it carries. -/
theorem receive_messageFrame {m : RawMessage} (h : m.commandMode.toNat ≤ 31) :
    receive standardRom (messageFrame m) = parseMessage standardRom m :=
  receive_ok standardRom (unwrapFrame_messageFrame h)

/-! ### Two instructions that answer alike (R30, R254) -/

/-- The whole next state is fixed by what waits, the record so far and the outcome of the operation: neither the
instruction's name nor the operands in flight show in it. -/
theorem exec_eq_of_operation_eq {rom : Rom} {s t : State} {o p : Operands} {rest : List Request} {i j : Instr}
    (hs : LoadedWith rom s o rest) (ht : LoadedWith rom t p rest) (hresponses : t.responses = s.responses)
    (hop : operation i rom o = operation j rom p) : exec i s = exec j t := by
  have hreplied : ∀ r, replied s rest r = replied t rest r := fun r => by
    rw [replied, replied, hs.1, ht.1, hresponses]
  cases hout : operation j rom p with
  | ok r =>
    calc exec i s = .next (replied s rest (.ok r)) := gives_of_operation hs (hop.trans hout)
      _ = .next (replied t rest (.ok r)) := by rw [hreplied]
      _ = exec j t := (gives_of_operation ht hout).symm
  | error f =>
    calc exec i s = .next (replied s rest (.fail f)) := refuses_of_operation hs (hop.trans hout)
      _ = .next (replied t rest (.fail f)) := by rw [hreplied]
      _ = exec j t := (refuses_of_operation ht hout).symm

/-- The operation of RX on an accepted frame is that of PARSE on operands that carry the frame's message. -/
theorem operation_rx_eq_operation_parse {rom : Rom} {o p : Operands} {m : RawMessage}
    (hread : unwrapFrame rom o.data = .ok m) (hm : operandMessage p = m) :
    operation .rx rom o = operation .parse rom p := by
  rw [operation, operation, receive_ok rom hread, hm]

end Sys2Proof.Proofs
end

section
/-! The statements on the parsers of modes 2 and 21, on the modes without a parser, and on RX. -/

namespace Sys2Proof.Proofs

open Sys2Proof.Machine Sys2Proof.Claims

/-- Settles O38: every message of mode 2 parses, field by field as the statement reads it. -/
theorem parseStatusResponse : Obligations.ParseStatusResponse := fun _ o _ hs hm =>
  gives_of_placed hs rfl (parseMessage_status (m := operandMessage o) hm)

/-- Settles O40: every message of mode 21 parses, with flags exactly for an error code other than 0. -/
theorem parseFaultResponse : Obligations.ParseFaultResponse := fun _ o _ hs hm =>
  gives_of_placed hs rfl (parseMessage_fault (m := operandMessage o) hm)

/-- Settles O41: the dispatch on command_mode ends in the refusal. -/
theorem parseRefusesOtherModes : Obligations.ParseRefusesOtherModes := fun _ o _ hs h0 h2 h17 h21 =>
  refuses_of_placed hs rfl (parseMessage_otherMode (m := operandMessage o) h0 h2 h17 h21)

/-- Settles O42: both modes fit the identifier, so RX reads the message back from its frame and parses it. -/
theorem rxParsesTheFrame : Obligations.RxParsesTheFrame := by
  intro s o rest m hs hdata
  have hreceive : m.commandMode.toNat ≤ 31 → receive standardRom o.data = parseMessage standardRom m :=
    fun hfits => hdata ▸ receive_messageFrame hfits
  constructor
  · intro hm
    exact gives_of_placed hs rfl ((hreceive (by rw [hm]; decide)).trans (parseMessage_status hm))
  · intro hm
    exact gives_of_placed hs rfl ((hreceive (by rw [hm]; decide)).trans (parseMessage_fault hm))

/-- Settles O43: what UNWRAP answers fixes what the framer reads, whose failure RX passes on and whose message it
parses. -/
theorem rxIsUnwrapThenParse : Obligations.RxIsUnwrapThenParse := by
  intro s t o p rest hs ht hresponses
  constructor
  · intro f hrefuses
    have hread : unwrapFrame standardRom o.data = .error f := (refuses_placed_iff hs rfl).1 hrefuses
    exact refuses_of_placed hs rfl (receive_error standardRom hread)
  · intro m hgives hmode haux hnode hpayload
    have hread : unwrapFrame standardRom o.data = .ok m :=
      (gives_placed_iff hs rfl fun _ _ => Result.message.inj).1 hgives
    have hm : operandMessage p = m := by rw [operandMessage, hmode, haux, hnode, hpayload]
    exact exec_eq_of_operation_eq hs ht hresponses (operation_rx_eq_operation_parse hread hm)

end Sys2Proof.Proofs
end

section
/-!
SUPPORT. The failures each operation can end with under the standard tables (R250), shown operation by operation, and
that the failure a new response carries is the one the operation ended with.
-/

namespace Sys2Proof.Proofs

open Sys2Proof.Machine Sys2Proof.Claims

/-! ### Outcomes all of whose failures are listed -/

/-- Every failure of the outcome is in the list; a value raises none. -/
def Raises {α : Type} (fs : List Failure) (e : Except Failure α) : Prop := ∀ f, e = .error f → f ∈ fs

section Raises

variable {α β : Type} {fs gs : List Failure}

theorem raises_ok (a : α) : Raises fs (.ok a) := nofun

theorem raises_error {f : Failure} (h : f ∈ fs) : Raises fs (.error f : Except Failure α) := by
  rintro _ ⟨⟩
  exact h

theorem raises_ite {c : Prop} [Decidable c] {x y : Except Failure α} (hx : Raises fs x) (hy : Raises fs y) :
    Raises fs (if c then x else y) := by
  split
  · exact hx
  · exact hy

theorem raises_bind {x : Except Failure α} {k : α → Except Failure β} (hx : Raises fs x) (hk : ∀ a, Raises fs (k a)) :
    Raises fs (x >>= k) := by
  intro f h
  obtain hfail | ⟨a, -, hrest⟩ := bind_eq_error.1 h
  · exact hx f hfail
  · exact hk a f hrest

theorem raises_placed {place : α → Result} {e : Except Failure α} (he : Raises fs e) : Raises fs (placed place e) :=
  fun f h => he f (placed_eq_error.1 h)

theorem raises_mono {e : Except Failure α} (he : Raises fs e) (hsub : fs ⊆ gs) : Raises gs e :=
  fun f h => hsub (he f h)

end Raises

/-! ### The quantizer (R101) -/

theorem quantEncode_raises {w : Nat} (hw : w = 1 ∨ w = 2) (value lo hi : F64) :
    Raises [.badRange, .notANumber] (quantEncode standardRom w value lo hi) := by
  rw [quantEncode_standard hw]
  exact raises_ite (raises_error (by decide)) (raises_ite (raises_error (by decide)) (raises_ok _))

theorem quantDecode_raises {w : Nat} (hw : w = 1 ∨ w = 2) (raw : Nat) (lo hi : F64) :
    Raises [.badRange, .fieldRange] (quantDecode standardRom w raw lo hi) := by
  rw [quantDecode_standard hw]
  exact raises_ite (raises_error (by decide)) (raises_ite (raises_error (by decide)) (raises_ok _))

/-- A ROM range is admitted, so only a NaN is refused (R109). -/
theorem encodeOver_raises {r : Range} (hr : r ∈ [pRange, vRange, tRange, kpRange, kdRange, iRange]) (value : F64) :
    Raises [.notANumber] (encodeOver standardRom r value) := by
  rw [encodeOver_standard hr]
  exact raises_ite (raises_error (by decide)) (raises_ok _)

/-! ### The identifier and the frame (R121, R125, R140, R142) -/

theorem packId_raises (mode : U8) (aux : U16) (node : U8) :
    Raises [.fieldRange] (packId standardRom mode aux node) := by
  rw [packId_standard]
  exact raises_ite (raises_error (by decide)) (raises_ok _)

theorem extractBits_raises (value : U32) (lo hi : U8) : Raises [.badBitRange] (extractBits value lo hi) :=
  raises_ite (raises_ok _) (raises_error (by decide))

theorem wrapFrame_raises (mode : U8) (aux : U16) (node : U8) (p : List Byte) :
    Raises [.fieldRange, .badPayloadLength] (wrapFrame standardRom mode aux node p) := by
  rw [wrapFrame_standard]
  exact raises_ite (raises_error (by decide)) (raises_ite (raises_error (by decide)) (raises_ok _))

theorem unwrapFrame_raises (data : List Byte) :
    Raises [.wrongLength, .badHeader, .badLength] (unwrapFrame standardRom data) := by
  rcases unwrapFrame_cases data with ⟨-, e⟩ | ⟨-, -, e⟩ | ⟨-, -, -, e⟩ | ⟨-, -, -, e⟩ <;> rw [e]
  · exact raises_error (by decide)
  · exact raises_error (by decide)
  · exact raises_error (by decide)
  · exact raises_ok _

/-! ### The register transcoder (R163 to R169) -/

theorem lookupIndex_raises (rom : Rom) (index : U16) : Raises [.unknownRegister] (lookupIndex rom index) := fun _ h =>
  List.mem_singleton.2 (lookupIndex_error.1 h).2

theorem lookupName_raises (rom : Rom) (name : String) : Raises [.unknownRegister] (lookupName rom name) := fun _ h =>
  List.mem_singleton.2 (lookupName_error.1 h).2

theorem encodeKind_raises (kind : RegKind) (value : F64) :
    Raises [.notANumber, .unrepresentable] (encodeKind kind value) := by
  intro f h
  obtain ⟨-, rfl⟩ | ⟨-, rfl⟩ := encodeKind_error h <;> decide

theorem regEncode_raises (rom : Rom) (index : U16) (value : F64) :
    Raises [.unknownRegister, .notANumber, .unrepresentable] (regEncode rom index value) :=
  raises_bind (raises_mono (lookupIndex_raises rom index) (by decide)) fun e =>
    raises_mono (encodeKind_raises e.kind value) (by decide)

/-- The index of an entry is found, so only the value can be refused (R165). -/
theorem regEncode_catalogued_raises {index : U16} (h : index ∈ regcat.map RegEntry.index) (value : F64) :
    Raises [.notANumber, .unrepresentable] (regEncode standardRom index value) := by
  obtain ⟨e, he, rfl⟩ := List.mem_map.1 h
  rw [regEncode_standard he]
  exact encodeKind_raises e.kind value

theorem regDecode_raises (rom : Rom) (index : U16) (field : Bytes4) :
    Raises [.unknownRegister] (regDecode rom index field) :=
  raises_bind (lookupIndex_raises rom index) fun _ => raises_ok _

/-! ### The builders and their frames (R190 to R200) -/

theorem checkTarget_raises (t : U32) : Raises [.fieldRange] (checkTarget t) :=
  raises_ite (raises_error (by decide)) (raises_ok _)

/-- The target id of an identifier word is one byte, so it is never refused (R61; log entry 3). -/
theorem checkTarget_word_raises (aux : U16) (node : U8) (o : Operands) :
    Raises [] (checkTarget (wordOperands aux node o).targetId) := by
  rw [checkTarget_ok.2 ⟨wordOperands_target_le aux node o, rfl⟩]
  exact raises_ok _

theorem controlEncode_raises (o : Operands) : Raises [.notANumber] (controlEncode standardRom o) :=
  raises_bind (encodeOver_raises (r := pRange) (by decide) _) fun _ =>
  raises_bind (encodeOver_raises (r := vRange) (by decide) _) fun _ =>
  raises_bind (encodeOver_raises (r := kpRange) (by decide) _) fun _ =>
  raises_bind (encodeOver_raises (r := kdRange) (by decide) _) fun _ => raises_ok _

section Builders

/-! What a builder adds to the failures `fs` of its target check. -/

variable {rom : Rom} {o : Operands} {fs : List Failure} (ht : Raises fs (checkTarget o.targetId))

include ht

theorem buildIdQuery_raises : Raises fs (buildIdQuery rom o) := raises_bind ht fun _ => raises_ok _

theorem buildEnable_raises : Raises fs (buildEnable rom o) := raises_bind ht fun _ => raises_ok _

theorem buildDisable_raises : Raises fs (buildDisable rom o) := raises_bind ht fun _ => raises_ok _

theorem buildSetZero_raises : Raises fs (buildSetZero rom o) := raises_bind ht fun _ => raises_ok _

theorem buildSetId_raises : Raises fs (buildSetId rom o) := raises_bind ht fun _ => raises_ok _

theorem buildControl_raises : Raises (fs ++ [.notANumber]) (buildControl standardRom o) :=
  raises_bind (raises_mono ht (List.subset_append_left _ _)) fun _ =>
    raises_mono (raises_bind (encodeOver_raises (r := tRange) (by decide) _) fun _ =>
      raises_bind (controlEncode_raises o) fun _ => raises_ok _) (List.subset_append_right _ _)

theorem buildReadParam_raises : Raises (fs ++ [.unknownRegister]) (buildReadParam rom o) :=
  raises_bind (raises_mono ht (List.subset_append_left _ _)) fun _ =>
    raises_mono (raises_bind (lookupIndex_raises rom o.index) fun _ => raises_ok _) (List.subset_append_right _ _)

theorem buildWriteParam_raises :
    Raises (fs ++ [.unknownRegister, .notANumber, .unrepresentable]) (buildWriteParam rom o) :=
  raises_bind (raises_mono ht (List.subset_append_left _ _)) fun _ =>
    raises_mono (raises_bind (regEncode_raises rom o.index o.value) fun _ => raises_ok _)
      (List.subset_append_right _ _)

end Builders

theorem wordControl_raises (aux : U16) (node : U8) (o : Operands) :
    Raises [.notANumber] (wordControl standardRom aux node o) :=
  raises_bind (controlEncode_raises o) fun _ => raises_ok _

/-- WRAP of a built message adds no failure to the builder's (R200, R254). -/
theorem wrapBuilt_raises {built : Except Failure RawMessage} {fs : List Failure} (hwf : Yields RawMessage.wf built)
    (hb : Raises fs built) : Raises fs (wrapBuilt standardRom built) :=
  fun f h => hb f ((wrapBuilt_eq_error_iff hwf).1 h)

/-! ### The parsers (R221, R222, R229, R235) -/

theorem parseMessage_id_raises {m : RawMessage} (hm : m.commandMode = 0) :
    Raises [.modeMismatch] (parseMessage standardRom m) := by
  by_cases hn : m.nodeId = 0xFE
  · rw [parseMessage_id hm hn]
    exact raises_ok _
  · rw [parseMessage_mismatch hm hn]
    exact raises_error (by decide)

theorem parseMessage_status_raises {m : RawMessage} (hm : m.commandMode = 2) :
    Raises [] (parseMessage standardRom m) := by
  rw [parseMessage_status hm]
  exact raises_ok _

theorem parseMessage_param_raises {m : RawMessage} (hm : m.commandMode = 17) :
    Raises [.unknownRegister] (parseMessage standardRom m) := by
  by_cases hi : ∃ e ∈ catalogue, number16 m.payload.b0 m.payload.b1 = e.index.toNat
  · obtain ⟨e, he, hindex⟩ := hi
    rw [parseMessage_paramRead hm he hindex]
    exact raises_ok _
  · rw [parseMessage_unknown hm fun e he hindex => hi ⟨e, he, hindex⟩]
    exact raises_error (by decide)

theorem parseMessage_fault_raises {m : RawMessage} (hm : m.commandMode = 21) :
    Raises [] (parseMessage standardRom m) := by
  rw [parseMessage_fault hm]
  exact raises_ok _

theorem parseMessage_raises (m : RawMessage) :
    Raises [.modeMismatch, .unknownRegister, .unsupportedMode] (parseMessage standardRom m) := by
  by_cases h0 : m.commandMode = 0
  · exact raises_mono (parseMessage_id_raises h0) (by decide)
  by_cases h2 : m.commandMode = 2
  · exact raises_mono (parseMessage_status_raises h2) (by decide)
  by_cases h17 : m.commandMode = 17
  · exact raises_mono (parseMessage_param_raises h17) (by decide)
  by_cases h21 : m.commandMode = 21
  · exact raises_mono (parseMessage_fault_raises h21) (by decide)
  rw [parseMessage_otherMode h0 h2 h17 h21]
  exact raises_error (by decide)

theorem receive_raises (data : List Byte) :
    Raises [.wrongLength, .badHeader, .badLength, .modeMismatch, .unknownRegister, .unsupportedMode]
      (receive standardRom data) :=
  raises_bind (raises_mono (unwrapFrame_raises data) (by decide)) fun m =>
    raises_mono (parseMessage_raises m) (by decide)

/-! ### Every instruction (R250) -/

/-- Under the standard tables an instruction ends with no failure but those R250 lists for it. -/
theorem operation_raises (i : Instr) (o : Operands) : Raises (mayRaise i) (operation i standardRom o) := by
  have ht : Raises [.fieldRange] (checkTarget o.targetId) := checkTarget_raises o.targetId
  cases i with
  | qenc1 => exact raises_placed (quantEncode_raises (.inl rfl) _ _ _)
  | qenc2 => exact raises_placed (quantEncode_raises (.inr rfl) _ _ _)
  | qdec1 => exact raises_placed (quantDecode_raises (.inl rfl) _ _ _)
  | qdec2 => exact raises_placed (quantDecode_raises (.inr rfl) _ _ _)
  | qtemp | unpack => exact raises_ok _
  | pack => exact raises_placed (packId_raises _ _ _)
  | xbits => exact raises_placed (extractBits_raises _ _ _)
  | wrap => exact raises_placed (wrapFrame_raises _ _ _ _)
  | unwrap => exact raises_placed (unwrapFrame_raises _)
  | rlook => exact raises_placed (lookupIndex_raises _ _)
  | rlookn => exact raises_placed (lookupName_raises _ _)
  | renc => exact raises_placed (regEncode_raises _ _ _)
  | rdec => exact raises_placed (regDecode_raises _ _ _)
  | build0 => exact raises_placed (buildIdQuery_raises ht)
  | build1 => exact raises_placed (buildControl_raises ht)
  | build3 => exact raises_placed (buildEnable_raises ht)
  | build4 => exact raises_placed (buildDisable_raises ht)
  | build6 => exact raises_placed (buildSetZero_raises ht)
  | build7 => exact raises_placed (buildSetId_raises ht)
  | build17 => exact raises_placed (buildReadParam_raises ht)
  | build18 => exact raises_placed (buildWriteParam_raises ht)
  | tx0 => exact raises_placed (wrapBuilt_raises (buildIdQuery_yields_wf _ _) (buildIdQuery_raises ht))
  | tx1 => exact raises_placed (wrapBuilt_raises (buildControl_yields_wf _ _) (buildControl_raises ht))
  | tx3 => exact raises_placed (wrapBuilt_raises (buildEnable_yields_wf _ _) (buildEnable_raises ht))
  | tx4 => exact raises_placed (wrapBuilt_raises (buildDisable_yields_wf _ _) (buildDisable_raises ht))
  | tx6 => exact raises_placed (wrapBuilt_raises (buildSetZero_yields_wf _ _) (buildSetZero_raises ht))
  | tx7 => exact raises_placed (wrapBuilt_raises (buildSetId_yields_wf _ _) (buildSetId_raises ht))
  | tx17 => exact raises_placed (wrapBuilt_raises (buildReadParam_yields_wf _ _) (buildReadParam_raises ht))
  | tx18 => exact raises_placed (wrapBuilt_raises (buildWriteParam_yields_wf _ _) (buildWriteParam_raises ht))
  | parse => exact raises_placed (parseMessage_raises _)
  | rx => exact raises_placed (receive_raises _)
  | msgIdQuery => exact raises_placed (buildIdQuery_raises (checkTarget_word_raises _ _ _))
  | msgControlCommand => exact raises_placed (wordControl_raises _ _ _)
  | msgEnable => exact raises_placed (buildEnable_raises (checkTarget_word_raises _ _ _))
  | msgDisable => exact raises_placed (buildDisable_raises (checkTarget_word_raises _ _ _))
  | msgSetZero => exact raises_placed (buildSetZero_raises (checkTarget_word_raises _ _ _))
  | msgSetId aux node =>
    exact raises_placed (buildSetId_raises (o := setIdOperands aux node o) (checkTarget_word_raises aux node o))
  | msgReadParam => exact raises_placed (buildReadParam_raises (checkTarget_word_raises _ _ _))
  | msgWriteParam => exact raises_placed (buildWriteParam_raises (checkTarget_word_raises _ _ _))
  | msgIdResponse => exact raises_placed (parseMessage_id_raises rfl)
  | msgStatusResponse => exact raises_placed (parseMessage_status_raises rfl)
  | msgParamReadResponse => exact raises_placed (parseMessage_param_raises rfl)
  | msgFaultResponse aux node => exact raises_placed (parseMessage_fault_raises (m := wordMessage 21 aux node o) rfl)
  | regRunMode | regIqRef | regSpdRef | regLimitTorque | regCurKp | regCurKi | regCurFiltGain | regLocRef | regLimitSpd
  | regLimitCur | regMechPos | regIqf | regMechVel | regVbus | regRotationCount =>
    exact raises_placed (regEncode_catalogued_raises (by decide) _)

/-- A new response that is a failure is the failure of the operation on the request in flight. -/
theorem operation_of_failure_response {s t : State} {i : Instr} {f : Failure} (h : exec i s = .next t)
    (hresponse : t.responses = s.responses ++ [.fail f]) :
    ∃ a rest, s.requests = a :: rest ∧ operation i s.rom a.operands = .error f := by
  rw [exec_eq_transact] at h
  rcases transact_cases s (operation i s.rom) with ⟨-, e⟩ | ⟨_, _, r, -, -, e⟩ | ⟨a, rest, g, hreq, hop, e⟩ <;>
    cases e.symm.trans h
  · simp at hresponse
  · simp at hresponse
  · have hsame : g = f := by simpa using hresponse
    exact ⟨a, rest, hreq, hsame ▸ hop⟩

end Sys2Proof.Proofs
end

section
/-! The statements on the failures: which operation raises which status, and the codes of the statuses. -/

namespace Sys2Proof.Proofs

open Sys2Proof.Machine Sys2Proof.Claims

/-- Settles O57: the failure of a new response is the operation's, which `operation_raises` lists. -/
theorem failuresOnlyWhereListed : Obligations.FailuresOnlyWhereListed := by
  intro s t i f hrom hexec hresponse
  obtain ⟨a, rest, -, hop⟩ := operation_of_failure_response hexec hresponse
  rw [hrom] at hop
  exact operation_raises i a.operands f hop

/-- Settles O58: the codes are read off the table, and the class of a failure is decided by its code. -/
theorem statusCodesAreTheSpecs : Obligations.StatusCodesAreTheSpecs :=
  ⟨fun _ => rfl, rfl, fun _ => decide_eq_true_iff, fun _ => rfl⟩

end Sys2Proof.Proofs
end

section
/-! SUPPORT. A machine that idles stays where it is, however long it runs; here, with no request in flight (R30). -/

namespace Sys2Proof.Proofs

open Sys2Proof.Machine

/-- A run from a state its step does not change ends there. -/
theorem run_of_step_self {M : Host.Core} {s : M.State} (h : M.step s = .next s) (k : Nat) : M.run k s = .next s := by
  induction k with
  | zero => rfl
  | succ k ih => rw [run_next h, ih]

/-- With no request in flight, any number of steps changes nothing. -/
theorem run_idle {s : State} (h : s.requests = []) (k : Nat) : Host.Core.run Sys2Proof.core k s = .next s :=
  run_of_step_self (M := Sys2Proof.core) (step_idle h) k

end Sys2Proof.Proofs
end

section
/-! The statement on reset: what it does to pending requests and to the tables. -/

namespace Sys2Proof.Proofs

open Sys2Proof.Machine Sys2Proof.Claims

/-- Settles O59: reset empties the channel of requests and keeps the other fields, and a machine with no request in
flight idles (R280, R282). -/
theorem resetDropsPendingRequests : Obligations.ResetDropsPendingRequests := fun s k =>
  run_idle (applyReset_requests s) k

end Sys2Proof.Proofs
end
